-- ==== Sys2Proof/Word.lean ====
section
/-! DEFINITION. The two bit-vector types of QRGE: the byte (a buffer element, an element of GF(256)) and the 32-bit
word (a command word, the value of a response). Spec: 00_scope R12, 30_encoding R80, 41_gf_scalar R120. -/

namespace Sys2Proof

/-- A buffer element and an element of GF(256) (20_memory R60, 41_gf_scalar R120). -/
abbrev Byte := BitVec 8

/-- A command word and the value of a response (00_scope R12). -/
abbrev Word := BitVec 32

end Sys2Proof
end

