-- ==== Sys2Proof/Syntax.lean ====
section
/-! DEFINITION. The syntax of QRGE: the 35 commands of 30_encoding R84, one constructor per row of
spec/opcode_table.json. Numbers, indices, coordinates and identifiers are `Nat` (their field widths are checked in
WellFormed.lean), data bytes are `Byte`, the level is the ordinal of 10_state R31. -/

namespace Sys2Proof

/-- The error-correction level, an ordinal (10_state R31): L < M < Q < H. -/
inductive Level where
  | L
  | M
  | Q
  | H
  deriving DecidableEq, Repr

/-- The 35 commands (30_encoding R84), with the operands of the format of each (R81, R82). -/
inductive Instr where
  | nop
  | reset
  | rdreg (n : Nat)
  | symnew (v : Nat) (l : Level)
  | bwr (buf idx : Nat) (byte : Byte)
  | brd (buf idx : Nat)
  | blen (buf n : Nat)
  | mrd (row col : Nat)
  | gfadd (a b : Byte)
  | gfmul (a b : Byte)
  | gfdiv (a b : Byte)
  | gfexp (n : Nat)
  | gflog (n : Byte)
  | genld (n : Nat)
  | pmul
  | prem
  | rscfg (ndata nblk ecpb : Nat)
  | rsenc
  | fmtword (l : Level) (m : Nat)
  | verword (v : Nat)
  | plfind
  | pltime
  | plalign
  | plfmt (m : Nat)
  | plver
  | pldark
  | plall
  | cntnone
  | avail
  | wkrst
  | wkbit (b : Bool)
  | wkrun
  | mskapp (m : Nat)
  | penalty
  | msksel
  deriving DecidableEq, Repr

end Sys2Proof
end

