-- ==== Sys2Proof/WellFormed.lean ====
section
/-! DEFINITION. Which instructions a command word can hold: every numeric operand within the width of its field
(30_encoding R81, R82). A value that the field holds and the command does not allow is well formed: it is the typed
error E_RANGE or E_CFG of the command's rule, not an illegal encoding (R82). -/

namespace Sys2Proof

/-- Every operand fits its field (30_encoding R82). -/
def WellFormed (i : Instr) : Bool :=
  match i with
  | .nop | .reset => true
  | .rdreg n => decide (n < 2 ^ 8)
  | .symnew v _ => decide (v < 2 ^ 8)
  | .bwr buf idx _ => decide (buf < 2 ^ 4) && decide (idx < 2 ^ 12)
  | .brd buf idx => decide (buf < 2 ^ 4) && decide (idx < 2 ^ 12)
  | .blen buf n => decide (buf < 2 ^ 4) && decide (n < 2 ^ 12)
  | .mrd row col => decide (row < 2 ^ 8) && decide (col < 2 ^ 8)
  | .gfadd _ _ | .gfmul _ _ | .gfdiv _ _ => true
  | .gfexp n => decide (n < 2 ^ 8)
  | .gflog _ => true
  | .genld n => decide (n < 2 ^ 8)
  | .pmul | .prem => true
  | .rscfg ndata nblk ecpb => decide (ndata < 2 ^ 12) && decide (nblk < 2 ^ 7) && decide (ecpb < 2 ^ 5)
  | .rsenc => true
  | .fmtword _ m => decide (m < 2 ^ 3)
  | .verword v => decide (v < 2 ^ 6)
  | .plfind | .pltime | .plalign => true
  | .plfmt m => decide (m < 2 ^ 3)
  | .plver | .pldark | .plall | .cntnone | .avail => true
  | .wkrst | .wkbit _ | .wkrun => true
  | .mskapp m => decide (m < 2 ^ 3)
  | .penalty | .msksel => true

end Sys2Proof
end

