-- ==== Sys2Proof/Decode.lean ====
section
/-! DEFINITION. Decoding a command word and encoding a command (30_encoding R80 to R87). Decoding is total: a word that
matches no row of R84 is rejected by name. -/

namespace Sys2Proof

/-- `w[hi:lo]` (00_scope R15): the bits hi down to lo, inclusive, as an unsigned number. -/
def bits (w : Word) (hi lo : Nat) : Nat := w.toNat / 2 ^ lo % 2 ^ (hi + 1 - lo)

/-- The ordinal of a level (10_state R31): 0 = L, 1 = M, 2 = Q, 3 = H. -/
def Level.ordinal : Level → Nat
  | .L => 0
  | .M => 1
  | .Q => 2
  | .H => 3

/-- The level a two-bit field names (10_state R31, 30_encoding R82). -/
def Level.ofOrdinal : Nat → Level
  | 0 => .L
  | 1 => .M
  | 2 => .Q
  | _ => .H

/-- Why a word is illegal (30_encoding R87). -/
inductive DecodeError where
  /-- Bits 31:24 are none of the 35 opcodes. -/
  | unassignedOpcode (op : Nat)
  /-- A bit the command's format leaves out of every field is 1. -/
  | mustBeZero (op : Nat)
  deriving DecidableEq, Repr

/-- The result of decoding (30_encoding R85). -/
inductive Decoded where
  | instr (i : Instr)
  | illegal (e : DecodeError)
  deriving DecidableEq, Repr

/-- The must-be-zero check of R85: `i` when the value `z` of the must-be-zero bits is 0. -/
def whenZero (op z : Nat) (i : Instr) : Decoded :=
  if z = 0 then .instr i else .illegal (.mustBeZero op)

/-- Decoding (30_encoding R85): the opcode byte selects the row, the must-be-zero bits of its format are checked, the
fields are extracted. It depends on the word alone. -/
def decode (w : Word) : Decoded :=
  match bits w 31 24 with
  | 0x00 => whenZero 0x00 (bits w 23 0) .nop
  | 0x01 => whenZero 0x01 (bits w 23 0) .reset
  | 0x02 => whenZero 0x02 (bits w 23 8) (.rdreg (bits w 7 0))
  | 0x03 => whenZero 0x03 (bits w 23 16 + bits w 7 2) (.symnew (bits w 15 8) (.ofOrdinal (bits w 1 0)))
  | 0x04 => .instr (.bwr (bits w 23 20) (bits w 19 8) (BitVec.ofNat 8 (bits w 7 0)))
  | 0x05 => whenZero 0x05 (bits w 7 0) (.brd (bits w 23 20) (bits w 19 8))
  | 0x06 => whenZero 0x06 (bits w 7 0) (.blen (bits w 23 20) (bits w 19 8))
  | 0x07 => whenZero 0x07 (bits w 23 16) (.mrd (bits w 15 8) (bits w 7 0))
  | 0x10 => whenZero 0x10 (bits w 23 16) (.gfadd (BitVec.ofNat 8 (bits w 15 8)) (BitVec.ofNat 8 (bits w 7 0)))
  | 0x11 => whenZero 0x11 (bits w 23 16) (.gfmul (BitVec.ofNat 8 (bits w 15 8)) (BitVec.ofNat 8 (bits w 7 0)))
  | 0x12 => whenZero 0x12 (bits w 23 16) (.gfdiv (BitVec.ofNat 8 (bits w 15 8)) (BitVec.ofNat 8 (bits w 7 0)))
  | 0x13 => whenZero 0x13 (bits w 23 8) (.gfexp (bits w 7 0))
  | 0x14 => whenZero 0x14 (bits w 23 8) (.gflog (BitVec.ofNat 8 (bits w 7 0)))
  | 0x20 => whenZero 0x20 (bits w 23 8) (.genld (bits w 7 0))
  | 0x21 => whenZero 0x21 (bits w 23 0) .pmul
  | 0x22 => whenZero 0x22 (bits w 23 0) .prem
  | 0x30 => .instr (.rscfg (bits w 23 12) (bits w 11 5) (bits w 4 0))
  | 0x31 => whenZero 0x31 (bits w 23 0) .rsenc
  | 0x32 => whenZero 0x32 (bits w 23 10 + bits w 7 3) (.fmtword (.ofOrdinal (bits w 9 8)) (bits w 2 0))
  | 0x33 => whenZero 0x33 (bits w 23 6) (.verword (bits w 5 0))
  | 0x40 => whenZero 0x40 (bits w 23 0) .plfind
  | 0x41 => whenZero 0x41 (bits w 23 0) .pltime
  | 0x42 => whenZero 0x42 (bits w 23 0) .plalign
  | 0x43 => whenZero 0x43 (bits w 23 3) (.plfmt (bits w 2 0))
  | 0x44 => whenZero 0x44 (bits w 23 0) .plver
  | 0x45 => whenZero 0x45 (bits w 23 0) .pldark
  | 0x46 => whenZero 0x46 (bits w 23 0) .plall
  | 0x47 => whenZero 0x47 (bits w 23 0) .cntnone
  | 0x48 => whenZero 0x48 (bits w 23 0) .avail
  | 0x50 => whenZero 0x50 (bits w 23 0) .wkrst
  | 0x51 => whenZero 0x51 (bits w 23 1) (.wkbit (decide (bits w 0 0 = 1)))
  | 0x52 => whenZero 0x52 (bits w 23 0) .wkrun
  | 0x60 => whenZero 0x60 (bits w 23 3) (.mskapp (bits w 2 0))
  | 0x61 => whenZero 0x61 (bits w 23 0) .penalty
  | 0x62 => whenZero 0x62 (bits w 23 0) .msksel
  | op => .illegal (.unassignedOpcode op)

/-- Format Z (30_encoding R81). -/
def formatZ (op : Nat) : Word := BitVec.ofNat 32 (op * 2 ^ 24)

/-- Formats N8, M3, B1 and V6: one number at bit 0 (30_encoding R81). -/
def formatN (op n : Nat) : Word := BitVec.ofNat 32 (op * 2 ^ 24 + n)

/-- Formats AB and RC (30_encoding R81). -/
def formatAB (op a b : Nat) : Word := BitVec.ofNat 32 (op * 2 ^ 24 + a * 2 ^ 8 + b)

/-- Format SV (30_encoding R81). -/
def formatSV (op v l : Nat) : Word := BitVec.ofNat 32 (op * 2 ^ 24 + v * 2 ^ 8 + l)

/-- Format FW (30_encoding R81). -/
def formatFW (op l m : Nat) : Word := BitVec.ofNat 32 (op * 2 ^ 24 + l * 2 ^ 8 + m)

/-- Formats BW and BR; BR has no byte, its bits 7:0 are 0 (30_encoding R81). -/
def formatBW (op buf idx byte : Nat) : Word :=
  BitVec.ofNat 32 (op * 2 ^ 24 + buf * 2 ^ 20 + idx * 2 ^ 8 + byte)

/-- Format RS (30_encoding R81). -/
def formatRS (op ndata nblk ecpb : Nat) : Word :=
  BitVec.ofNat 32 (op * 2 ^ 24 + ndata * 2 ^ 12 + nblk * 2 ^ 5 + ecpb)

/-- The word of a well-formed command (30_encoding R81, R84). -/
def encode (i : Instr) : Word :=
  match i with
  | .nop => formatZ 0x00
  | .reset => formatZ 0x01
  | .rdreg n => formatN 0x02 n
  | .symnew v l => formatSV 0x03 v l.ordinal
  | .bwr buf idx byte => formatBW 0x04 buf idx byte.toNat
  | .brd buf idx => formatBW 0x05 buf idx 0
  | .blen buf n => formatBW 0x06 buf n 0
  | .mrd row col => formatAB 0x07 row col
  | .gfadd a b => formatAB 0x10 a.toNat b.toNat
  | .gfmul a b => formatAB 0x11 a.toNat b.toNat
  | .gfdiv a b => formatAB 0x12 a.toNat b.toNat
  | .gfexp n => formatN 0x13 n
  | .gflog n => formatN 0x14 n.toNat
  | .genld n => formatN 0x20 n
  | .pmul => formatZ 0x21
  | .prem => formatZ 0x22
  | .rscfg ndata nblk ecpb => formatRS 0x30 ndata nblk ecpb
  | .rsenc => formatZ 0x31
  | .fmtword l m => formatFW 0x32 l.ordinal m
  | .verword v => formatN 0x33 v
  | .plfind => formatZ 0x40
  | .pltime => formatZ 0x41
  | .plalign => formatZ 0x42
  | .plfmt m => formatN 0x43 m
  | .plver => formatZ 0x44
  | .pldark => formatZ 0x45
  | .plall => formatZ 0x46
  | .cntnone => formatZ 0x47
  | .avail => formatZ 0x48
  | .wkrst => formatZ 0x50
  | .wkbit b => formatN 0x51 b.toNat
  | .wkrun => formatZ 0x52
  | .mskapp m => formatN 0x60 m
  | .penalty => formatZ 0x61
  | .msksel => formatZ 0x62

/-- The word of which the table gives the low `nbits` bits `w` and every further bit is 0. -/
def tableWord (nbits w : Nat) : Word := BitVec.ofNat 32 (w % 2 ^ nbits)

/-- The instruction the decoder reads from the table's word `w` of `nbits` bits. -/
def decodeTableWord (nbits w : Nat) : Option Instr :=
  match decode (tableWord nbits w) with
  | .instr i => some i
  | .illegal _ => none

end Sys2Proof
end

