-- ==== Sys2Proof/Config.lean ====
section
/-! DEFINITION. The configuration record of QRGE (00_scope R11), and the free byte that stands for the value of a buffer
byte that was never written (20_memory R66). The OPEN parameters are a field of the state; the fixed ones have their values
in Machine/Ops.lean, and the operations read them there. -/

namespace Sys2Proof

/-- `P_ALIGN`, the alignment coordinate table (44_pattern_placer R199): `document`, the formula of R198 for every
version, or `standard`, which differs in the rows of versions 36 and 39. -/
inductive AlignTable where
  | document
  | standard
  deriving DecidableEq, Repr

/-- `P_UNWRITTEN`, the treatment of buffer bytes never written (20_memory R66): `refuse`, the run has no meaning from
that point, or `anyValue`, the byte is a free draw, made once per read, under no law. -/
inductive UnwrittenRead where
  | refuse
  | anyValue
  deriving DecidableEq, Repr

/-- The OPEN parameters of one QRGE instance (00_scope R11). Fixed for the machine: no step changes them (log 1). -/
structure OpenParams where
  /-- P_ALIGN. -/
  align     : AlignTable
  /-- P_UNWRITTEN. -/
  unwritten : UnwrittenRead
  deriving DecidableEq, Repr

/-- The defaults of the OPEN parameters (00_scope R11, 92_eei_decisions D7, D21). -/
def OpenParams.default : OpenParams where
  align     := .document
  unwritten := .refuse

/-- The parameters of 00_scope R11 that have one value; the values stand in `Machine.fixedParams` (Machine/Ops.lean). -/
structure FixedParams where
  /-- VMAX, the largest version. -/
  vmax        : Nat
  /-- W(v) is `sideBase` plus `sideStep` for each version. -/
  sideBase    : Nat
  sideStep    : Nat
  /-- GMAX, the largest generator index. -/
  gmax        : Nat
  /-- The reduction constant of the field. -/
  reduction   : Nat
  /-- The number of masks. -/
  masks       : Nat
  /-- The number of tags. -/
  tags        : Nat
  /-- The width of a command word, in bits. -/
  commandBits : Nat
  /-- The widths of the error code and of the value of a response, in bits. -/
  errBits     : Nat
  valBits     : Nat
  /-- DCAP, OCAP, PCAP: the capacities of D, of O, and of each of A, B, R. -/
  dcap        : Nat
  ocap        : Nat
  pcap        : Nat
  /-- The engine id word. -/
  idWord      : Nat
  deriving DecidableEq, Repr

/-- The one configuration record of 00_scope R11: every parameter of its table. -/
structure Config extends FixedParams, OpenParams where
  deriving DecidableEq, Repr

/-- The free byte of the `n`-th draw (20_memory R66, "under no law"). It has no value anything can prove (log 3). -/
opaque Config.freeByte : Nat → Byte

end Sys2Proof
end

