-- ==== Sys2Proof/Machine/State.lean ====
section
/-! DEFINITION. The state of QRGE (10_state R20), the port to the host, the reasons a step can stop, and the state right
after reset (10_state R50, 70_reset R360). -/

namespace Sys2Proof.Machine

/-- The nine `err` values (60_exceptions R321). -/
inductive Err where
  | ok
  | illegal
  | range
  | noSym
  | divZero
  | len
  | cfg
  | faulted
  | overflow
  deriving DecidableEq, Repr

/-- The response of a command: the pair (err, val) (00_scope R12). -/
structure Response where
  err : Err
  val : Word
  deriving DecidableEq, Repr

/-- The reserved-cell tags, in the order of their codes 0 to 6 (10_state R35). `free` is the source's "none". -/
inductive Tag where
  | free
  | finder
  | timing
  | alignment
  | format
  | version
  | dark
  deriving DecidableEq, Repr

/-- WST, the next transition the walker will perform, in the order of the codes 0 to 5 (10_state R42). -/
inductive WalkState where
  | enter
  | stepH
  | stepUp
  | revTop
  | stepDown
  | revBottom
  deriving DecidableEq, Repr

/-- The walker registers WROW, WCOL, WST, WUP, WCNT (10_state R42). -/
structure Walker where
  row : Nat
  col : Nat
  st  : WalkState
  up  : Bool
  cnt : Nat
  deriving DecidableEq, Repr

/-- The five byte buffers (20_memory R60). -/
inductive Buf where
  | D
  | O
  | A
  | B
  | R
  deriving DecidableEq, Repr

/-- A byte buffer: its written bytes, index strictly rising. An index that is not listed is unwritten (20_memory R66). -/
abbrev Memory := List Host.Cell

/-- A cell array indexed [row][col] (10_state R34, R35): the list of its rows. -/
abbrev Grid (α : Type) := List (List α)

/-- The state of the engine: the list of 10_state R20 and nothing else. STATUS.SYM and WIDTH are computed from VERSION
(R25, R33); ID and the tables are constants (R24, R44 to R46). -/
structure Engine where
  /-- STATUS.FAULT (R25). -/
  fault   : Bool
  /-- STATUS.FCODE (R25). -/
  fcode   : BitVec 8
  /-- VERSION (R30). -/
  version : Nat
  /-- ECL (R31). -/
  ecl     : Level
  /-- MASK (R32). -/
  mask    : Nat
  /-- MOD (R34): true is dark. -/
  mod     : Grid Bool
  /-- TAG (R35). -/
  tag     : Grid Tag
  /-- NDATA (R37). -/
  ndata   : Nat
  /-- ECPB (R37). -/
  ecpb    : Nat
  /-- NBLK (R37). -/
  nblk    : Nat
  /-- OLEN (R38). -/
  olen    : Nat
  /-- LENA (R39). -/
  lena    : Nat
  /-- LENB (R39). -/
  lenb    : Nat
  /-- LENR (R39). -/
  lenr    : Nat
  /-- D (R40). -/
  bufD    : Memory
  /-- O (R40). -/
  bufO    : Memory
  /-- A (R41). -/
  bufA    : Memory
  /-- B (R41). -/
  bufB    : Memory
  /-- R (R41). -/
  bufR    : Memory
  /-- WROW, WCOL, WST, WUP, WCNT (R42). -/
  walk    : Walker
  /-- PEN1 (R43). -/
  pen1    : Nat
  /-- PEN2 (R43). -/
  pen2    : Nat
  /-- PEN3 (R43). -/
  pen3    : Nat
  /-- PEN4 (R43). -/
  pen4    : Nat
  /-- PENT (R43). -/
  pent    : Nat
  deriving DecidableEq, Repr

/-- What comes to the engine from outside: a command word (00_scope R12) or a hardware reset (70_reset R360, R362). -/
inductive HostInput where
  | command (w : Word)
  | hardReset
  deriving DecidableEq, Repr

/-- The engine with its port. `input`, `resp`, `cfg` and `draws` are the model's own fields (INVENTORY, State). -/
structure State where
  /-- The engine's state (10_state R20). -/
  eng   : Engine
  /-- The host's inputs not yet taken, oldest first (log 4). -/
  input : List HostInput
  /-- The response to the last command; none before the first (log 5). -/
  resp  : Option Response
  /-- The OPEN parameters; no step changes them (log 1). -/
  cfg   : OpenParams
  /-- How many free bytes have been drawn (log 3). -/
  draws : Nat
  deriving DecidableEq, Repr

/-- The reasons for a stop by a fault of the machine: none. Every event of QRGE is a response (60_exceptions R320), and the
fatal fault of R325 is a latch the engine goes on with. -/
inductive Fault where
  deriving DecidableEq, Repr

/-- The reasons a step has no meaning. -/
inductive Refusal where
  /-- Raised by an arm of exec for an instruction without a meaning. No arm raises it now. Safe. -/
  | notModelled (mnemonic : String)
  /-- Raised by BRD, PMUL, PREM, RSENC and WKRUN where they would read a buffer byte never written, under
  `P_UNWRITTEN = refuse` only: "the model gives the run no meaning from that point" (20_memory R66). Safe. -/
  | unwrittenByte (b : Buf)
  deriving DecidableEq, Repr

/-- The engine after reset (10_state R50). With VERSION = 0 the width is 0 and no cell of MOD or TAG exists (log 7). -/
def Engine.reset : Engine where
  fault   := false
  fcode   := 0
  version := 0
  ecl     := .L
  mask    := 0
  mod     := []
  tag     := []
  ndata   := 0
  ecpb    := 0
  nblk    := 0
  olen    := 0
  lena    := 0
  lenb    := 0
  lenr    := 0
  bufD    := []
  bufO    := []
  bufA    := []
  bufB    := []
  bufR    := []
  walk    := { row := 0, col := 0, st := .enter, up := true, cnt := 0 }
  pen1    := 0
  pen2    := 0
  pen3    := 0
  pen4    := 0
  pent    := 0

/-- The machine right after reset (10_state R50): nothing presented, nothing answered; the OPEN parameters at their
defaults (00_scope R11, log 2). -/
def State.reset : State where
  eng   := Engine.reset
  input := []
  resp  := none
  cfg   := OpenParams.default
  draws := 0

/-- What one command or one step answers. -/
abbrev Result := Host.Outcome State Fault Refusal

end Sys2Proof.Machine
end

