-- ==== Sys2Proof/Machine/Ops.lean ====
section
/-! DEFINITION. The shared operations of QRGE: the byte buffers (20_memory R60 to R66), the cell arrays (10_state R34,
R35), the response (40_config R100), the entry checks (60_exceptions R326, R327), the fatal fault (R325) and the reset
that leaves it (R329), and the port to the host. -/

namespace Sys2Proof.Machine

/-! ## Configuration -/

/-- The value of every fixed parameter (00_scope R11). -/
def fixedParams : FixedParams where
  vmax        := 40
  sideBase    := 17
  sideStep    := 4
  gmax        := 30
  reduction   := 0x1D
  masks       := 8
  tags        := 7
  commandBits := 32
  errBits     := 8
  valBits     := 32
  dcap        := 4096
  ocap        := 4096
  pcap        := 256
  idWord      := 0x51524745

/-- The configuration of a machine (00_scope R11): the fixed parameters and its OPEN ones. -/
def State.config (s : State) : Config := { fixedParams, s.cfg with }

/-! ## Byte buffers -/

/-- The canonical form of a buffer: indices strictly rising. No entry can equal what an unlisted index reads as, since an
unlisted index has no value (20_memory R66). -/
abbrev Memory.wf (m : Memory) : Prop := m.Pairwise (fun x y => x.1 < y.1)

/-- Every written index lies below the capacity `cap` (00_scope R11, 20_memory R60). -/
abbrev Memory.within (cap : Nat) (m : Memory) : Prop := ∀ x ∈ m, x.1 < cap

/-- `MemRead(BUF, i, 1)` (00_scope R16): the byte at index `i`, or none when it is unwritten (20_memory R66). -/
def memRead (m : Memory) (i : Nat) : Option Byte :=
  match m with
  | [] => none
  | (a, b) :: rest => if a = i then some b else memRead rest i

/-- `MemWrite(BUF, i, 1, v)` (00_scope R16); the byte becomes written (20_memory R66). -/
def memWrite (m : Memory) (i : Nat) (v : Byte) : Memory :=
  match m with
  | [] => [(i, v)]
  | (a, b) :: rest =>
    if i < a then (i, v) :: (a, b) :: rest
    else if i = a then (i, v) :: rest
    else (a, b) :: memWrite rest i v

/-- The bytes of `vs` at consecutive indices from `i`. -/
def cellsFrom (i : Nat) (vs : List Byte) : Memory :=
  match vs with
  | [] => []
  | v :: rest => (i, v) :: cellsFrom (i + 1) rest

/-- `for t in 0..len(vs)-1: BUF[t] <- vs[t]` (GENLD, PMUL, PREM, RSENC); the bytes above are kept. -/
def memFill (m : Memory) (vs : List Byte) : Memory :=
  cellsFrom 0 vs ++ m.filter (fun x => decide (vs.length ≤ x.1))

/-- `BUF[lo..lo+n-1]`, each element with its written or unwritten status. -/
def memSlots (m : Memory) (lo n : Nat) : List (Option Byte) :=
  (List.range n).map (fun i => memRead m (lo + i))

/-- The buffer a name stands for (20_memory R60). -/
def Engine.buf (e : Engine) (b : Buf) : Memory :=
  match b with
  | .D => e.bufD
  | .O => e.bufO
  | .A => e.bufA
  | .B => e.bufB
  | .R => e.bufR

/-- The engine with one buffer replaced. -/
def Engine.setBuf (e : Engine) (b : Buf) (m : Memory) : Engine :=
  match b with
  | .D => { e with bufD := m }
  | .O => { e with bufO := m }
  | .A => { e with bufA := m }
  | .B => { e with bufB := m }
  | .R => { e with bufR := m }

/-! ## Cell arrays -/

/-- `W(v)`, the grid side of version `v` (00_scope R11). -/
def sideOf (v : Nat) : Nat := fixedParams.sideBase + fixedParams.sideStep * v

/-- WIDTH (10_state R33): 0 when there is no Symbol. -/
def Engine.width (e : Engine) : Nat := if e.version = 0 then 0 else sideOf e.version

/-- The element at (r, c), or none when no such cell exists. -/
def cellAt {α : Type} (g : Grid α) (r c : Nat) : Option α :=
  match g[r]? with
  | some row => row[c]?
  | none => none

/-- The array with the element at (r, c) replaced; a cell that does not exist is not created. -/
def setCell {α : Type} (g : Grid α) (r c : Nat) (v : α) : Grid α :=
  g.modify r (fun row => row.set c v)

/-- A `w` by `w` array with every cell `v` (40_config R104). -/
def blankGrid {α : Type} (w : Nat) (v : α) : Grid α := List.replicate w (List.replicate w v)

/-- Both dimensions of the array are `w`. -/
abbrev Square {α : Type} (w : Nat) (g : Grid α) : Prop := g.length = w ∧ ∀ row ∈ g, row.length = w

/-- `MOD[r][c]`; 1 is dark (00_scope R18). -/
def Engine.modAt (e : Engine) (r c : Nat) : Bool := (cellAt e.mod r c).getD false

/-- `TAG[r][c]`. -/
def Engine.tagAt (e : Engine) (r c : Nat) : Tag := (cellAt e.tag r c).getD .free

/-- `TAG[r][c] = 0` of a cell that exists: the cell is free (00_scope R19, glossary). -/
def isFree (tag : Grid Tag) (r c : Nat) : Bool :=
  match cellAt tag r c with
  | some .free => true
  | _ => false

/-! ## Responses -/

/-- `zext_32` (00_scope R15). -/
def zext32 (n : Nat) : Word := BitVec.ofNat 32 n

/-- The command ends with the response (err, val) (40_config R100). -/
def respond (err : Err) (val : Word) (s : State) : Result :=
  .next { s with resp := some { err := err, val := val } }

/-- `return v` (00_scope R16): response (OK, v). -/
def succeed (val : Nat) (s : State) : Result := respond .ok (zext32 val) s

/-- `raise E_NAME` (00_scope R16, 60_exceptions R323): response (code, 0), no state of the engine changes. -/
def typedError (err : Err) (s : State) : Result := respond err 0 s

/-- The fatal fault (60_exceptions R325): STATUS.FAULT <- 1, STATUS.FCODE <- 8, response (F_OVERFLOW, 0). Nothing else is
written by the fault itself. -/
def takeOverflow (s : State) : Result :=
  respond .overflow 0 { s with eng := { s.eng with fault := true, fcode := 8 } }

/-- Reset, the one return from the fatal fault (60_exceptions R329, 70_reset R360): every piece of the engine's state at
its reset value. -/
def resetEngine (s : State) : State := { s with eng := Engine.reset }

/-- The hardware reset (70_reset R360, R362): the reset of the engine, without a response, since it is no command. -/
def hardReset (s : State) : Result := .next { resetEngine s with resp := none }

/-! ## Checks, in the order of 60_exceptions R327 -/

/-- The fault gate (60_exceptions R326). -/
def gate (k : State → Result) (s : State) : Result :=
  if s.eng.fault = true then typedError .faulted s else k s

/-- The Symbol check (60_exceptions R327 step 3): VERSION ≠ 0, else E_NOSYM. -/
def needSymbol (k : State → Result) (s : State) : Result :=
  if s.eng.version = 0 then typedError .noSym s else k s

/-- One check of a command's Requires line (40_config R100): `c`, else the typed error `err`. -/
def require (c : Bool) (err : Err) (k : State → Result) (s : State) : Result :=
  if c = true then k s else typedError err s

/-! ## Reading bytes that may be unwritten (20_memory R66) -/

/-- The values of the elements read, with the count of free draws after them; none under `refuse` when one is unwritten.
Under `anyValue` each unwritten element is a free draw of its own. -/
def drawBytes (p : UnwrittenRead) (d : Nat) (slots : List (Option Byte)) : Option (List Byte × Nat) :=
  match slots with
  | [] => some ([], d)
  | some b :: rest =>
    match drawBytes p d rest with
    | some (bs, d') => some (b :: bs, d')
    | none => none
  | none :: rest =>
    match p with
    | .refuse => none
    | .anyValue =>
      match drawBytes p (d + 1) rest with
      | some (bs, d') => some (Config.freeByte d :: bs, d')
      | none => none

/-- Reads `b[lo..lo+n-1]`, each element once, and goes on with the bytes; refused under `P_UNWRITTEN = refuse` when one
of them is unwritten (20_memory R66). -/
def readBytes (b : Buf) (lo n : Nat) (k : List Byte → State → Result) (s : State) : Result :=
  match drawBytes s.config.unwritten s.draws (memSlots (s.eng.buf b) lo n) with
  | some (bs, d) => k bs { s with draws := d }
  | none => .refused (.unwrittenByte b)

/-! ## The port -/

/-- The oldest input not yet taken, and the state without it (00_scope R12). -/
def takeInput (s : State) : Option (HostInput × State) :=
  match s.input with
  | [] => none
  | x :: rest => some (x, { s with input := rest })

/-- The host presents `w` as the next command word, before anything already waiting. -/
def presentWord (w : Word) (s : State) : State := { s with input := .command w :: s.input }

/-- Between commands the engine holds its state and does nothing (60_exceptions R345). -/
def idle (s : State) : Result := .next s

/-- A word that matches no row of the opcode table (30_encoding R87, 60_exceptions R327 step 1). -/
def answerIllegal (s : State) : Result := typedError .illegal s

end Sys2Proof.Machine
end

