-- ==== Sys2Proof/Machine/Flags.lean ====
section
/-! DEFINITION. STATUS, the one flag register of QRGE (10_state R23, R25). There are no condition codes. -/

namespace Sys2Proof.Machine

/-- STATUS.SYM: always equal to (VERSION ≠ 0) (10_state R25, R36 d). -/
def Engine.sym (e : Engine) : Bool := decide (e.version ≠ 0)

/-- STATUS as software reads it (10_state R25): FAULT at bit 0, SYM at bit 1, FCODE at bits 15:8, the rest 0. -/
def Engine.status (e : Engine) : Nat := e.fault.toNat + 2 * e.sym.toNat + 256 * e.fcode.toNat

end Sys2Proof.Machine
end

