-- ==== Sys2Proof/Machine/Operands.lean ====
section
/-! DEFINITION. What the operand fields of a command name: buffers (30_encoding R86, 20_memory R60), registers
(10_state R24 to R43, 40_config R103), and the codes of levels, tags, walker states and errors. -/

namespace Sys2Proof.Machine

/-- The largest version, VMAX (00_scope R11). -/
def vmax : Nat := fixedParams.vmax

/-- The largest generator index, GMAX (00_scope R11). -/
def gmax : Nat := fixedParams.gmax

/-- The number of masks (00_scope R11). -/
def maskCount : Nat := fixedParams.masks

/-- The capacity of a buffer (00_scope R11): DCAP, OCAP 4096, PCAP 256. -/
def Buf.capacity (b : Buf) : Nat :=
  match b with
  | .D => fixedParams.dcap
  | .O => fixedParams.ocap
  | .A => fixedParams.pcap
  | .B => fixedParams.pcap
  | .R => fixedParams.pcap

/-- The buffer of a `buf` field (30_encoding R86): 5 to 15 name none. -/
def bufOfCode (n : Nat) : Option Buf :=
  match n with
  | 0 => some .D
  | 1 => some .O
  | 2 => some .A
  | 3 => some .B
  | 4 => some .R
  | _ => none

/-- ID (10_state R24): the ASCII bytes "QRGE". -/
def idWord : Nat := fixedParams.idWord

/-- The code of a tag (10_state R35). -/
def Tag.code (t : Tag) : Nat :=
  match t with
  | .free => 0
  | .finder => 1
  | .timing => 2
  | .alignment => 3
  | .format => 4
  | .version => 5
  | .dark => 6

/-- The code of a walker state (10_state R42). -/
def WalkState.code (w : WalkState) : Nat :=
  match w with
  | .enter => 0
  | .stepH => 1
  | .stepUp => 2
  | .revTop => 3
  | .stepDown => 4
  | .revBottom => 5

/-- The `err` code of a response (60_exceptions R321). -/
def Err.code (x : Err) : BitVec 8 :=
  match x with
  | .ok => 0
  | .illegal => 1
  | .range => 2
  | .noSym => 3
  | .divZero => 4
  | .len => 5
  | .cfg => 6
  | .faulted => 7
  | .overflow => 8

/-- The largest register number (40_config R103). -/
def lastReg : Nat := 21

/-- `reg(n)` (40_config R103). Numbers above 21 name no register; RDREG refuses them first. -/
def Engine.reg (e : Engine) (n : Nat) : Nat :=
  match n with
  | 0 => idWord
  | 1 => e.status
  | 2 => e.version
  | 3 => e.ecl.ordinal
  | 4 => e.mask
  | 5 => e.width
  | 6 => e.ndata
  | 7 => e.ecpb
  | 8 => e.nblk
  | 9 => e.olen
  | 10 => e.lena
  | 11 => e.lenb
  | 12 => e.lenr
  | 13 => e.walk.row
  | 14 => e.walk.col
  | 15 => e.walk.st.code + 256 * e.walk.up.toNat
  | 16 => e.walk.cnt
  | 17 => e.pen1
  | 18 => e.pen2
  | 19 => e.pen3
  | 20 => e.pen4
  | 21 => e.pent
  | _ => 0

end Sys2Proof.Machine
end

