-- ==== Sys2Proof/Machine/Polynomial.lean ====
section
/-! DEFINITION. The polynomial unit (42_polynomial): the generator table GEN, polynomial product and remainder, and the
meanings of GENLD, PMUL, PREM. A polynomial is the list of its coefficients, highest power first (R140); its length is
part of the value (R141). -/

namespace Sys2Proof.Machine

/-- Entrywise xor of `ys` onto the front of `xs`. -/
def xorOnto (xs ys : List Byte) : List Byte :=
  match xs, ys with
  | x :: xs, y :: ys => gfadd x y :: xorOnto xs ys
  | xs, [] => xs
  | [], _ :: _ => []

/-- The polynomial with every coefficient multiplied by `f`. -/
def scale (f : Byte) (d : List Byte) : List Byte := d.map (fun x => gfmul x f)

/-- `polymul(p, q)` for lengths at least 1 (42_polynomial R144): coefficient t is the xor of the products p[i] q[j] with
i + j = t. -/
def polymul (p q : List Byte) : List Byte :=
  match p with
  | [] => []
  | [a] => scale a q
  | a :: p => xorOnto (scale a q ++ List.replicate p.length 0) (0 :: polymul p q)

/-- The elimination loop of `polyrem` (42_polynomial R147): `n` times, the leading entry of the running remainder is
eliminated with the divisor scaled by leading entry / d[0]; the eliminated entry, now 0, is dropped. -/
def eliminate (d : List Byte) (n : Nat) (w : List Byte) : List Byte :=
  match n, w with
  | 0, w => w
  | _ + 1, [] => []
  | n + 1, x :: w => eliminate d n (xorOnto w (scale (gfdiv x (d.headD 0)) d.tail))

/-- A dividend of length less than L - 1, left-padded with zeros (42_polynomial R147). -/
def padLeft (l : Nat) (p : List Byte) : List Byte := List.replicate (l - 1 - p.length) 0 ++ p

/-- `polyrem(p, d)` for d of length at least 1 with d[0] ≠ 0 (42_polynomial R147); its length is len(d) - 1. -/
def polyrem (p d : List Byte) : List Byte :=
  eliminate d ((padLeft d.length p).length + 1 - d.length) (padLeft d.length p)

/-- GEN[0..30] as printed in 10_state R45. -/
def genRows : List (List Nat) :=
  [[1],
   [1, 1],
   [1, 3, 2],
   [1, 7, 14, 8],
   [1, 15, 54, 120, 64],
   [1, 31, 198, 63, 147, 116],
   [1, 63, 1, 218, 32, 227, 38],
   [1, 127, 122, 154, 164, 11, 68, 117],
   [1, 255, 11, 81, 54, 239, 173, 200, 24],
   [1, 226, 207, 158, 245, 235, 164, 232, 197, 37],
   [1, 216, 194, 159, 111, 199, 94, 95, 113, 157, 193],
   [1, 172, 130, 163, 50, 123, 219, 162, 248, 144, 116, 160],
   [1, 68, 119, 67, 118, 220, 31, 7, 84, 92, 127, 213, 97],
   [1, 137, 73, 227, 17, 177, 17, 52, 13, 46, 43, 83, 132, 120],
   [1, 14, 54, 114, 70, 174, 151, 43, 158, 195, 127, 166, 210, 234, 163],
   [1, 29, 196, 111, 163, 112, 74, 10, 105, 105, 139, 132, 151, 32, 134, 26],
   [1, 59, 13, 104, 189, 68, 209, 30, 8, 163, 65, 41, 229, 98, 50, 36, 59],
   [1, 119, 66, 83, 120, 119, 22, 197, 83, 249, 41, 143, 134, 85, 53, 125, 99, 79],
   [1, 239, 251, 183, 113, 149, 175, 199, 215, 240, 220, 73, 82, 173, 75, 32, 67, 217, 146],
   [1, 194, 8, 26, 146, 20, 223, 187, 152, 85, 115, 238, 133, 146, 109, 173, 138, 33, 172, 179],
   [1, 152, 185, 240, 5, 111, 99, 6, 220, 112, 150, 69, 36, 187, 22, 228, 198, 121, 121, 165, 174],
   [1, 44, 243, 13, 131, 49, 132, 194, 67, 214, 28, 89, 124, 82, 158, 244, 37, 236, 142, 82, 255, 89],
   [1, 89, 179, 131, 176, 182, 244, 19, 189, 69, 40, 28, 137, 29, 123, 67, 253, 86, 218, 230, 26, 145, 245],
   [1, 179, 68, 154, 163, 140, 136, 190, 152, 25, 85, 19, 3, 196, 27, 113, 198, 18, 130, 2, 120, 93, 41, 71],
   [1, 122, 118, 169, 70, 178, 237, 216, 102, 115, 150, 229, 73, 130, 72, 61, 43, 206, 1, 237, 247, 127, 217, 144, 117],
   [1, 245, 49, 228, 53, 215, 6, 205, 210, 38, 82, 56, 80, 97, 139, 81, 134, 126, 168, 98, 226, 125, 23, 171, 173, 193],
   [1, 246, 51, 183, 4, 136, 98, 199, 152, 77, 56, 206, 24, 145, 40, 209, 117, 233, 42, 135, 68, 70, 144, 146, 77, 43, 94],
   [1, 240, 61, 29, 145, 144, 117, 150, 48, 58, 139, 94, 134, 193, 105, 33, 169, 202, 102, 123, 113, 195, 25, 213, 6, 152, 164, 217],
   [1, 252, 9, 28, 13, 18, 251, 208, 150, 103, 174, 100, 41, 167, 12, 247, 56, 117, 119, 233, 127, 181, 100, 121, 147, 176, 74, 58, 197],
   [1, 228, 193, 196, 48, 170, 86, 80, 217, 54, 143, 79, 32, 88, 255, 87, 24, 15, 251, 85, 82, 201, 58, 112, 191, 153, 108, 132, 143, 170],
   [1, 212, 246, 77, 73, 195, 192, 75, 98, 5, 70, 103, 177, 22, 217, 138, 51, 181, 246, 72, 25, 18, 46, 228, 74, 216, 195, 11, 106, 130, 150]]

/-- GEN[k], k in 0..30 (42_polynomial R142, 10_state R45). -/
def genTable (k : Nat) : List Byte := (genRows.getD k []).map (BitVec.ofNat 8)

/-- GENLD (42_polynomial R143): n ≤ 30, else E_RANGE. -/
def execGenld (n : Nat) (s : State) : Result :=
  gate (require (decide (n ≤ gmax)) .range fun s =>
    succeed (n + 1) { s with eng := { s.eng with bufB := memFill s.eng.bufB (genTable n), lenb := n + 1 } }) s

/-- The result of PMUL and PREM: the bytes at R[0..], LENR their number, and the response their number. -/
def storeR (r : List Byte) (s : State) : Result :=
  succeed r.length { s with eng := { s.eng with bufR := memFill s.eng.bufR r, lenr := r.length } }

/-- PMUL (42_polynomial R145): both lengths at least 1 and a product of at most 256 coefficients, else E_LEN. -/
def execPmul (s : State) : Result :=
  gate (require (decide (1 ≤ s.eng.lena ∧ 1 ≤ s.eng.lenb)) .len <|
    require (decide (s.eng.lena + s.eng.lenb - 1 ≤ Buf.R.capacity)) .len <|
    readBytes .A 0 s.eng.lena fun p =>
    readBytes .B 0 s.eng.lenb fun q =>
    storeR (polymul p q)) s

/-- PREM (42_polynomial R148): LENB ≥ 1, else E_LEN; B[0] ≠ 0, else E_DIVZERO. B[0] is read first, then the dividend,
then the rest of the divisor, each byte once (log 11). -/
def execPrem (s : State) : Result :=
  gate (require (decide (1 ≤ s.eng.lenb)) .len <|
    readBytes .B 0 1 fun lead =>
    require (decide (lead.headD 0 ≠ 0)) .divZero <|
    readBytes .A 0 s.eng.lena fun p =>
    readBytes .B 1 (s.eng.lenb - 1) fun rest =>
    storeR (polyrem p (lead.headD 0 :: rest))) s

end Sys2Proof.Machine
end

