-- ==== Sys2Proof/Machine/Bch.lean ====
section
/-! DEFINITION. The BCH half of the Reed-Solomon and BCH unit (43_rs_bch): the format word, the version word, and the
meanings of FMTWORD and VERWORD. -/

namespace Sys2Proof.Machine

/-- FMTDIV, the degree-10 divisor (10_state R46). -/
def fmtDiv : Nat := 0x537

/-- VERDIV, the degree-12 divisor (10_state R46). -/
def verDiv : Nat := 0x1F25

/-- FMTXOR, the 15-bit constant xored onto the format word (10_state R46). -/
def fmtXor : BitVec 15 := 0x5412

/-- ECCODE, the level code inside the format word (43_rs_bch R169). -/
def ecCode (l : Level) : Nat :=
  match l with
  | .L => 1
  | .M => 0
  | .Q => 3
  | .H => 2

/-- The low `n` bits of `x`, most significant first, as coefficients 0 or 1 (43_rs_bch R168). -/
def bitCoeffs (n x : Nat) : List Byte :=
  (List.range n).map (fun i => BitVec.ofNat 8 (x / 2 ^ (n - 1 - i) % 2))

/-- The number whose bits, most significant first, are the entries (43_rs_bch R168). -/
def coeffsNat (cs : List Byte) : Nat := cs.foldl (fun acc b => 2 * acc + b.toNat) 0

/-- `bchrem(x, d, g, t)` (43_rs_bch R168): the remainder of the `d` bits of `x` followed by `t` zeros, divided by the
`t + 1` bits of `g`, by the one routine `polyrem`. -/
def bchrem (x d g t : Nat) : Nat :=
  coeffsNat (polyrem (bitCoeffs d x ++ List.replicate t 0) (bitCoeffs (t + 1) g))

/-- `fmtword(l, m)` (43_rs_bch R170). -/
def fmtword (lv : Level) (m : Nat) : BitVec 15 :=
  BitVec.ofNat 15 ((ecCode lv * 8 + m) * 1024 + bchrem (ecCode lv * 8 + m) 5 fmtDiv 10) ^^^ fmtXor

/-- `verword(v)` (43_rs_bch R173). -/
def verword (v : Nat) : BitVec 18 := BitVec.ofNat 18 (v * 4096 + bchrem v 6 verDiv 12)

/-- FMTWORD (43_rs_bch R171). -/
def execFmtword (lv : Level) (m : Nat) (s : State) : Result :=
  gate (succeed (fmtword lv m).toNat) s

/-- VERWORD (43_rs_bch R174). -/
def execVerword (v : Nat) (s : State) : Result :=
  gate (succeed (verword v).toNat) s

end Sys2Proof.Machine
end

