-- ==== Sys2Proof/Machine/Interface.lean ====
section
/-! DEFINITION. The meanings of the interface commands (40_config_and_buffers): NOP, RESET, RDREG, SYMNEW, BWR, BRD, BLEN,
MRD. -/

namespace Sys2Proof.Machine

/-- NOP (40_config R101). Allowed when faulted. -/
def execNop (s : State) : Result := succeed 0 s

/-- RESET (40_config R102). Allowed when faulted. -/
def execReset (s : State) : Result := succeed 0 (resetEngine s)

/-- RDREG (40_config R103): n ≤ 21, else E_RANGE. Allowed when faulted. -/
def execRdreg (n : Nat) (s : State) : Result :=
  require (decide (n ≤ lastReg)) .range (succeed (s.eng.reg n)) s

/-- The walker registers after SYMNEW and WKRST on a grid of side `w` (10_state R42). -/
def Walker.start (w : Nat) : Walker := { row := w - 1, col := w - 1, st := .enter, up := true, cnt := 0 }

/-- The assignments of SYMNEW (40_config R104, 10_state R51): a blank Symbol of version `v` and level `lv`. -/
def Engine.newSymbol (e : Engine) (v : Nat) (lv : Level) : Engine :=
  { e with
    version := v, ecl := lv, mask := 0,
    mod := blankGrid (sideOf v) false, tag := blankGrid (sideOf v) .free,
    walk := Walker.start (sideOf v),
    pen1 := 0, pen2 := 0, pen3 := 0, pen4 := 0, pent := 0 }

/-- SYMNEW (40_config R104): 1 ≤ v ≤ 40, else E_RANGE. -/
def execSymnew (v : Nat) (lv : Level) (s : State) : Result :=
  gate (require (decide (1 ≤ v ∧ v ≤ vmax)) .range fun s =>
    succeed (sideOf v) { s with eng := s.eng.newSymbol v lv }) s

/-- The buffers BWR may write (40_config R105): D, A, B. -/
def hostWritable (b : Buf) : Bool :=
  match b with
  | .D => true
  | .O => false
  | .A => true
  | .B => true
  | .R => false

/-- BWR (40_config R105): buf in D, A, B, else E_RANGE; idx within the buffer, else E_RANGE. -/
def execBwr (buf idx : Nat) (byte : Byte) (s : State) : Result :=
  gate (fun s =>
    match bufOfCode buf with
    | none => typedError .range s
    | some b =>
      require (hostWritable b && decide (idx < b.capacity)) .range (fun s =>
        succeed 0 { s with eng := s.eng.setBuf b (memWrite (s.eng.buf b) idx byte) }) s) s

/-- How many elements of a buffer BRD may read (40_config R106): all of D, A, B; those below OLEN of O; those below LENR
of R. -/
def Engine.readable (e : Engine) (b : Buf) : Nat :=
  match b with
  | .D => Buf.D.capacity
  | .O => e.olen
  | .A => Buf.A.capacity
  | .B => Buf.B.capacity
  | .R => e.lenr

/-- BRD (40_config R106): buf ≤ 4, else E_RANGE; idx among the readable elements, else E_RANGE. -/
def execBrd (buf idx : Nat) (s : State) : Result :=
  gate (fun s =>
    match bufOfCode buf with
    | none => typedError .range s
    | some b =>
      require (decide (idx < s.eng.readable b)) .range
        (readBytes b idx 1 fun bs => succeed (bs.headD 0).toNat) s) s

/-- BLEN (40_config R107): buf in A, B, else E_RANGE; n ≤ 256, else E_RANGE. -/
def execBlen (buf n : Nat) (s : State) : Result :=
  gate (fun s =>
    match bufOfCode buf with
    | some .A =>
      require (decide (n ≤ Buf.A.capacity)) .range
        (fun s => succeed 0 { s with eng := { s.eng with lena := n } }) s
    | some .B =>
      require (decide (n ≤ Buf.B.capacity)) .range
        (fun s => succeed 0 { s with eng := { s.eng with lenb := n } }) s
    | _ => typedError .range s) s

/-- MRD (40_config R108): VERSION ≠ 0, else E_NOSYM; row < W and col < W, else E_RANGE. -/
def execMrd (row col : Nat) (s : State) : Result :=
  gate (needSymbol <|
    require (decide (row < s.eng.width ∧ col < s.eng.width)) .range
      (succeed (256 * (s.eng.tagAt row col).code + (s.eng.modAt row col).toNat))) s

end Sys2Proof.Machine
end

