-- ==== Sys2Proof/Machine/Placer.lean ====
section
/-! DEFINITION. The fixed pattern placer (44_pattern_placer): the cells of each pattern, the count of free cells, and the
meanings of PLFIND, PLTIME, PLALIGN, PLFMT, PLVER, PLDARK, PLALL, CNTNONE, AVAIL. -/

namespace Sys2Proof.Machine

/-- One application of the primitive `stamp(r, c, val, t)` (44_pattern_placer R190). -/
structure Stamp where
  row  : Nat
  col  : Nat
  dark : Bool
  tag  : Tag
  deriving DecidableEq, Repr

/-- `stamp(r, c, val, t)` (44_pattern_placer R190): module and tag of the cell are overwritten. -/
def Engine.stamp (e : Engine) (p : Stamp) : Engine :=
  { e with mod := setCell e.mod p.row p.col p.dark, tag := setCell e.tag p.row p.col p.tag }

/-- The stamps in order. -/
def Engine.stampAll (e : Engine) (ps : List Stamp) : Engine := ps.foldl Engine.stamp e

/-- |a - b| of naturals. -/
def absDiff (a b : Nat) : Nat := (a - b) + (b - a)

/-- The Chebyshev distance of (r, c) from (r0, c0) (00_scope glossary). -/
def chebyshev (r c r0 c0 : Nat) : Nat := max (absDiff r r0) (absDiff c c0)

/-- The cells (r0 + i, c0 + j) for i, j below `n`, row by row. -/
def squareCells (r0 c0 n : Nat) : List (Nat × Nat) :=
  (List.range n).flatMap fun i => (List.range n).map fun j => (r0 + i, c0 + j)

/-- One finder pattern with area origin (r0, c0) and centre (cr, cc) (44_pattern_placer R192). -/
def finderAt (r0 c0 cr cc : Nat) : List Stamp :=
  (squareCells r0 c0 8).map fun p =>
    { row := p.1, col := p.2, tag := .finder,
      dark := decide (chebyshev p.1 p.2 cr cc = 0 ∨ chebyshev p.1 p.2 cr cc % 2 = 1) }

/-- The three finder patterns (44_pattern_placer R193). -/
def finderStamps (w : Nat) : List Stamp :=
  finderAt 0 0 3 3 ++ finderAt 0 (w - 8) 3 (w - 4) ++ finderAt (w - 8) 0 (w - 4) 3

/-- The timing patterns (44_pattern_placer R195): i in 8..W-9, dark when i is even. -/
def timingStamps (w : Nat) : List Stamp :=
  (List.range (w - 16)).flatMap fun k =>
    [{ row := 6, col := 8 + k, dark := decide ((8 + k) % 2 = 0), tag := .timing },
     { row := 8 + k, col := 6, dark := decide ((8 + k) % 2 = 0), tag := .timing }]

/-- The gap count g of version `v` (44_pattern_placer R197, R198). -/
def alignGaps (v : Nat) : Nat := v / 7 + 1

/-- The spacing of version `v` (44_pattern_placer R198): the first division truncates, the second is exact. -/
def alignSpacing (v : Nat) : Nat := 2 * (((sideOf v - 12) / alignGaps v + 1) / 2)

/-- `aligncoords(v)` by the formula (44_pattern_placer R199, `document`). -/
def formulaCoords (v : Nat) : List Nat :=
  if v ≤ 1 then []
  else 6 :: (List.range (alignGaps v)).reverse.map fun i => sideOf v - 7 - i * alignSpacing v

/-- `aligncoords(v)` (44_pattern_placer R199) under the parameter `P_ALIGN`. -/
def alignCoords (p : AlignTable) (v : Nat) : List Nat :=
  match p with
  | .document => formulaCoords v
  | .standard =>
    if v = 36 then [6, 24, 50, 76, 102, 128, 154]
    else if v = 39 then [6, 26, 54, 82, 110, 138, 166]
    else formulaCoords v

/-- The centres (44_pattern_placer R200): every pair of coordinates but the three that fall on a finder. -/
def alignCentres (p : AlignTable) (v : Nat) : List (Nat × Nat) :=
  ((alignCoords p v).flatMap fun r => (alignCoords p v).map fun c => (r, c)).filter fun q =>
    decide (q ≠ (6, 6) ∧ q ≠ (6, sideOf v - 7) ∧ q ≠ (sideOf v - 7, 6))

/-- One alignment pattern about the centre (r, c) (44_pattern_placer R196): dark centre, light ring, dark ring. -/
def alignAt (r c : Nat) : List Stamp :=
  (squareCells (r - 2) (c - 2) 5).map fun p =>
    { row := p.1, col := p.2, tag := .alignment, dark := decide ((chebyshev p.1 p.2 r c + 1) % 2 = 1) }

/-- The alignment patterns (44_pattern_placer R201); none for version 1. -/
def alignStamps (p : AlignTable) (v : Nat) : List Stamp :=
  (alignCentres p v).flatMap fun q => alignAt q.1 q.2

/-- The cell of bit `i` in the first format copy (44_pattern_placer R202). -/
def formatCopy1 (i : Nat) : Nat × Nat :=
  if i ≤ 5 then (i, 8)
  else if i = 6 then (7, 8)
  else if i = 7 then (8, 8)
  else if i = 8 then (8, 7)
  else (8, 14 - i)

/-- The cell of bit `i` in the second format copy (44_pattern_placer R202). -/
def formatCopy2 (w i : Nat) : Nat × Nat :=
  if i ≤ 7 then (8, w - 1 - i) else (w - 15 + i, 8)

/-- The format pattern of a format word (44_pattern_placer R204). -/
def formatStamps (w : Nat) (word : BitVec 15) : List Stamp :=
  (List.range 15).flatMap fun i =>
    [{ row := (formatCopy1 i).1, col := (formatCopy1 i).2, dark := word.getLsbD i, tag := .format },
     { row := (formatCopy2 w i).1, col := (formatCopy2 w i).2, dark := word.getLsbD i, tag := .format }]

/-- The version pattern (44_pattern_placer R207); none for versions below 7. -/
def versionStamps (v : Nat) : List Stamp :=
  if v < 7 then []
  else (List.range 18).flatMap fun i =>
    [{ row := i / 3, col := sideOf v - 11 + i % 3, dark := (verword v).getLsbD i, tag := .version },
     { row := sideOf v - 11 + i % 3, col := i / 3, dark := (verword v).getLsbD i, tag := .version }]

/-- The dark module (44_pattern_placer R209). -/
def darkStamps (v : Nat) : List Stamp :=
  [{ row := 4 * v + 9, col := 8, dark := true, tag := .dark }]

/-- The six patterns in the order of PLALL (44_pattern_placer R210), the format pattern for mask id `m`. -/
def allStamps (p : AlignTable) (v : Nat) (lv : Level) (m : Nat) : List Stamp :=
  finderStamps (sideOf v) ++ timingStamps (sideOf v) ++ alignStamps p v
    ++ formatStamps (sideOf v) (fmtword lv m) ++ versionStamps v ++ darkStamps v

/-- The number of cells of an array with tag none (44_pattern_placer R212). -/
def countFree (tag : Grid Tag) : Nat := (tag.map (fun row => row.countP (fun t => t = .free))).sum

/-- n of 44_pattern_placer R213: the number of alignment coordinates. -/
def alignCount (v : Nat) : Nat := if v = 1 then 0 else v / 7 + 2

/-- `avail(v)` (44_pattern_placer R213). -/
def avail (v : Nat) : Nat :=
  sideOf v * sideOf v - 192
    - (if 2 ≤ v then 25 * (alignCount v * alignCount v - 3) - 10 * (alignCount v - 2) else 0)
    - 2 * (sideOf v - 16) - 30 - 1 - (if 7 ≤ v then 36 else 0)

/-- A placement command: the Symbol check, the stamps, the response (OK, 0) (44_pattern_placer R190). -/
def place (ps : State → List Stamp) (s : State) : Result :=
  gate (needSymbol fun s => succeed 0 { s with eng := s.eng.stampAll (ps s) }) s

/-- PLFIND (44_pattern_placer R193). -/
def execPlfind (s : State) : Result := place (fun s => finderStamps s.eng.width) s

/-- PLTIME (44_pattern_placer R195). -/
def execPltime (s : State) : Result := place (fun s => timingStamps s.eng.width) s

/-- PLALIGN (44_pattern_placer R201). -/
def execPlalign (s : State) : Result := place (fun s => alignStamps s.config.align s.eng.version) s

/-- PLFMT (44_pattern_placer R204). -/
def execPlfmt (m : Nat) (s : State) : Result :=
  place (fun s => formatStamps s.eng.width (fmtword s.eng.ecl m)) s

/-- PLVER (44_pattern_placer R207). -/
def execPlver (s : State) : Result := place (fun s => versionStamps s.eng.version) s

/-- PLDARK (44_pattern_placer R209). -/
def execPldark (s : State) : Result := place (fun s => darkStamps s.eng.version) s

/-- PLALL (44_pattern_placer R210), the format pattern for the Symbol's current mask id. -/
def execPlall (s : State) : Result :=
  place (fun s => allStamps s.config.align s.eng.version s.eng.ecl s.eng.mask) s

/-- CNTNONE (44_pattern_placer R212). -/
def execCntnone (s : State) : Result :=
  gate (needSymbol fun s => succeed (countFree s.eng.tag) s) s

/-- AVAIL (44_pattern_placer R215). -/
def execAvail (s : State) : Result :=
  gate (needSymbol fun s => succeed (avail s.eng.version) s) s

end Sys2Proof.Machine
end

