-- ==== Sys2Proof/Machine/MaskPenalty.lean ====
section
/-! DEFINITION. The mask and penalty unit (46_mask_penalty): the eight masks, the four penalty rules, the selection, and the
meanings of MSKAPP, PENALTY, MSKSEL. -/

namespace Sys2Proof.Machine

/-- `maskhit(m, row, col)`, y = row, x = col (46_mask_penalty R262). A number above 7 is no mask id (log 17). -/
def maskhit (m y x : Nat) : Bool :=
  match m with
  | 0 => decide ((x + y) % 2 = 0)
  | 1 => decide (y % 2 = 0)
  | 2 => decide (x % 3 = 0)
  | 3 => decide ((x + y) % 3 = 0)
  | 4 => decide ((y / 2 + x / 3) % 2 = 0)
  | 5 => decide ((x * y) % 2 + (x * y) % 3 = 0)
  | 6 => decide (((x * y) % 2 + (x * y) % 3) % 2 = 0)
  | 7 => decide (((x + y) % 2 + (x * y) % 3) % 2 = 0)
  | _ => false

/-- `maskapply` on the cells of row `y` from column `x` on (46_mask_penalty R263). -/
def maskRow (m y x : Nat) (tags : List Tag) (mods : List Bool) : List Bool :=
  match tags, mods with
  | t :: tags, b :: mods =>
    (if t = .free ∧ maskhit m y x = true then !b else b) :: maskRow m y (x + 1) tags mods
  | _, mods => mods

/-- `maskapply(m)` on the rows from row `y` on (46_mask_penalty R263): the module of a free cell is inverted where the
formula holds. -/
def maskRows (m y : Nat) (tag : Grid Tag) (mod : Grid Bool) : Grid Bool :=
  match tag, mod with
  | tags :: tag, mods :: mod => maskRow m y 0 tags mods :: maskRows m (y + 1) tag mod
  | _, mod => mod

/-- `maskapply(m)` (46_mask_penalty R263). TAG is not written. -/
def Engine.maskApply (e : Engine) (m : Nat) : Engine := { e with mod := maskRows m 0 e.tag e.mod }

/-- The columns of a matrix, each read top to bottom (46_mask_penalty R268). -/
def columnsOf (g : Grid Bool) : List (List Bool) :=
  g.foldr (fun row acc => List.zipWith List.cons row acc) (List.replicate (g.headD []).length [])

/-- The lines of a matrix: its rows, then its columns (46_mask_penalty R268). -/
def linesOf (g : Grid Bool) : List (List Bool) := g ++ columnsOf g

/-- What a maximal run of length `n` contributes (46_mask_penalty R269). -/
def runScore (n : Nat) : Nat := if 5 ≤ n then n - 2 else 0

/-- The contributions of the maximal runs of a line of which the run in progress has `n` entries equal to `prev`. -/
def runsFrom (prev : Bool) (n : Nat) (line : List Bool) : Nat :=
  match line with
  | [] => runScore n
  | b :: rest => if b = prev then runsFrom prev (n + 1) rest else runScore n + runsFrom b 1 rest

/-- The run-length penalty of one line (46_mask_penalty R269). -/
def linePen1 (line : List Bool) : Nat :=
  match line with
  | [] => 0
  | b :: rest => runsFrom b 1 rest

/-- `pen1(g)` (46_mask_penalty R269). -/
def penRuns (g : Grid Bool) : Nat := ((linesOf g).map linePen1).sum

/-- The number of windows of two adjacent rows with four equal cells (46_mask_penalty R270). -/
def blocksIn (r1 r2 : List Bool) : Nat :=
  match r1, r2 with
  | a :: b :: t1, c :: d :: t2 =>
    (if a = b ∧ a = c ∧ a = d then 1 else 0) + blocksIn (b :: t1) (d :: t2)
  | _, _ => 0

/-- The number of 2 by 2 windows with four equal cells (46_mask_penalty R270). -/
def blockCount (g : Grid Bool) : Nat :=
  match g with
  | r1 :: r2 :: rest => blocksIn r1 r2 + blockCount (r2 :: rest)
  | _ => 0

/-- `pen2(g)` (46_mask_penalty R270). -/
def penBlocks (g : Grid Bool) : Nat := 3 * blockCount g

/-- FPAT (10_state R46). -/
def finderLike : List Bool := [true, false, true, true, true, false, true, false, false, false, false]

/-- The number of occurrences, overlapping ones included, of FPAT or its reverse in a line (46_mask_penalty R271). -/
def patternsIn (line : List Bool) : Nat :=
  match line with
  | [] => 0
  | b :: rest =>
    (if finderLike.isPrefixOf (b :: rest) || finderLike.reverse.isPrefixOf (b :: rest) then 1 else 0)
      + patternsIn rest

/-- `pen3(g)` (46_mask_penalty R271). -/
def penPatterns (g : Grid Bool) : Nat := 40 * ((linesOf g).map patternsIn).sum

/-- The number of dark modules (46_mask_penalty R272). -/
def darkCount (g : Grid Bool) : Nat := (g.map (fun row => row.countP (fun b => b))).sum

/-- H K, the number of entries (46_mask_penalty R272). -/
def cellCount (g : Grid Bool) : Nat := (g.map List.length).sum

/-- `pen4(g)` (46_mask_penalty R272): 2 |(20 dark) div total - 10|. -/
def penRatio (g : Grid Bool) : Nat := 2 * absDiff (20 * darkCount g / cellCount g) 10

/-- The four sub-scores (10_state R43). -/
structure Scores where
  p1 : Nat
  p2 : Nat
  p3 : Nat
  p4 : Nat
  deriving DecidableEq, Repr

/-- The four penalties of a matrix (46_mask_penalty R269 to R272). -/
def scoresOf (g : Grid Bool) : Scores :=
  { p1 := penRuns g, p2 := penBlocks g, p3 := penPatterns g, p4 := penRatio g }

/-- `penalty(g)` (46_mask_penalty R273). -/
def Scores.total (p : Scores) : Nat := p.p1 + p.p2 + p.p3 + p.p4

/-- The penalty registers hold these scores and their sum (10_state R43). -/
def Engine.setScores (e : Engine) (p : Scores) : Engine :=
  { e with pen1 := p.p1, pen2 := p.p2, pen3 := p.p3, pen4 := p.p4, pent := p.total }

/-- `cand(m)` (46_mask_penalty R275): the mask applied, then the format pattern of `m` stamped. -/
def Engine.candidate (e : Engine) (m : Nat) : Engine :=
  (e.maskApply m).stampAll (formatStamps e.width (fmtword e.ecl m))

/-- One comparison of the selection (46_mask_penalty R276): strict less-than, so the first found wins ties. -/
def better (best : Option (Nat × Scores)) (x : Nat × Scores) : Option (Nat × Scores) :=
  match best with
  | none => some x
  | some y => if x.2.total < y.2.total then some x else some y

/-- The winner among the eight mask ids, tried in ascending order from the same saved grid (46_mask_penalty R276). -/
def Engine.bestMask (e : Engine) : Nat × Scores :=
  (((List.range maskCount).map fun m => (m, scoresOf (e.candidate m).mod)).foldl better none).getD (0, scoresOf e.mod)

/-- The engine after MSKSEL (46_mask_penalty R276): the winner committed, MASK and the penalty registers its own. -/
def Engine.commitMask (e : Engine) (best : Nat × Scores) : Engine :=
  { (e.candidate best.1).setScores best.2 with mask := best.1 }

/-- MSKAPP (46_mask_penalty R264). -/
def execMskapp (m : Nat) (s : State) : Result :=
  gate (needSymbol fun s => succeed 0 { s with eng := s.eng.maskApply m }) s

/-- PENALTY (46_mask_penalty R274). -/
def execPenalty (s : State) : Result :=
  gate (needSymbol fun s =>
    succeed (scoresOf s.eng.mod).total { s with eng := s.eng.setScores (scoresOf s.eng.mod) }) s

/-- MSKSEL (46_mask_penalty R276). -/
def execMsksel (s : State) : Result :=
  gate (needSymbol fun s => succeed s.eng.bestMask.1 { s with eng := s.eng.commitMask s.eng.bestMask }) s

end Sys2Proof.Machine
end

