-- ==== Sys2Proof/Machine/ReedSolomon.lean ====
section
/-! DEFINITION. The Reed-Solomon half of the Reed-Solomon and BCH unit (43_rs_bch): block split, EC codewords, interleaving,
and the meanings of RSCFG and RSENC. -/

namespace Sys2Proof.Machine

/-- `off(b)` of `rs_split(n, k)` (43_rs_bch R163). -/
def blockOff (n k b : Nat) : Nat := b * (n / k) + (b - (k - n % k))

/-- `len(b)` of `rs_split(n, k)` (43_rs_bch R163): the last n mod k blocks have one codeword more. -/
def blockLen (n k b : Nat) : Nat := if b < k - n % k then n / k else n / k + 1

/-- `blk_b` (43_rs_bch R163): a consecutive slice of the data. -/
def block (data : List Byte) (n k b : Nat) : List Byte :=
  (data.drop (blockOff n k b)).take (blockLen n k b)

/-- `ec_b` (43_rs_bch R164). -/
def ecBlock (e : Nat) (blk : List Byte) : List Byte :=
  polyrem (blk ++ List.replicate e 0) (genTable e)

/-- Column `i` of the blocks: the codeword of index `i` of each block in block order (43_rs_bch R165). -/
def column (blocks : List (List Byte)) (i : Nat) : List Byte := blocks.map (fun blk => blk.getD i 0)

/-- `rs_stream(data, n, e, k)` (43_rs_bch R165): the data columns 0 to q - 1, the final column of the longer blocks, the
EC columns. -/
def rsStream (data : List Byte) (n e k : Nat) : List Byte :=
  let blocks := (List.range k).map (block data n k)
  let ecs := blocks.map (ecBlock e)
  (List.range (n / k)).flatMap (column blocks)
    ++ column (blocks.drop (k - n % k)) (n / k)
    ++ (List.range e).flatMap (column ecs)

/-- RSCFG (43_rs_bch R161): nblk ≥ 1, ecpb ≤ 30, ndata ≥ nblk, ndata + ecpb nblk ≤ 4096, each failing with E_CFG. -/
def execRscfg (ndata nblk ecpb : Nat) (s : State) : Result :=
  gate (require (decide (1 ≤ nblk)) .cfg <|
    require (decide (ecpb ≤ gmax)) .cfg <|
    require (decide (nblk ≤ ndata)) .cfg <|
    require (decide (ndata + ecpb * nblk ≤ Buf.O.capacity)) .cfg fun s =>
    succeed (ndata + ecpb * nblk) { s with eng := { s.eng with ndata := ndata, nblk := nblk, ecpb := ecpb } }) s

/-- RSENC (43_rs_bch R166): NBLK ≥ 1, else E_CFG. -/
def execRsenc (s : State) : Result :=
  gate (require (decide (1 ≤ s.eng.nblk)) .cfg <|
    readBytes .D 0 s.eng.ndata fun data s =>
    succeed (s.eng.ndata + s.eng.ecpb * s.eng.nblk)
      { s with eng := { s.eng with
          bufO := memFill s.eng.bufO (rsStream data s.eng.ndata s.eng.ecpb s.eng.nblk),
          olen := s.eng.ndata + s.eng.ecpb * s.eng.nblk } }) s

end Sys2Proof.Machine
end

