-- ==== Sys2Proof/Machine/Walk.lean ====
section
/-! DEFINITION. The data placement walker (45_data_walker): the transition table, the search for a free cell, and the
meanings of WKRST, WKBIT, WKRUN. -/

namespace Sys2Proof.Machine

/-- `advance()` on a grid of side `w` (45_data_walker R235): the walker after one transition, or none when the grid is
exhausted. -/
def advance (w : Nat) (k : Walker) : Option Walker :=
  match k.st with
  | .enter => some { k with row := w - 1, col := w - 1, up := true, st := .stepH }
  | .stepH =>
    some { k with
      col := k.col - 1,
      st := if k.up = true then (if k.row = 0 then .revTop else .stepUp)
            else (if k.row = w - 1 then .revBottom else .stepDown) }
  | .stepUp => some { k with row := k.row - 1, col := k.col + 1, st := .stepH }
  | .stepDown => some { k with row := k.row + 1, col := k.col + 1, st := .stepH }
  | .revTop =>
    if k.col = 0 then none
    else some { k with col := (if k.col - 1 = 6 then 5 else k.col - 1), up := false, st := .stepH }
  | .revBottom =>
    if k.col = 0 then none
    else some { k with col := (if k.col - 1 = 6 then 5 else k.col - 1), up := true, st := .stepH }

/-- The loop of `placebit` (45_data_walker R236): transitions until a free cell (true) or exhaustion (false), the walker
after the last of them. At most `fuel` transitions are made; 70_reset R381 bounds their number by W (W - 1) (log 10). -/
def seek (w : Nat) (tag : Grid Tag) (fuel : Nat) (k : Walker) : Walker × Bool :=
  match fuel with
  | 0 => (k, false)
  | n + 1 =>
    match advance w k with
    | none => (k, false)
    | some k' => if isFree tag k'.row k'.col = true then (k', true) else seek w tag n k'

/-- More transitions than a walk can make (70_reset R381). -/
def walkFuel (w : Nat) : Nat := w * w

/-- `placebit(b)` (45_data_walker R236): the engine after it, and whether a free cell was found. -/
def placeBit (b : Bool) (e : Engine) : Engine × Bool :=
  match seek e.width e.tag (walkFuel e.width) e.walk with
  | (k, true) => ({ e with mod := setCell e.mod k.row k.col b, walk := { k with cnt := k.cnt + 1 } }, true)
  | (k, false) => ({ e with walk := k }, false)

/-- `placebit` of each bit in order, ended by the first that finds no free cell (45_data_walker R238). -/
def placeBits (bs : List Bool) (e : Engine) : Engine × Bool :=
  match bs with
  | [] => (e, true)
  | b :: rest =>
    match placeBit b e with
    | (e', true) => placeBits rest e'
    | (e', false) => (e', false)

/-- The bits of a codeword, most significant first (45_data_walker R238, 20_memory R68). -/
def byteBits (b : Byte) : List Bool := (List.range 8).map (fun j => b.getLsbD (7 - j))

/-- The bits of a stream of codewords (45_data_walker R238). -/
def streamBits (bs : List Byte) : List Bool := bs.flatMap byteBits

/-- WKRST (45_data_walker R232). -/
def execWkrst (s : State) : Result :=
  gate (needSymbol fun s => succeed 0 { s with eng := { s.eng with walk := Walker.start s.eng.width } }) s

/-- WKBIT (45_data_walker R237). -/
def execWkbit (b : Bool) (s : State) : Result :=
  gate (needSymbol fun s =>
    match placeBit b s.eng with
    | (e, true) => succeed (256 * e.walk.row + e.walk.col) { s with eng := e }
    | (e, false) => takeOverflow { s with eng := e }) s

/-- WKRUN (45_data_walker R238). -/
def execWkrun (s : State) : Result :=
  gate (needSymbol <| readBytes .O 0 s.eng.olen fun bs s =>
    match placeBits (streamBits bs) s.eng with
    | (e, true) => succeed (8 * s.eng.olen) { s with eng := e }
    | (e, false) => takeOverflow { s with eng := e }) s

end Sys2Proof.Machine
end

