-- ==== Sys2Proof/Machine/Dispatch.lean ====
section
/-! DEFINITION. The dispatch: one arm per command of 30_encoding R84, each one call of its meaning. -/

namespace Sys2Proof.Machine

def exec (i : Instr) (s : State) : Host.Outcome State Fault Refusal :=
  match i with
  | .nop => Sys2Proof.Machine.execNop s
  | .reset => Sys2Proof.Machine.execReset s
  | .rdreg n => Sys2Proof.Machine.execRdreg n s
  | .symnew v lv => Sys2Proof.Machine.execSymnew v lv s
  | .bwr buf idx byte => Sys2Proof.Machine.execBwr buf idx byte s
  | .brd buf idx => Sys2Proof.Machine.execBrd buf idx s
  | .blen buf n => Sys2Proof.Machine.execBlen buf n s
  | .mrd row col => Sys2Proof.Machine.execMrd row col s
  | .gfadd a b => Sys2Proof.Machine.execGfadd a b s
  | .gfmul a b => Sys2Proof.Machine.execGfmul a b s
  | .gfdiv a b => Sys2Proof.Machine.execGfdiv a b s
  | .gfexp n => Sys2Proof.Machine.execGfexp n s
  | .gflog n => Sys2Proof.Machine.execGflog n s
  | .genld n => Sys2Proof.Machine.execGenld n s
  | .pmul => Sys2Proof.Machine.execPmul s
  | .prem => Sys2Proof.Machine.execPrem s
  | .rscfg ndata nblk ecpb => Sys2Proof.Machine.execRscfg ndata nblk ecpb s
  | .rsenc => Sys2Proof.Machine.execRsenc s
  | .fmtword lv m => Sys2Proof.Machine.execFmtword lv m s
  | .verword v => Sys2Proof.Machine.execVerword v s
  | .plfind => Sys2Proof.Machine.execPlfind s
  | .pltime => Sys2Proof.Machine.execPltime s
  | .plalign => Sys2Proof.Machine.execPlalign s
  | .plfmt m => Sys2Proof.Machine.execPlfmt m s
  | .plver => Sys2Proof.Machine.execPlver s
  | .pldark => Sys2Proof.Machine.execPldark s
  | .plall => Sys2Proof.Machine.execPlall s
  | .cntnone => Sys2Proof.Machine.execCntnone s
  | .avail => Sys2Proof.Machine.execAvail s
  | .wkrst => Sys2Proof.Machine.execWkrst s
  | .wkbit b => Sys2Proof.Machine.execWkbit b s
  | .wkrun => Sys2Proof.Machine.execWkrun s
  | .mskapp m => Sys2Proof.Machine.execMskapp m s
  | .penalty => Sys2Proof.Machine.execPenalty s
  | .msksel => Sys2Proof.Machine.execMsksel s

end Sys2Proof.Machine
end

