-- ==== Sys2Proof/Machine/Step.lean ====
section
/-! DEFINITION. One step of the machine (00_scope R12): the engine takes the oldest input of the host and executes it to
completion. -/

namespace Sys2Proof.Machine

/-- One step: the oldest input is taken; a command word is decoded and executed, an illegal word is answered E_ILLEGAL
(60_exceptions R327), a hardware reset resets the engine (70_reset R362); with no input the engine does nothing
(60_exceptions R345). -/
def step (s : State) : Result :=
  match takeInput s with
  | none => idle s
  | some (.hardReset, t) => hardReset t
  | some (.command w, t) =>
    match decode w with
    | .instr i => exec i t
    | .illegal _ => answerIllegal t

/-- The machine with the table's word `w` of `nbits` bits presented as the very next command (log 4). -/
def State.withFetchWord (s : State) (nbits w : Nat) : State := presentWord (tableWord nbits w) s

end Sys2Proof.Machine
end

