-- ==== Sys2Proof/Safety.lean ====
section
/-! DEFINITION. What counts as a legal state of QRGE, and the words the statements use: the invariant of the engine
(10_state R25, R36, R52; 20_memory R66; 45_data_walker R231), the state after a response, and the walker's search as a
relation. -/

namespace Sys2Proof.Machine

/-- The machine after a command that leaves the engine in `e` and answers (err, val). -/
def State.answer (s : State) (err : Err) (val : Nat) (e : Engine) : State :=
  { s with eng := e, resp := some { err := err, val := zext32 val } }

/-- The typed errors are the codes 1 to 7 (60_exceptions R320). -/
def Err.typed (x : Err) : Bool :=
  match x with
  | .ok => false
  | .overflow => false
  | .illegal => true
  | .range => true
  | .noSym => true
  | .divZero => true
  | .len => true
  | .cfg => true
  | .faulted => true

/-- Nothing of the engine but MOD and TAG differs between `e` and `e'`. -/
def SameButGrid (e e' : Engine) : Prop := { e with mod := e'.mod, tag := e'.tag } = e'

/-- Nothing of the engine but MOD and the walker registers differs between `e` and `e'`. -/
def SameButWalk (e e' : Engine) : Prop := { e with mod := e'.mod, walk := e'.walk } = e'

/-- The value `vs[i]` at every index below the length of `vs`, the old byte above. -/
def StoredFrom0 (m : Memory) (vs : List Byte) (m' : Memory) : Prop :=
  ∀ j, memRead m' j = if j < vs.length then vs[j]? else memRead m j

/-- The bytes `vs` are what a read of `b[lo..lo+n-1]` gives, all of them written. -/
def Holds (e : Engine) (b : Buf) (lo : Nat) (vs : List Byte) : Prop :=
  ∀ i, i < vs.length → memRead (e.buf b) (lo + i) = vs[i]?

/-- A state that serves commands and holds a Symbol (60_exceptions R326, R327 step 3). -/
def State.Ready (s : State) : Prop := s.eng.fault = false ∧ s.eng.version ≠ 0

/-- The byte `v` at index `i`, every other byte as before. -/
def StoredAt (m : Memory) (i : Nat) (v : Byte) (m' : Memory) : Prop :=
  ∀ j, memRead m' j = if j = i then some v else memRead m j

/-- `bs` are `n` bytes a read of `b[lo..lo+n-1]` may give: each written byte as it stands (20_memory R66). -/
def Reads (e : Engine) (b : Buf) (lo n : Nat) (bs : List Byte) : Prop :=
  bs.length = n ∧ ∀ i v, i < n → memRead (e.buf b) (lo + i) = some v → bs[i]? = some v

/-- Module and tag of the cell are the given ones. -/
def Engine.cellIs (e : Engine) (r c : Nat) (dark : Bool) (t : Tag) : Prop :=
  cellAt e.mod r c = some dark ∧ cellAt e.tag r c = some t

/-- Module and tag of the cell are the same in both. -/
def SameCell (e e' : Engine) (r c : Nat) : Prop :=
  cellAt e'.mod r c = cellAt e.mod r c ∧ cellAt e'.tag r c = cellAt e.tag r c

/-- MOD and TAG are grids of the Symbol's side (10_state R36 a). -/
def Engine.GridsOk (e : Engine) : Prop := Square e.width e.mod ∧ Square e.width e.tag

/-! ## The field and its polynomials, said without the tables -/

/-- The product of two elements by shift and add: for each bit of `b`, low to high, the multiplicand doubled that many
times modulo 0x11D (41_gf_scalar R120, R122). -/
def shiftAdd (x : Nat) (n b : Nat) : Nat :=
  match n with
  | 0 => 0
  | n + 1 => (if b % 2 = 1 then x else 0) ^^^ shiftAdd (doubling x) n (b / 2)

/-- The value of a polynomial at `x` by Horner's rule (42_polynomial R146). -/
def evalAt (p : List Byte) (x : Byte) : Byte := p.foldl (fun acc c => gfadd (gfmul acc x) c) 0

/-- Entrywise xor of two sequences of one length. -/
def xorLists (xs ys : List Byte) : List Byte := List.zipWith (fun x y => x ^^^ y) xs ys

/-- The coefficient of index `t` of a product: the xor of `p[i] q[j]` over i + j = t (42_polynomial R144). -/
def productCoeff (p q : List Byte) (t : Nat) : Byte :=
  (List.range p.length).foldl
    (fun acc i => if i ≤ t ∧ t - i < q.length then acc ^^^ gfmul (p.getD i 0) (q.getD (t - i) 0) else acc) 0

/-- Polynomial division over GF(2): `n` times, the leading bit is dropped and, when it is 1, the rest of the divisor is
xored onto the front of what remains (42_polynomial R150). -/
def bitEliminate (d : List Bool) (n : Nat) (w : List Bool) : List Bool :=
  match n, w with
  | 0, w => w
  | _ + 1, [] => []
  | n + 1, x :: w =>
    bitEliminate d n
      (if x = true then List.zipWith xor w (d.tail ++ List.replicate (w.length - d.tail.length) false) else w)

/-- A bit as a coefficient. -/
def bitByte (b : Bool) : Byte := if b = true then 1 else 0

/-- Carry-less product of two binary polynomials coded as numbers, over the low `n` bits of `q`. -/
def clmul (q n g : Nat) : Nat :=
  match n with
  | 0 => 0
  | n + 1 => (if q % 2 = 1 then g else 0) ^^^ clmul (q / 2) n (2 * g)

/-! ## The order of the walk, said without the state machine (45_data_walker R233, R239) -/

/-- The right column of pair `k`. -/
def pairColumn (w k : Nat) : Nat := if 6 < w - 1 - 2 * k then w - 1 - 2 * k else w - 2 - 2 * k

/-- Every cell outside column 6 in the order of R239, whatever its tag. -/
def cellOrder (w : Nat) : List (Nat × Nat) :=
  (List.range ((w - 1) / 2)).flatMap fun k =>
    (List.range w).flatMap fun t =>
      [((if k % 2 = 0 then w - 1 - t else t), pairColumn w k),
       ((if k % 2 = 0 then w - 1 - t else t), pairColumn w k - 1)]

/-- `walkorder` (R239): the free cells in that order. -/
def walkOrder (w : Nat) (tag : Grid Tag) : List (Nat × Nat) :=
  (cellOrder w).filter fun p => isFree tag p.1 p.2

/-- `n` transitions in a row. -/
def transitions (w n : Nat) (k : Walker) : Option Walker :=
  match n with
  | 0 => some k
  | n + 1 => (advance w k).bind (transitions w n)

/-- The commands WKBIT of the bits, one after the other, stopped at the first that faults: the state after the last one
issued, and whether none faulted (45_data_walker R238). -/
def bitByBit (bs : List Bool) (s : State) : Option (State × Bool) :=
  match bs with
  | [] => some (s, true)
  | b :: rest =>
    match exec (.wkbit b) s with
    | .next t => if t.eng.fault = true then some (t, false) else bitByBit rest t
    | .fault _ => none
    | .refused _ => none

/-! ## Penalties by index (46_mask_penalty R268 to R272) -/

/-- The entry of a matrix; light outside, which no rule reads. -/
def entry (g : Grid Bool) (r c : Nat) : Bool := (cellAt g r c).getD false

/-- A matrix of `h` rows and `k` columns. -/
def IsMatrix (h k : Nat) (g : Grid Bool) : Prop := g.length = h ∧ ∀ row ∈ g, row.length = k

/-- The `h` rows, left to right, then the `k` columns, top to bottom (R268). -/
def linesByIndex (h k : Nat) (g : Grid Bool) : List (List Bool) :=
  ((List.range h).map fun r => (List.range k).map fun c => entry g r c)
    ++ (List.range k).map fun c => (List.range h).map fun r => entry g r c

/-- The lengths of the maximal runs of a line (R269). -/
def runLengths (line : List Bool) : List Nat := (line.splitBy (fun a b => a == b)).map List.length

/-- How many positions below `n` satisfy `p`. -/
def countBelow (n : Nat) (p : Nat → Bool) : Nat := (List.range n).countP p

/-! ## The walker's search as a relation (45_data_walker R236) -/

/-- From `k`, transitions over cells that are not free end on the free cell of `k'`. -/
inductive Lands (w : Nat) (tag : Grid Tag) : Walker → Walker → Prop where
  | here {k k' : Walker} (h : advance w k = some k') (free : isFree tag k'.row k'.col = true) : Lands w tag k k'
  | past {k k1 k' : Walker} (h : advance w k = some k1) (taken : isFree tag k1.row k1.col = false)
      (more : Lands w tag k1 k') : Lands w tag k k'

/-- From `k`, transitions over cells that are not free end in `k'`, where the grid is exhausted. -/
inductive Exhausts (w : Nat) (tag : Grid Tag) : Walker → Walker → Prop where
  | here {k : Walker} (h : advance w k = none) : Exhausts w tag k k
  | past {k k1 k' : Walker} (h : advance w k = some k1) (taken : isFree tag k1.row k1.col = false)
      (more : Exhausts w tag k1 k') : Exhausts w tag k k'

/-! ## The tables the spec prints -/

/-- The mnemonic of a command (30_encoding R84). -/
def mnemonicOf (i : Instr) : String :=
  match i with
  | .nop => "NOP"
  | .reset => "RESET"
  | .rdreg _ => "RDREG"
  | .symnew _ _ => "SYMNEW"
  | .bwr _ _ _ => "BWR"
  | .brd _ _ => "BRD"
  | .blen _ _ => "BLEN"
  | .mrd _ _ => "MRD"
  | .gfadd _ _ => "GFADD"
  | .gfmul _ _ => "GFMUL"
  | .gfdiv _ _ => "GFDIV"
  | .gfexp _ => "GFEXP"
  | .gflog _ => "GFLOG"
  | .genld _ => "GENLD"
  | .pmul => "PMUL"
  | .prem => "PREM"
  | .rscfg _ _ _ => "RSCFG"
  | .rsenc => "RSENC"
  | .fmtword _ _ => "FMTWORD"
  | .verword _ => "VERWORD"
  | .plfind => "PLFIND"
  | .pltime => "PLTIME"
  | .plalign => "PLALIGN"
  | .plfmt _ => "PLFMT"
  | .plver => "PLVER"
  | .pldark => "PLDARK"
  | .plall => "PLALL"
  | .cntnone => "CNTNONE"
  | .avail => "AVAIL"
  | .wkrst => "WKRST"
  | .wkbit _ => "WKBIT"
  | .wkrun => "WKRUN"
  | .mskapp _ => "MSKAPP"
  | .penalty => "PENALTY"
  | .msksel => "MSKSEL"

/-- The rows of 30_encoding R84: mnemonic, match, mask. -/
def opcodeTable : List (String × Word × Word) :=
  [("NOP", 0x00000000, 0xFFFFFFFF), ("RESET", 0x01000000, 0xFFFFFFFF),
   ("RDREG", 0x02000000, 0xFFFFFF00), ("SYMNEW", 0x03000000, 0xFFFF00FC),
   ("BWR", 0x04000000, 0xFF000000), ("BRD", 0x05000000, 0xFF0000FF),
   ("BLEN", 0x06000000, 0xFF0000FF), ("MRD", 0x07000000, 0xFFFF0000),
   ("GFADD", 0x10000000, 0xFFFF0000), ("GFMUL", 0x11000000, 0xFFFF0000),
   ("GFDIV", 0x12000000, 0xFFFF0000), ("GFEXP", 0x13000000, 0xFFFFFF00)] ++
  [("GFLOG", 0x14000000, 0xFFFFFF00), ("GENLD", 0x20000000, 0xFFFFFF00),
   ("PMUL", 0x21000000, 0xFFFFFFFF), ("PREM", 0x22000000, 0xFFFFFFFF),
   ("RSCFG", 0x30000000, 0xFF000000), ("RSENC", 0x31000000, 0xFFFFFFFF),
   ("FMTWORD", 0x32000000, 0xFFFFFCF8), ("VERWORD", 0x33000000, 0xFFFFFFC0),
   ("PLFIND", 0x40000000, 0xFFFFFFFF), ("PLTIME", 0x41000000, 0xFFFFFFFF),
   ("PLALIGN", 0x42000000, 0xFFFFFFFF), ("PLFMT", 0x43000000, 0xFFFFFFF8)] ++
  [("PLVER", 0x44000000, 0xFFFFFFFF), ("PLDARK", 0x45000000, 0xFFFFFFFF),
   ("PLALL", 0x46000000, 0xFFFFFFFF), ("CNTNONE", 0x47000000, 0xFFFFFFFF),
   ("AVAIL", 0x48000000, 0xFFFFFFFF), ("WKRST", 0x50000000, 0xFFFFFFFF),
   ("WKBIT", 0x51000000, 0xFFFFFFFE), ("WKRUN", 0x52000000, 0xFFFFFFFF),
   ("MSKAPP", 0x60000000, 0xFFFFFFF8), ("PENALTY", 0x61000000, 0xFFFFFFFF),
   ("MSKSEL", 0x62000000, 0xFFFFFFFF)]

/-- The format words for L, M, Q, H and m = 0 to 7 (43_rs_bch R170). -/
def formatWords : List (List Nat) :=
  [[0x77C4, 0x72F3, 0x7DAA, 0x789D, 0x662F, 0x6318, 0x6C41, 0x6976],
   [0x5412, 0x5125, 0x5E7C, 0x5B4B, 0x45F9, 0x40CE, 0x4F97, 0x4AA0],
   [0x355F, 0x3068, 0x3F31, 0x3A06, 0x24B4, 0x2183, 0x2EDA, 0x2BED],
   [0x1689, 0x13BE, 0x1CE7, 0x19D0, 0x0762, 0x0255, 0x0D0C, 0x083B]]

/-- The version words for v = 7 to 40 (43_rs_bch R173). -/
def versionWords : List Nat :=
  [0x07C94, 0x085BC, 0x09A99, 0x0A4D3, 0x0BBF6, 0x0C762, 0x0D847, 0x0E60D, 0x0F928] ++
  [0x10B78, 0x1145D, 0x12A17, 0x13532, 0x149A6, 0x15683, 0x168C9, 0x177EC, 0x18EC4] ++
  [0x191E1, 0x1AFAB, 0x1B08E, 0x1CC1A, 0x1D33F, 0x1ED75, 0x1F250, 0x209D5, 0x216F0] ++
  [0x228BA, 0x2379F, 0x24B0B, 0x2542E, 0x26A64, 0x27541, 0x28C69]

/-- The values of avail(v) for v = 1 to 40 (44_pattern_placer R214). -/
def availValues : List Nat :=
  [208, 359, 567, 807, 1079, 1383, 1568, 1936, 2336, 2768] ++
  [3232, 3728, 4256, 4651, 5243, 5867, 6523, 7211, 7931, 8683] ++
  [9252, 10068, 10916, 11796, 12708, 13652, 14628, 15371, 16411, 17483] ++
  [18587, 19723, 20891, 22091, 23008, 24272, 25568, 26896, 28256, 29648]

/-- The rows of the table `document` for v = 1 to 40 (44_pattern_placer R199). -/
def documentRows : List (List Nat) :=
  [[], [6, 18], [6, 22], [6, 26], [6, 30], [6, 34], [6, 22, 38], [6, 24, 42]] ++
  [[6, 26, 46], [6, 28, 50], [6, 30, 54], [6, 32, 58], [6, 34, 62], [6, 26, 46, 66], [6, 26, 48, 70], [6, 26, 50, 74]] ++
  [[6, 30, 54, 78], [6, 30, 56, 82], [6, 30, 58, 86], [6, 34, 62, 90], [6, 28, 50, 72, 94], [6, 26, 50, 74, 98], [6, 30, 54, 78, 102], [6, 28, 54, 80, 106]] ++
  [[6, 32, 58, 84, 110], [6, 30, 58, 86, 114], [6, 34, 62, 90, 118], [6, 26, 50, 74, 98, 122], [6, 30, 54, 78, 102, 126], [6, 26, 52, 78, 104, 130], [6, 30, 56, 82, 108, 134], [6, 34, 60, 86, 112, 138]] ++
  [[6, 30, 58, 86, 114, 142], [6, 34, 62, 90, 118, 146], [6, 30, 54, 78, 102, 126, 150], [6, 34, 58, 82, 106, 130, 154], [6, 28, 54, 80, 106, 132, 158], [6, 32, 58, 84, 110, 136, 162], [6, 36, 62, 88, 114, 140, 166], [6, 30, 58, 86, 114, 142, 170]]

/-- The row of version `v` under `P_ALIGN` (44_pattern_placer R199): `standard` differs in two rows. -/
def coordinateRow (p : AlignTable) (v : Nat) : List Nat :=
  match p with
  | .document => documentRows.getD (v - 1) []
  | .standard =>
    if v = 36 then [6, 24, 50, 76, 102, 128, 154]
    else if v = 39 then [6, 26, 54, 82, 110, 138, 166]
    else documentRows.getD (v - 1) []

/-- The cells of bits 0 to 14 in the first format copy (44_pattern_placer R202). -/
def formatCells1 : List (Nat × Nat) :=
  [(0, 8), (1, 8), (2, 8), (3, 8), (4, 8), (5, 8), (7, 8), (8, 8), (8, 7), (8, 5), (8, 4), (8, 3), (8, 2), (8, 1), (8, 0)]

/-- The cells of bits 0 to 14 in the second format copy (44_pattern_placer R202). -/
def formatCells2 (w : Nat) : List (Nat × Nat) :=
  [(8, w - 1), (8, w - 2), (8, w - 3), (8, w - 4), (8, w - 5), (8, w - 6), (8, w - 7), (8, w - 8),
   (w - 7, 8), (w - 6, 8), (w - 5, 8), (w - 4, 8), (w - 3, 8), (w - 2, 8), (w - 1, 8)]

/-- The formula of mask `m` (46_mask_penalty R262), y = row, x = column. -/
def maskFormula (m y x : Nat) : Bool :=
  ([decide ((x + y) % 2 = 0),
    decide (y % 2 = 0),
    decide (x % 3 = 0),
    decide ((x + y) % 3 = 0),
    decide (((y / 2) + (x / 3)) % 2 = 0),
    decide (((x * y) % 2) + ((x * y) % 3) = 0),
    decide ((((x * y) % 2) + ((x * y) % 3)) % 2 = 0),
    decide ((((x + y) % 2) + ((x * y) % 3)) % 2 = 0)] : List Bool).getD m false

/-- The area a cell lies in, by its centre (44_pattern_placer R192). -/
def finderCentre (w r c : Nat) : Option (Nat × Nat) :=
  if r < 8 ∧ c < 8 then some (3, 3)
  else if r < 8 ∧ w - 8 ≤ c then some (3, w - 4)
  else if w - 8 ≤ r ∧ c < 8 then some (w - 4, 3)
  else none

/-- The cell lies on a timing pattern (44_pattern_placer R194). -/
def OnTiming (w r c : Nat) : Prop := (r = 6 ∧ 8 ≤ c ∧ c + 9 ≤ w) ∨ (c = 6 ∧ 8 ≤ r ∧ r + 9 ≤ w)

/-- (r, c) is a centre of version `v` (44_pattern_placer R200). -/
def IsCentre (p : AlignTable) (v r c : Nat) : Prop :=
  r ∈ coordinateRow p v ∧ c ∈ coordinateRow p v ∧
    (r, c) ≠ (6, 6) ∧ (r, c) ≠ (6, 10 + 4 * v) ∧ (r, c) ≠ (10 + 4 * v, 6)

/-- The commands that need a Symbol (60_exceptions R321, row E_NOSYM). -/
def symbolCommands : List String :=
  ["MRD", "PLFIND", "PLTIME", "PLALIGN", "PLFMT", "PLVER", "PLDARK", "PLALL", "CNTNONE", "AVAIL", "WKRST", "WKBIT",
   "WKRUN", "MSKAPP", "PENALTY", "MSKSEL"]

/-- The rows of the matrix of 60_exceptions R322: the codes besides OK a command can return. -/
def errorRow (i : Instr) : List Err :=
  match i with
  | .nop | .reset => []
  | .rdreg _ => [.range]
  | .symnew _ _ | .bwr _ _ _ | .brd _ _ | .blen _ _ | .genld _ => [.range, .faulted]
  | .mrd _ _ => [.range, .noSym, .faulted]
  | .gfadd _ _ | .gfmul _ _ | .gfexp _ | .fmtword _ _ | .verword _ => [.faulted]
  | .gfdiv _ _ | .gflog _ => [.divZero, .faulted]
  | .pmul => [.len, .faulted]
  | .prem => [.divZero, .len, .faulted]
  | .rscfg _ _ _ | .rsenc => [.cfg, .faulted]
  | .plfind | .pltime | .plalign | .plfmt _ | .plver | .pldark | .plall | .cntnone | .avail => [.noSym, .faulted]
  | .wkrst | .mskapp _ | .penalty | .msksel => [.noSym, .faulted]
  | .wkbit _ | .wkrun => [.noSym, .faulted, .overflow]

/-- The three commands that reproduce one candidate of MSKSEL (46_mask_penalty R264, R275) lead from `s` to `t`. -/
def Candidate (m : Nat) (s t : State) : Prop :=
  ∃ s1 s2, exec (.mskapp m) s = .next s1 ∧ exec (.plfmt m) s1 = .next s2 ∧ exec .penalty s2 = .next t

/-- The registers of 40_config R103, spelled out. -/
def registerList (e : Engine) : List Nat :=
  [0x51524745, e.fault.toNat + (if e.version ≠ 0 then 2 else 0) + 256 * e.fcode.toNat, e.version,
   (match e.ecl with | .L => 0 | .M => 1 | .Q => 2 | .H => 3), e.mask, (if e.version = 0 then 0 else 17 + 4 * e.version),
   e.ndata, e.ecpb, e.nblk, e.olen, e.lena, e.lenb, e.lenr, e.walk.row, e.walk.col,
   (match e.walk.st with | .enter => 0 | .stepH => 1 | .stepUp => 2 | .revTop => 3 | .stepDown => 4 | .revBottom => 5)
     + 256 * e.walk.up.toNat,
   e.walk.cnt, e.pen1, e.pen2, e.pen3, e.pen4, e.pent]

/-- The buffers by code with the number of elements BRD may read (40_config R106, 30_encoding R86). -/
def readLimits (e : Engine) : List (Nat × Buf × Nat) :=
  [(0, .D, 4096), (1, .O, e.olen), (2, .A, 256), (3, .B, 256), (4, .R, e.lenr)]

/-! ## The invariant -/

/-- A column is the right one of its pair (45_data_walker R233). -/
def rightColumn (c : Nat) : Bool := if 6 < c then decide (c % 2 = 0) else decide (c % 2 = 1)

/-- The right column of the pair of column `c` (45_data_walker R233). -/
def pairRight (c : Nat) : Nat := if rightColumn c = true then c else c + 1

/-- The number of the pair of column `c` on a grid of side `w`, counted from the right (45_data_walker R233). -/
def pairNumber (w c : Nat) : Nat :=
  if 6 < pairRight c then (w - 1 - pairRight c) / 2 else (w - 2 - pairRight c) / 2

/-- How many transitions the walker has made since its last reset: two for each row of each earlier pair, two for each
earlier row of its pair, one or two in its row (45_data_walker R233, R235). -/
def walked (w : Nat) (k : Walker) : Nat :=
  match k.st with
  | .enter => 0
  | _ =>
    2 * w * pairNumber w k.col + 2 * (if k.up = true then w - 1 - k.row else k.row)
      + (if rightColumn k.col = true then 1 else 2)

/-- The walker registers are where a walk can bring them (45_data_walker R231), and no more bits are counted than
transitions made. DESIGN CHOICE (log 21): the bound on WCNT is this one, which follows R236 to R238 and reaches 31152 on a
version 40 Symbol without its patterns, and not the 29648 of 10_state R52. -/
structure Walker.Inv (w : Nat) (k : Walker) : Prop where
  row_lt    : k.row < w
  col_lt    : k.col < w
  start     : k.st = .enter → k = Walker.start w
  not_six   : k.st ≠ .enter → k.col ≠ 6
  climbing  : k.st ≠ .enter → (k.up = decide (pairNumber w k.col % 2 = 0))
  atRight   : k.st = .stepH → rightColumn k.col = true
  atLeft    : k.st ≠ .enter → k.st ≠ .stepH → rightColumn k.col = false
  goesUp    : k.st = .stepUp → k.up = true ∧ 0 < k.row
  turnsTop  : k.st = .revTop → k.up = true ∧ k.row = 0
  goesDown  : k.st = .stepDown → k.up = false ∧ k.row < w - 1
  turnsDown : k.st = .revBottom → k.up = false ∧ k.row = w - 1
  counted   : k.cnt ≤ walked w k

/-- A buffer is in canonical form and within its capacity (20_memory R60, R66). -/
def Engine.BufferOk (e : Engine) (b : Buf) : Prop := (e.buf b).wf ∧ (e.buf b).within b.capacity

/-- The invariant of the engine: what holds at reset and every step keeps. -/
structure Engine.Inv (e : Engine) : Prop where
  /-- VERSION is 0 or 1..40 (10_state R30). -/
  version_le : e.version ≤ vmax
  /-- MASK is 0..7 (10_state R32). -/
  mask_lt    : e.mask < 8
  /-- The module grid has the dimensions of VERSION (10_state R36 a). -/
  mod_square : Square e.width e.mod
  /-- The tag grid has the same (10_state R36 a). -/
  tag_square : Square e.width e.tag
  /-- FCODE is 8 when FAULT is 1, else 0 (10_state R25). -/
  fcode_eq   : e.fcode = if e.fault = true then 8 else 0
  /-- Only WKBIT and WKRUN raise the fault, and they need a Symbol (60_exceptions R325). -/
  fault_sym  : e.fault = true → e.version ≠ 0
  /-- The buffers are in canonical form, within their capacities. -/
  buffers    : ∀ b, e.BufferOk b
  /-- Every byte of O below OLEN is written (20_memory R66). -/
  o_written  : ∀ i, i < e.olen → memRead e.bufO i ≠ none
  /-- Every byte of R below LENR is written (20_memory R66). -/
  r_written  : ∀ i, i < e.lenr → memRead e.bufR i ≠ none
  /-- The lengths are within the capacities (10_state R38, R39). -/
  olen_le    : e.olen ≤ 4096
  lena_le    : e.lena ≤ 256
  lenb_le    : e.lenb ≤ 256
  lenr_le    : e.lenr ≤ 256
  /-- The Reed-Solomon configuration is one RSCFG accepts, or none (10_state R37, 43_rs_bch R161). -/
  ndata_le   : e.ndata ≤ 4095
  nblk_le    : e.nblk ≤ 127
  ecpb_le    : e.ecpb ≤ gmax
  blocks     : e.nblk ≤ e.ndata
  stream_le  : e.ndata + e.ecpb * e.nblk ≤ 4096
  /-- Without a Symbol the walker registers are as reset left them (10_state R42). -/
  walk_idle  : e.version = 0 → e.walk = Engine.reset.walk
  /-- With a Symbol they are where a walk can bring them (45_data_walker R231). -/
  walk_inv   : e.version ≠ 0 → Walker.Inv e.width e.walk
  /-- The bounds of the penalty registers (10_state R52). -/
  pen1_le    : e.pen1 ≤ 61950
  pen2_le    : e.pen2 ≤ 92928
  pen3_le    : e.pen3 ≤ 2364720
  pen4_le    : e.pen4 ≤ 20
  /-- PENT is the sum of the four (10_state R43). -/
  pent_eq    : e.pent = e.pen1 + e.pen2 + e.pen3 + e.pen4

/-- The invariant of the machine. -/
def State.Inv (s : State) : Prop := s.eng.Inv

end Sys2Proof.Machine
end

