-- ==== Sys2Proof/Certificates/Slice0/Obligations.lean ====
section
/-! DEFINITION. The statements about QRGE, each from the numbered rules of spec/ its docstring names. A result is stated as
a whole next state (`s.answer err val e` is `s` with the engine `e` and the response), so each such statement is its own
frame: what the engine `e` does not replace is unchanged. The fault gate common to all commands is `FaultGate`; the other
statements assume `s.eng.fault = false`. -/

open Sys2Proof Sys2Proof.Machine

/-! ## Reset, decoding, stepping -/

/-- 10_state R50, 70_reset R360, R361, R362: the values after reset as the host can read them. MOD and TAG are
unspecified and unobservable: MRD of any cell answers E_NOSYM. A hardware reset leaves the same engine in any state; that it
is an input taken between two commands, the inputs behind it kept (`t.input = rest`), is log 6, and that the inputs are a
list is log 4. The configuration is the table of 00_scope R11, in every state but for the OPEN parameters, which are at
their defaults (that the reset machine takes the defaults is log 2). What the other fields of the model's own hold at reset
(no inputs, no response, no draws: logs 3 to 5) is not stated. -/
def Obligations.ResetLeavesTheSpecValues : Prop :=
  (∀ n, n < 22 → exec (.rdreg n) State.reset =
      .next (State.reset.answer .ok (if n = 0 then 0x51524745 else if n = 15 then 256 else 0) State.reset.eng)) ∧
  (State.reset.eng.fault = false ∧ State.reset.eng.fcode = 0) ∧
  (∀ b i, memRead (State.reset.eng.buf b) i = none) ∧
  (∀ r c, exec (.mrd r c) State.reset = .next (State.reset.answer .noSym 0 State.reset.eng)) ∧
  (∀ s rest, s.input = .hardReset :: rest → ∃ t, step s = .next t ∧ t.eng = State.reset.eng ∧ t.input = rest) ∧
  (State.reset.config.align = .document ∧ State.reset.config.unwritten = .refuse) ∧
  (∀ s : State, s.config.toFixedParams =
    { vmax := 40, sideBase := 17, sideStep := 4, gmax := 30, reduction := 0x1D, masks := 8, tags := 7,
      commandBits := 32, errBits := 8, valBits := 32, dcap := 4096, ocap := 4096, pcap := 256, idWord := 0x51524745 })

/-- 00_scope R12, 30_encoding R85, 60_exceptions R345: a step takes the oldest input. A word that decodes to `i` runs
`exec i` on the state without that word; with no input nothing changes (log 4). -/
def Obligations.StepRunsTheDecodedCommand : Prop :=
  (∀ s w rest i, s.input = .command w :: rest → decode w = .instr i → step s = exec i { s with input := rest }) ∧
  (∀ s w i, decode w = .instr i → step (presentWord w s) = exec i s) ∧
  (∀ s, s.input = [] → step s = .next s)

/-- 30_encoding R89 and the words printed in the rules of the commands: a few words and the commands they stand for. -/
def Obligations.SpecWordsDecode : Prop :=
  decode 0x04000041 = .instr (.bwr 0 0 0x41) ∧
  decode 0x03000201 = .instr (.symnew 2 .M) ∧
  decode 0x3001C030 = .instr (.rscfg 28 1 16) ∧
  decode 0x3003E092 = .instr (.rscfg 62 4 18) ∧
  decode 0x05101C00 = .instr (.brd 1 28) ∧
  decode 0x06200500 = .instr (.blen 2 5) ∧
  decode 0x100053CA = .instr (.gfadd 0x53 0xCA) ∧
  decode 0x12001D02 = .instr (.gfdiv 29 2) ∧
  decode 0x20000002 = .instr (.genld 2) ∧
  decode 0x32000105 = .instr (.fmtword .M 5) ∧
  decode 0x33000007 = .instr (.verword 7) ∧
  decode 0x43000005 = .instr (.plfmt 5) ∧
  decode 0x51000001 = .instr (.wkbit true) ∧
  decode 0x60000000 = .instr (.mskapp 0) ∧
  decode 0x62000000 = .instr .msksel

/-- 30_encoding R84: a word is the command of a row exactly when `word and mask = match`; no word matches two rows. -/
def Obligations.OpcodeTableDecides : Prop :=
  (∀ w name m k, (name, m, k) ∈ opcodeTable →
    (w &&& k = m ↔ ∃ i, decode w = .instr i ∧ mnemonicOf i = name)) ∧
  (∀ w i, decode w = .instr i → ∃ m k, (mnemonicOf i, m, k) ∈ opcodeTable ∧ w &&& k = m) ∧
  (∀ w a b, a ∈ opcodeTable → b ∈ opcodeTable → w &&& a.2.2 = a.2.1 → w &&& b.2.2 = b.2.1 → a = b)

/-- 30_encoding R87, 60_exceptions R327 (step 1): a word that matches no row answers (E_ILLEGAL, 0) and changes nothing,
in every state, a faulted one too. -/
def Obligations.IllegalWordsAnswerIllegal : Prop :=
  ∀ s w, (∀ a ∈ opcodeTable, w &&& a.2.2 ≠ a.2.1) →
    step (presentWord w s) = .next (s.answer .illegal 0 s.eng)

/-- 30_encoding R81, R84, R85: the word of a well-formed command decodes to it, every operand at every value its field
admits. -/
def Obligations.DecodeOfEncode : Prop :=
  ∀ i, WellFormed i = true → decode (encode i) = .instr i

/-- 30_encoding R80 to R85: a word that decodes is the word of the command it decodes to, and the command is well formed:
no bit of a word is ignored. -/
def Obligations.EncodeOfDecode : Prop :=
  ∀ w i, decode w = .instr i → encode i = w ∧ WellFormed i = true

/-! ## Interface commands -/

/-- 40_config R101, R102: NOP does nothing, RESET puts every piece of the engine's state at its reset value, both in every
state, a faulted one too. -/
def Obligations.NopAndReset : Prop :=
  decode 0x00000000 = .instr .nop ∧ decode 0x01000000 = .instr .reset ∧
  ∀ s, exec .nop s = .next (s.answer .ok 0 s.eng) ∧ exec .reset s = .next (s.answer .ok 0 Engine.reset)

/-- 40_config R103: RDREG answers the register of its number, a number above 21 is E_RANGE, in every state, a faulted one
too; nothing changes. -/
def Obligations.RdregReadsTheRegister : Prop :=
  (∀ n, n < 256 → decode (BitVec.ofNat 32 (0x02000000 + n)) = .instr (.rdreg n)) ∧
  ∀ s n, (∀ v, (registerList s.eng)[n]? = some v → exec (.rdreg n) s = .next (s.answer .ok v s.eng)) ∧
    (21 < n → exec (.rdreg n) s = .next (s.answer .range 0 s.eng))

/-- 10_state R25: the fields of STATUS as RDREG 1 answers them, and FCODE's law. -/
def Obligations.StatusFields : Prop :=
  ∀ s, ∃ v : Word, exec (.rdreg 1) s = .next { s with resp := some { err := .ok, val := v } } ∧
    v.getLsbD 0 = s.eng.fault ∧ v.getLsbD 1 = decide (s.eng.version ≠ 0) ∧
    (∀ j, j < 8 → v.getLsbD (8 + j) = s.eng.fcode.getLsbD j) ∧
    (∀ j, 2 ≤ j → j < 32 → ¬ (8 ≤ j ∧ j < 16) → v.getLsbD j = false) ∧
    (s.Inv → s.eng.fcode = if s.eng.fault = true then 8 else 0)

/-- 10_state R51, 40_config R104: SYMNEW starts a blank Symbol and leaves the buffers, the lengths and the Reed-Solomon
configuration; a version outside 1..40 is E_RANGE. -/
def Obligations.SymnewStartsASymbol : Prop :=
  (∀ v lv, v < 256 → decode (BitVec.ofNat 32 (0x03000000 + v * 256 + lv.ordinal)) = .instr (.symnew v lv)) ∧
  (∀ (s : State) v lv, s.eng.fault = false → 1 ≤ v → v ≤ 40 →
    ∃ md tg, Square (17 + 4 * v) md ∧ Square (17 + 4 * v) tg ∧
      (∀ r c, r < 17 + 4 * v → c < 17 + 4 * v → cellAt md r c = some false ∧ cellAt tg r c = some .free) ∧
      exec (.symnew v lv) s = .next (s.answer .ok (17 + 4 * v) { s.eng with
        version := v, ecl := lv, mask := 0, mod := md, tag := tg,
        walk := { row := 16 + 4 * v, col := 16 + 4 * v, st := .enter, up := true, cnt := 0 },
        pen1 := 0, pen2 := 0, pen3 := 0, pen4 := 0, pent := 0 })) ∧
  (∀ (s : State) v lv, s.eng.fault = false → v = 0 ∨ 40 < v → exec (.symnew v lv) s = .next (s.answer .range 0 s.eng))

/-- 40_config R105: BWR writes one byte of D, A or B and no other byte of memory; other buffers and indices beyond the
buffer are E_RANGE. -/
def Obligations.BwrWritesOneByte : Prop :=
  (∀ buf idx byte, buf < 16 → idx < 4096 →
    decode (BitVec.ofNat 32 (0x04000000 + buf * 2 ^ 20 + idx * 256 + byte.toNat)) = .instr (.bwr buf idx byte)) ∧
  (∀ s idx byte, s.eng.fault = false → idx ≤ 4095 → ∃ m, StoredAt s.eng.bufD idx byte m ∧
    exec (.bwr 0 idx byte) s = .next (s.answer .ok 0 { s.eng with bufD := m })) ∧
  (∀ s idx byte, s.eng.fault = false → idx ≤ 255 → ∃ m, StoredAt s.eng.bufA idx byte m ∧
    exec (.bwr 2 idx byte) s = .next (s.answer .ok 0 { s.eng with bufA := m })) ∧
  (∀ s idx byte, s.eng.fault = false → idx ≤ 255 → ∃ m, StoredAt s.eng.bufB idx byte m ∧
    exec (.bwr 3 idx byte) s = .next (s.answer .ok 0 { s.eng with bufB := m })) ∧
  (∀ s buf idx byte, s.eng.fault = false → buf = 1 ∨ 3 < buf ∨ (2 ≤ buf ∧ buf ≤ 3 ∧ 255 < idx) →
    exec (.bwr buf idx byte) s = .next (s.answer .range 0 s.eng))

/-- 40_config R106, 20_memory R66: BRD answers a written byte and changes nothing. An unwritten byte is a free draw under
`any value` (whatever the opaque `Config.freeByte` is; the draw counter is the model's own, log 3) and has no meaning under
`refuse`. Codes above 4 and indices not readable are E_RANGE. -/
def Obligations.BrdReadsOneByte : Prop :=
  (∀ buf idx, buf < 16 → idx < 4096 →
    decode (BitVec.ofNat 32 (0x05000000 + buf * 2 ^ 20 + idx * 256)) = .instr (.brd buf idx)) ∧
  (∀ s code b lim idx x, s.eng.fault = false → (code, b, lim) ∈ readLimits s.eng → idx < lim →
    memRead (s.eng.buf b) idx = some x → exec (.brd code idx) s = .next (s.answer .ok x.toNat s.eng)) ∧
  (∀ s code b lim idx, s.eng.fault = false → (code, b, lim) ∈ readLimits s.eng → idx < lim →
    memRead (s.eng.buf b) idx = none → s.cfg.unwritten = .anyValue →
    exec (.brd code idx) s =
      .next (({ s with draws := s.draws + 1 } : State).answer .ok (Config.freeByte s.draws).toNat s.eng)) ∧
  (∀ s code b lim idx, s.eng.fault = false → (code, b, lim) ∈ readLimits s.eng → idx < lim →
    memRead (s.eng.buf b) idx = none → s.cfg.unwritten = .refuse →
    exec (.brd code idx) s = .refused (.unwrittenByte b)) ∧
  (∀ s code idx, s.eng.fault = false → 4 < code ∨ (∃ b lim, (code, b, lim) ∈ readLimits s.eng ∧ lim ≤ idx) →
    exec (.brd code idx) s = .next (s.answer .range 0 s.eng))

/-- 40_config R107: BLEN sets one length and no byte; other buffers and lengths above 256 are E_RANGE. -/
def Obligations.BlenSetsTheLength : Prop :=
  (∀ buf n, buf < 16 → n < 4096 →
    decode (BitVec.ofNat 32 (0x06000000 + buf * 2 ^ 20 + n * 256)) = .instr (.blen buf n)) ∧
  (∀ s n, s.eng.fault = false → n ≤ 256 →
    exec (.blen 2 n) s = .next (s.answer .ok 0 { s.eng with lena := n }) ∧
    exec (.blen 3 n) s = .next (s.answer .ok 0 { s.eng with lenb := n })) ∧
  (∀ s buf n, s.eng.fault = false → (buf ≠ 2 ∧ buf ≠ 3) ∨ 256 < n →
    exec (.blen buf n) s = .next (s.answer .range 0 s.eng))

/-- 40_config R108, 10_state R35: MRD answers module and tag code of the cell and changes nothing; a cell outside the grid
is E_RANGE, and without a Symbol E_NOSYM comes first (60_exceptions R327). -/
def Obligations.MrdReadsTheCell : Prop :=
  (∀ row col, row < 256 → col < 256 →
    decode (BitVec.ofNat 32 (0x07000000 + row * 256 + col)) = .instr (.mrd row col)) ∧
  (∀ s row col, s.Ready → s.eng.GridsOk → row < s.eng.width → col < s.eng.width →
    ∃ dark tg code, s.eng.cellIs row col dark tg ∧
      ([.free, .finder, .timing, .alignment, .format, .version, .dark] : List Tag)[code]? = some tg ∧
      exec (.mrd row col) s = .next (s.answer .ok (256 * code + if dark = true then 1 else 0) s.eng)) ∧
  (∀ s row col, s.Ready → s.eng.width ≤ row ∨ s.eng.width ≤ col →
    exec (.mrd row col) s = .next (s.answer .range 0 s.eng)) ∧
  (∀ s row col, s.eng.fault = false → s.eng.version = 0 →
    exec (.mrd row col) s = .next (s.answer .noSym 0 s.eng))

/-! ## GF(256) -/

/-- 41_gf_scalar R126, R129, R130: GFADD is xor, GFEXP and GFLOG read their tables, GFLOG of 0 is E_DIVZERO; nothing
changes. -/
def Obligations.GfaddGfexpGflog : Prop :=
  (∀ a b : Byte, decode (BitVec.ofNat 32 (0x10000000 + a.toNat * 256 + b.toNat)) = .instr (.gfadd a b)) ∧
  (∀ n, n < 256 → decode (BitVec.ofNat 32 (0x13000000 + n)) = .instr (.gfexp n)) ∧
  (∀ n : Byte, decode (BitVec.ofNat 32 (0x14000000 + n.toNat)) = .instr (.gflog n)) ∧
  ∀ s, s.eng.fault = false →
    (∀ a b, exec (.gfadd a b) s = .next (s.answer .ok (a ^^^ b).toNat s.eng)) ∧
    (∀ n, n ≤ 255 → exec (.gfexp n) s = .next (s.answer .ok (doublings (n % 255)) s.eng)) ∧
    (∀ n k, k ≤ 254 → n.toNat = doublings k → exec (.gflog n) s = .next (s.answer .ok k s.eng)) ∧
    (∀ n : Byte, n ≠ 0 → ∃ k, k ≤ 254 ∧ n.toNat = doublings k) ∧
    exec (.gflog 0) s = .next (s.answer .divZero 0 s.eng)

/-- 41_gf_scalar R127, R128 with their corner cases: GFMUL and GFDIV answer the product and the quotient, GFDIV by 0 is
E_DIVZERO, nothing changes; the field laws hold, and the product is that of polynomials over GF(2) modulo 0x11D (R120,
R122). -/
def Obligations.GfmulGfdivFieldLaws : Prop :=
  (∀ a b : Byte, decode (BitVec.ofNat 32 (0x11000000 + a.toNat * 256 + b.toNat)) = .instr (.gfmul a b)) ∧
  (∀ a b : Byte, decode (BitVec.ofNat 32 (0x12000000 + a.toNat * 256 + b.toNat)) = .instr (.gfdiv a b)) ∧
  (∀ s a b, s.eng.fault = false →
    exec (.gfmul a b) s = .next (s.answer .ok (if a = 0 ∨ b = 0 then 0
      else (expTable ((logTable a + logTable b) % 255)).toNat) s.eng) ∧
    (b ≠ 0 → exec (.gfdiv a b) s = .next (s.answer .ok (if a = 0 then 0
      else (expTable ((logTable a + 255 - logTable b) % 255)).toNat) s.eng)) ∧
    exec (.gfdiv a 0) s = .next (s.answer .divZero 0 s.eng)) ∧
  (∀ a b c, gfmul a b = gfmul b a ∧ gfmul (gfmul a b) c = gfmul a (gfmul b c) ∧
    gfmul a (b ^^^ c) = gfmul a b ^^^ gfmul a c ∧ gfmul a 1 = a ∧
    (a ≠ 0 → gfdiv a a = 1) ∧ (b ≠ 0 → gfmul (gfdiv a b) b = a)) ∧
  (∀ a b, (gfmul a b).toNat = shiftAdd a.toNat 8 b.toNat)

/-- 41_gf_scalar R124, R125, 42_polynomial R142, R146: the printed tables are those of the construction. -/
def Obligations.ConstantTables : Prop :=
  (∀ i, i < 255 → (expTable i).toNat = doublings i ∧ logTable (expTable i) = i ∧ expTable i ≠ 0 ∧
    expTable (i + 1) = gfmul (expTable i) 2) ∧
  expTable 255 = 1 ∧
  (∀ x, x < 256 → x ≠ 0 → expTable (logTable (BitVec.ofNat 8 x)) = BitVec.ofNat 8 x) ∧
  genTable 0 = [1] ∧
  (∀ k, k < 30 → genTable (k + 1) = polymul (genTable k) [1, expTable k]) ∧
  (∀ k, k ≤ 30 → (genTable k).length = k + 1 ∧ (genTable k).head? = some 1 ∧
    (∀ i, i < k → evalAt (genTable k) (expTable i) = 0) ∧
    (genTable k)[k]? = some (expTable ((List.range k).sum % 255)))

/-! ## Polynomials -/

/-- 42_polynomial R143: GENLD loads a generator into B, the bytes above kept; an index above 30 is E_RANGE. -/
def Obligations.GenldLoadsTheGenerator : Prop :=
  (∀ n, n < 256 → decode (BitVec.ofNat 32 (0x20000000 + n)) = .instr (.genld n)) ∧
  (∀ s n, s.eng.fault = false → n ≤ 30 → ∃ m,
    (∀ j, memRead m j = if j ≤ n then (genTable n)[j]? else memRead s.eng.bufB j) ∧
    (∀ j, j ≤ n → memRead m j ≠ none) ∧
    exec (.genld n) s = .next (s.answer .ok (n + 1) { s.eng with bufB := m, lenb := n + 1 })) ∧
  (∀ s n, s.eng.fault = false → 30 < n → exec (.genld n) s = .next (s.answer .range 0 s.eng))

/-- 42_polynomial R144: length and coefficients of a product. -/
def Obligations.PolymulCoefficients : Prop :=
  ∀ p q, p ≠ [] → q ≠ [] → (polymul p q).length = p.length + q.length - 1 ∧
    ∀ t, t < p.length + q.length - 1 → (polymul p q)[t]? = some (productCoeff p q t)

/-- 42_polynomial R147: the remainder is the one sequence of the divisor's length less 1 that differs from the dividend,
aligned at the low-power end, by a multiple of the divisor; a short dividend is its own remainder, left-padded. -/
def Obligations.PolyremIsTheRemainder : Prop :=
  ∀ p d, (∃ a, d.head? = some a ∧ a ≠ 0) →
    (polyrem p d).length = d.length - 1 ∧
    (p.length < d.length → polyrem p d = List.replicate (d.length - 1 - p.length) 0 ++ p) ∧
    (d.length ≤ p.length →
      (∃ q, q.length = p.length - d.length + 1 ∧
        p = xorLists (polymul q d) (List.replicate q.length 0 ++ polyrem p d)) ∧
      ∀ r q, r.length = d.length - 1 → q.length = p.length - d.length + 1 →
        p = xorLists (polymul q d) (List.replicate q.length 0 ++ r) → r = polyrem p d)

/-- 42_polynomial R150: on polynomials of bits with leading coefficient 1 the routine is the division over GF(2). -/
def Obligations.PolyremOnBits : Prop :=
  ∀ p d : List Bool, d.head? = some true → d.length ≤ p.length →
    polyrem (p.map bitByte) (d.map bitByte) = (bitEliminate d (p.length + 1 - d.length) p).map bitByte

/-- 42_polynomial R145, 20_memory R66: PMUL on written operands stores the product; under `any value` it completes with
whatever the unwritten bytes are drawn as; under `refuse` an unwritten operand byte has no meaning; bad lengths are
E_LEN. -/
def Obligations.PmulStoresTheProduct : Prop :=
  decode 0x21000000 = .instr .pmul ∧
  (∀ s p q, s.eng.fault = false → p ≠ [] → q ≠ [] → p.length + q.length - 1 ≤ 256 →
    s.eng.lena = p.length → s.eng.lenb = q.length → Holds s.eng .A 0 p → Holds s.eng .B 0 q →
    ∃ m, StoredFrom0 s.eng.bufR (polymul p q) m ∧
      exec .pmul s = .next (s.answer .ok (p.length + q.length - 1)
        { s.eng with bufR := m, lenr := p.length + q.length - 1 })) ∧
  (∀ s, s.eng.fault = false → 1 ≤ s.eng.lena → 1 ≤ s.eng.lenb → s.eng.lena + s.eng.lenb - 1 ≤ 256 →
    (s.cfg.unwritten = .anyValue → ∃ p q m d, Reads s.eng .A 0 s.eng.lena p ∧ Reads s.eng .B 0 s.eng.lenb q ∧
      StoredFrom0 s.eng.bufR (polymul p q) m ∧
      exec .pmul s = .next (({ s with draws := d } : State).answer .ok (s.eng.lena + s.eng.lenb - 1)
        { s.eng with bufR := m, lenr := s.eng.lena + s.eng.lenb - 1 })) ∧
    (s.cfg.unwritten = .refuse →
      (∃ j, j < s.eng.lena ∧ memRead s.eng.bufA j = none) ∨ (∃ j, j < s.eng.lenb ∧ memRead s.eng.bufB j = none) →
      ∃ b, exec .pmul s = .refused (.unwrittenByte b))) ∧
  (∀ s, s.eng.fault = false → s.eng.lena = 0 ∨ s.eng.lenb = 0 ∨ 256 < s.eng.lena + s.eng.lenb - 1 →
    exec .pmul s = .next (s.answer .len 0 s.eng))

/-- 42_polynomial R148, 20_memory R66: PREM on written operands stores the remainder; LENB = 0 is E_LEN, B[0] = 0 is
E_DIVZERO; under `any value` an unwritten B[0] may be drawn as 0 (logs 11 and 12: B[0] is read once, first); under
`refuse` an unwritten operand byte has no meaning. -/
def Obligations.PremStoresTheRemainder : Prop :=
  decode 0x22000000 = .instr .prem ∧
  (∀ s p q, s.eng.fault = false → (∃ a, q.head? = some a ∧ a ≠ 0) →
    s.eng.lena = p.length → s.eng.lenb = q.length → Holds s.eng .A 0 p → Holds s.eng .B 0 q →
    ∃ m, StoredFrom0 s.eng.bufR (polyrem p q) m ∧
      exec .prem s = .next (s.answer .ok (q.length - 1) { s.eng with bufR := m, lenr := q.length - 1 })) ∧
  (∀ s, s.eng.fault = false → s.eng.lenb = 0 → exec .prem s = .next (s.answer .len 0 s.eng)) ∧
  (∀ s, s.eng.fault = false → 1 ≤ s.eng.lenb → memRead s.eng.bufB 0 = some 0 →
    exec .prem s = .next (s.answer .divZero 0 s.eng)) ∧
  (∀ s, s.eng.fault = false → 1 ≤ s.eng.lenb → s.cfg.unwritten = .anyValue → memRead s.eng.bufB 0 ≠ some 0 →
    (∃ p q m d, Reads s.eng .A 0 s.eng.lena p ∧ Reads s.eng .B 0 s.eng.lenb q ∧ q.head? ≠ some 0 ∧
      StoredFrom0 s.eng.bufR (polyrem p q) m ∧
      exec .prem s = .next (({ s with draws := d } : State).answer .ok (s.eng.lenb - 1)
        { s.eng with bufR := m, lenr := s.eng.lenb - 1 })) ∨
    (memRead s.eng.bufB 0 = none ∧ ∃ d,
      exec .prem s = .next (({ s with draws := d } : State).answer .divZero 0 s.eng))) ∧
  (∀ s, s.eng.fault = false → 1 ≤ s.eng.lenb → s.cfg.unwritten = .refuse → memRead s.eng.bufB 0 ≠ some 0 →
    (∃ j, j < s.eng.lena ∧ memRead s.eng.bufA j = none) ∨ (∃ j, j < s.eng.lenb ∧ memRead s.eng.bufB j = none) →
    ∃ b, exec .prem s = .refused (.unwrittenByte b))

/-! ## Reed-Solomon and BCH -/

/-- 43_rs_bch R161: RSCFG stores the triple and answers the stream length; each of its four checks fails with E_CFG. -/
def Obligations.RscfgStoresTheTriple : Prop :=
  (∀ ndata nblk ecpb, ndata < 4096 → nblk < 128 → ecpb < 32 →
    decode (BitVec.ofNat 32 (0x30000000 + ndata * 4096 + nblk * 32 + ecpb)) = .instr (.rscfg ndata nblk ecpb)) ∧
  (∀ s ndata nblk ecpb, s.eng.fault = false → 1 ≤ nblk → ecpb ≤ 30 → nblk ≤ ndata → ndata + ecpb * nblk ≤ 4096 →
    exec (.rscfg ndata nblk ecpb) s = .next (s.answer .ok (ndata + ecpb * nblk)
      { s.eng with ndata := ndata, nblk := nblk, ecpb := ecpb })) ∧
  (∀ s ndata nblk ecpb, s.eng.fault = false → nblk = 0 ∨ 30 < ecpb ∨ ndata < nblk ∨ 4096 < ndata + ecpb * nblk →
    exec (.rscfg ndata nblk ecpb) s = .next (s.answer .cfg 0 s.eng))

/-- 43_rs_bch R163 to R165, R167: length and entries of the interleaved stream, and its first n entries are the data in
another order. -/
def Obligations.StreamEntries : Prop :=
  ∀ data n e k, data.length = n → 1 ≤ k → k ≤ n → e ≤ 30 →
    (rsStream data n e k).length = n + e * k ∧
    (∀ i b, i < n / k → b < k →
      (rsStream data n e k)[i * k + b]? = data[b * (n / k) + (b - (k - n % k)) + i]?) ∧
    (∀ b, k - n % k ≤ b → b < k →
      (rsStream data n e k)[n / k * k + (b - (k - n % k))]? = data[b * (n / k) + (b - (k - n % k)) + n / k]?) ∧
    (∀ j b, j < e → b < k →
      (rsStream data n e k)[n + j * k + b]? =
        (polyrem ((data.drop (b * (n / k) + (b - (k - n % k)))).take (if b < k - n % k then n / k else n / k + 1)
          ++ List.replicate e 0) (genTable e))[j]?) ∧
    ((rsStream data n e k).take n).Perm data

/-- 43_rs_bch R166, 20_memory R66: RSENC stores the stream of the data in O; it needs a configuration (E_CFG) and no
Symbol; an unwritten data byte is a free draw under `any value` and has no meaning under `refuse`. -/
def Obligations.RsencStoresTheStream : Prop :=
  decode 0x31000000 = .instr .rsenc ∧
  (∀ s data, s.eng.fault = false → 1 ≤ s.eng.nblk → s.eng.ndata = data.length →
    Holds s.eng .D 0 data →
    ∃ m, StoredFrom0 s.eng.bufO (rsStream data s.eng.ndata s.eng.ecpb s.eng.nblk) m ∧
      exec .rsenc s = .next (s.answer .ok (s.eng.ndata + s.eng.ecpb * s.eng.nblk)
        { s.eng with bufO := m, olen := s.eng.ndata + s.eng.ecpb * s.eng.nblk })) ∧
  (∀ s, s.eng.fault = false → s.eng.nblk = 0 → exec .rsenc s = .next (s.answer .cfg 0 s.eng)) ∧
  (∀ s, s.eng.fault = false → 1 ≤ s.eng.nblk → s.cfg.unwritten = .anyValue →
    ∃ data m d, Reads s.eng .D 0 s.eng.ndata data ∧
      StoredFrom0 s.eng.bufO (rsStream data s.eng.ndata s.eng.ecpb s.eng.nblk) m ∧
      exec .rsenc s = .next (({ s with draws := d } : State).answer .ok (s.eng.ndata + s.eng.ecpb * s.eng.nblk)
        { s.eng with bufO := m, olen := s.eng.ndata + s.eng.ecpb * s.eng.nblk })) ∧
  (∀ s, s.eng.fault = false → 1 ≤ s.eng.nblk → s.cfg.unwritten = .refuse →
    (∃ j, j < s.eng.ndata ∧ memRead s.eng.bufD j = none) → exec .rsenc s = .refused (.unwrittenByte .D))

/-- 42_polynomial R146, 43_rs_bch R164: a block followed by its EC codewords, taken as a polynomial, is 0 at each root of
the generator. -/
def Obligations.CodewordsVanishAtTheRoots : Prop :=
  ∀ blk e i, e ≤ 30 → i < e → (ecBlock e blk).length = e ∧ evalAt (blk ++ ecBlock e blk) (expTable i) = 0

/-- 43_rs_bch R168, R170, R171, R173, R174: FMTWORD and VERWORD answer the printed words and change nothing; the check bits
are the remainder of the shifted data by the divisor over GF(2). The divisors, the level codes and the xor constant are
those the spec supplies from general knowledge (log 16). -/
def Obligations.FormatAndVersionWords : Prop :=
  (∀ (lv : Level) m, m < 8 → decode (BitVec.ofNat 32 (0x32000000 + lv.ordinal * 256 + m)) = .instr (.fmtword lv m)) ∧
  (∀ v, v < 64 → decode (BitVec.ofNat 32 (0x33000000 + v)) = .instr (.verword v)) ∧
  (∀ s lv m, s.eng.fault = false → m < 8 → ∃ w, (formatWords.getD lv.ordinal [])[m]? = some w ∧
    exec (.fmtword lv m) s = .next (s.answer .ok w s.eng)) ∧
  (∀ s v, s.eng.fault = false → v < 64 → ∃ rem q, rem < 4096 ∧ clmul q 6 0x1F25 ^^^ rem = v * 4096 ∧
    exec (.verword v) s = .next (s.answer .ok (v * 4096 + rem) s.eng) ∧
    (7 ≤ v → v ≤ 40 → versionWords[v - 7]? = some (v * 4096 + rem))) ∧
  (∀ (lv : Level) m, m < 8 → ∃ x rem q, ([1, 0, 3, 2] : List Nat)[lv.ordinal]? = some x ∧ rem < 1024 ∧
    clmul q 5 0x537 ^^^ rem = (x * 8 + m) * 1024 ∧
    (formatWords.getD lv.ordinal [])[m]? = some (((x * 8 + m) * 1024 + rem) ^^^ 0x5412))

/-! ## Placer -/

/-- 60_exceptions R321 (row E_NOSYM), R327: without a Symbol the commands that need one answer E_NOSYM, whatever their
operands, and change nothing. -/
def Obligations.SymbolCheck : Prop :=
  ∀ i s, mnemonicOf i ∈ symbolCommands → s.eng.fault = false → s.eng.version = 0 →
    exec i s = .next (s.answer .noSym 0 s.eng)

/-- 44_pattern_placer R193, R195, R209: the cells PLFIND, PLTIME and PLDARK stamp, and every other cell unchanged. -/
def Obligations.FinderTimingAndDarkCells : Prop :=
  decode 0x40000000 = .instr .plfind ∧ decode 0x41000000 = .instr .pltime ∧ decode 0x45000000 = .instr .pldark ∧
  ∀ s : State, s.Ready → s.eng.GridsOk →
    (∃ e, SameButGrid s.eng e ∧ e.GridsOk ∧ exec .plfind s = .next (s.answer .ok 0 e) ∧
      ∀ r c, r < s.eng.width → c < s.eng.width →
        (∀ cr cc, finderCentre s.eng.width r c = some (cr, cc) →
          e.cellIs r c (decide (chebyshev r c cr cc = 0 ∨ chebyshev r c cr cc % 2 = 1)) .finder) ∧
        (finderCentre s.eng.width r c = none → SameCell s.eng e r c)) ∧
    (∃ e, SameButGrid s.eng e ∧ e.GridsOk ∧ exec .pltime s = .next (s.answer .ok 0 e) ∧
      ∀ r c, r < s.eng.width → c < s.eng.width →
        (OnTiming s.eng.width r c → e.cellIs r c (decide (((if r = 6 then c else r) + 1) % 2 = 1)) .timing) ∧
        (¬ OnTiming s.eng.width r c → SameCell s.eng e r c)) ∧
    (∃ e, SameButGrid s.eng e ∧ e.GridsOk ∧ exec .pldark s = .next (s.answer .ok 0 e) ∧
      e.cellIs (4 * s.eng.version + 9) 8 true .dark ∧
      ∀ r c, r < s.eng.width → c < s.eng.width → (r, c) ≠ (4 * s.eng.version + 9, 8) → SameCell s.eng e r c)

/-- 44_pattern_placer R202, R204, R205, R207: the cells PLFMT and PLVER stamp with the printed words, and every other cell
unchanged; PLVER stamps nothing below version 7. -/
def Obligations.FormatAndVersionCells : Prop :=
  (∀ m, m < 8 → decode (BitVec.ofNat 32 (0x43000000 + m)) = .instr (.plfmt m)) ∧ decode 0x44000000 = .instr .plver ∧
  (∀ (s : State) m, s.Ready → s.eng.GridsOk → m < 8 →
    ∃ e w, (formatWords.getD s.eng.ecl.ordinal [])[m]? = some w ∧ SameButGrid s.eng e ∧ e.GridsOk ∧
      exec (.plfmt m) s = .next (s.answer .ok 0 e) ∧
      (∀ i r c, formatCells1[i]? = some (r, c) ∨ (formatCells2 s.eng.width)[i]? = some (r, c) →
        e.cellIs r c (w.testBit i) .format) ∧
      ∀ r c, (r, c) ∉ formatCells1 → (r, c) ∉ formatCells2 s.eng.width → SameCell s.eng e r c) ∧
  (∀ s : State, s.Ready → s.eng.GridsOk → s.eng.version < 7 → exec .plver s = .next (s.answer .ok 0 s.eng)) ∧
  (∀ s : State, s.Ready → s.eng.GridsOk → 7 ≤ s.eng.version → s.eng.version ≤ 40 →
    ∃ e w, versionWords[s.eng.version - 7]? = some w ∧ SameButGrid s.eng e ∧ e.GridsOk ∧
      exec .plver s = .next (s.answer .ok 0 e) ∧
      (∀ a b, a < 6 → b < 3 →
        e.cellIs a (s.eng.width - 11 + b) (w.testBit (3 * a + b)) .version ∧
        e.cellIs (s.eng.width - 11 + b) a (w.testBit (3 * a + b)) .version) ∧
      ∀ r c, ¬ (r < 6 ∧ s.eng.width - 11 ≤ c ∧ c ≤ s.eng.width - 9) →
        ¬ (c < 6 ∧ s.eng.width - 11 ≤ r ∧ r ≤ s.eng.width - 9) → SameCell s.eng e r c)

/-- 44_pattern_placer R196, R198 to R201: the coordinates computed by the formula are the printed rows, under both values
of P_ALIGN, and the cells PLALIGN stamps are those of the patterns about the centres; every other cell is unchanged. -/
def Obligations.AlignmentCells : Prop :=
  decode 0x42000000 = .instr .plalign ∧
  (∀ p v, 1 ≤ v → v ≤ 40 → alignCoords p v = coordinateRow p v) ∧
  ∀ s : State, s.Ready → s.eng.GridsOk → s.eng.version ≤ 40 →
    ∃ e, SameButGrid s.eng e ∧ e.GridsOk ∧ exec .plalign s = .next (s.answer .ok 0 e) ∧
      (∀ r c y x, IsCentre s.cfg.align s.eng.version r c → absDiff y r ≤ 2 → absDiff x c ≤ 2 →
        e.cellIs y x (decide ((chebyshev y x r c + 1) % 2 = 1)) .alignment) ∧
      ∀ y x, (∀ r c, IsCentre s.cfg.align s.eng.version r c → ¬ (absDiff y r ≤ 2 ∧ absDiff x c ≤ 2)) →
        SameCell s.eng e y x

/-- 44_pattern_placer R210: PLALL is the six placements in order, the format pattern for the Symbol's MASK, as one
command. -/
def Obligations.PlallIsTheSixCommands : Prop :=
  decode 0x46000000 = .instr .plall ∧
  ∀ s : State, s.Ready → ∃ t1 t2 t3 t4 t5 t6,
    exec .plfind s = .next t1 ∧ exec .pltime t1 = .next t2 ∧ exec .plalign t2 = .next t3 ∧
    exec (.plfmt s.eng.mask) t3 = .next t4 ∧ exec .plver t4 = .next t5 ∧ exec .pldark t5 = .next t6 ∧
    exec .plall s = .next (s.answer .ok 0 t6.eng) ∧ SameButGrid s.eng t6.eng

/-- 44_pattern_placer R191: a placement command issued twice in a row leaves the state of the first. -/
def Obligations.PlacementsAreIdempotent : Prop :=
  ∀ i s t, mnemonicOf i ∈ ["PLFIND", "PLTIME", "PLALIGN", "PLFMT", "PLVER", "PLDARK", "PLALL"] → s.eng.GridsOk →
    exec i s = .next t → exec i t = .next t

/-- 44_pattern_placer R212 to R215: CNTNONE answers the number of free cells, AVAIL the closed form, which has the printed
values; nothing changes. -/
def Obligations.CntnoneAndAvail : Prop :=
  decode 0x47000000 = .instr .cntnone ∧ decode 0x48000000 = .instr .avail ∧
  (∀ s : State, s.Ready → s.eng.GridsOk → exec .cntnone s = .next (s.answer .ok
    ((List.range s.eng.width).map fun r =>
      countBelow s.eng.width fun c => decide (cellAt s.eng.tag r c = some .free)).sum s.eng)) ∧
  (∀ s : State, s.Ready → s.eng.version ≤ 40 → ∃ a w n : Nat,
    w = 17 + 4 * s.eng.version ∧ n = (if s.eng.version = 1 then 0 else s.eng.version / 7 + 2) ∧
    (a : Int) = w * w - 192 - (if 2 ≤ s.eng.version then 25 * ((n : Int) * n - 3) - 10 * ((n : Int) - 2) else 0)
      - 2 * ((w : Int) - 16) - 30 - 1 - (if 7 ≤ s.eng.version then 36 else 0) ∧
    availValues[s.eng.version - 1]? = some a ∧
    exec .avail s = .next (s.answer .ok a s.eng))

/-- 44_pattern_placer R216, 45_data_walker R240: after SYMNEW and PLALL, CNTNONE and AVAIL answer the same number, for
every version and level and under both values of P_ALIGN; no cell of column 6 is free, and that number of cells is on the
walk. -/
def Obligations.NoneCountInvariant : Prop :=
  ∀ s v lv, s.eng.fault = false → 1 ≤ v → v ≤ 40 →
    ∃ t u n, exec (.symnew v lv) s = .next t ∧ exec .plall t = .next u ∧
      exec .cntnone u = .next (u.answer .ok n u.eng) ∧ exec .avail u = .next (u.answer .ok n u.eng) ∧
      (∀ r, isFree u.eng.tag r 6 = false) ∧ (walkOrder (17 + 4 * v) u.eng.tag).length = n

/-! ## Walker -/

/-- 45_data_walker R232, R234, R235: WKRST, and the rows of the transition table. -/
def Obligations.WalkerResetAndTransitions : Prop :=
  decode 0x50000000 = .instr .wkrst ∧
  (∀ s : State, s.Ready → exec .wkrst s = .next (s.answer .ok 0 { s.eng with walk :=
    { row := s.eng.width - 1, col := s.eng.width - 1, st := .enter, up := true, cnt := 0 } })) ∧
  ∀ w r c up n,
    advance w ⟨r, c, .enter, up, n⟩ = some ⟨w - 1, w - 1, .stepH, true, n⟩ ∧
    (0 < r → advance w ⟨r, c, .stepH, true, n⟩ = some ⟨r, c - 1, .stepUp, true, n⟩) ∧
    advance w ⟨0, c, .stepH, true, n⟩ = some ⟨0, c - 1, .revTop, true, n⟩ ∧
    (r < w - 1 → advance w ⟨r, c, .stepH, false, n⟩ = some ⟨r, c - 1, .stepDown, false, n⟩) ∧
    advance w ⟨w - 1, c, .stepH, false, n⟩ = some ⟨w - 1, c - 1, .revBottom, false, n⟩ ∧
    advance w ⟨r, c, .stepUp, up, n⟩ = some ⟨r - 1, c + 1, .stepH, up, n⟩ ∧
    advance w ⟨r, c, .stepDown, up, n⟩ = some ⟨r + 1, c + 1, .stepH, up, n⟩ ∧
    (0 < c → advance w ⟨r, c, .revTop, up, n⟩ = some ⟨r, (if c - 1 = 6 then 5 else c - 1), .stepH, false, n⟩) ∧
    (0 < c → advance w ⟨r, c, .revBottom, up, n⟩ = some ⟨r, (if c - 1 = 6 then 5 else c - 1), .stepH, true, n⟩) ∧
    advance w ⟨r, 0, .revTop, up, n⟩ = none ∧ advance w ⟨r, 0, .revBottom, up, n⟩ = none

/-- 45_data_walker R236, R237, 60_exceptions R325: WKBIT writes its bit on the first free cell of the walk and answers the
cell, or finds none, writes nothing and takes the fatal fault with the walker where the walk ended. One of the two always
happens. -/
def Obligations.WkbitPlacesOneBit : Prop :=
  (∀ b : Bool, decode (BitVec.ofNat 32 (0x51000000 + b.toNat)) = .instr (.wkbit b)) ∧
  (∀ s b k, s.Ready → s.Inv → Lands s.eng.width s.eng.tag s.eng.walk k →
    ∃ md, Square s.eng.width md ∧ cellAt md k.row k.col = some b ∧
      (∀ r c, (r, c) ≠ (k.row, k.col) → cellAt md r c = cellAt s.eng.mod r c) ∧
      exec (.wkbit b) s = .next (s.answer .ok (256 * k.row + k.col)
        { s.eng with mod := md, walk := { k with cnt := s.eng.walk.cnt + 1 } })) ∧
  (∀ s b k, s.Ready → s.Inv → Exhausts s.eng.width s.eng.tag s.eng.walk k →
    exec (.wkbit b) s = .next (s.answer .overflow 0 { s.eng with walk := k, fault := true, fcode := 8 })) ∧
  (∀ s : State, s.Ready → s.Inv → (∃ k, Lands s.eng.width s.eng.tag s.eng.walk k) ∨
    ∃ k, Exhausts s.eng.width s.eng.tag s.eng.walk k)

/-- 45_data_walker R233, R235, R239, R242 a: from the start the walker visits the cells in the order of the plain double
loop, each cell outside column 6 once, W (W - 1) in all; it is then exhausted, at the bottom left corner. -/
def Obligations.WalkVisitsEveryCellOnce : Prop :=
  ∀ v, 1 ≤ v → v ≤ 40 →
    (cellOrder (17 + 4 * v)).length = (17 + 4 * v) * (16 + 4 * v) ∧ (cellOrder (17 + 4 * v)).Nodup ∧
    (∀ r c, (r, c) ∈ cellOrder (17 + 4 * v) ↔ r < 17 + 4 * v ∧ c < 17 + 4 * v ∧ c ≠ 6) ∧
    (∀ n, n < (17 + 4 * v) * (16 + 4 * v) → ∃ k, transitions (17 + 4 * v) (n + 1) (Walker.start (17 + 4 * v)) = some k ∧
      (cellOrder (17 + 4 * v))[n]? = some (k.row, k.col)) ∧
    transitions (17 + 4 * v) ((17 + 4 * v) * (16 + 4 * v)) (Walker.start (17 + 4 * v)) =
      some ⟨16 + 4 * v, 0, .revBottom, false, 0⟩ ∧
    transitions (17 + 4 * v) ((17 + 4 * v) * (16 + 4 * v) + 1) (Walker.start (17 + 4 * v)) = none

/-- 45_data_walker R238, R239, R241: from a fresh walker WKRUN writes the bits of O, most significant first, on the cells
of `walkorder`, the n-th bit on the n-th cell, and no other cell; a stream longer than that order is placed as far as it
goes and ends in the fatal fault at the bottom left corner. -/
def Obligations.WkrunFollowsTheOrder : Prop :=
  ∀ (s : State) (bs : List Byte), s.Ready → s.Inv → s.eng.walk = Walker.start s.eng.width → s.eng.olen = bs.length → Holds s.eng .O 0 bs →
    ∃ md k, Square s.eng.width md ∧
      (∀ i p, (walkOrder s.eng.width s.eng.tag)[i]? = some p → i < 8 * bs.length →
        cellAt md p.1 p.2 = (bs[i / 8]?).map (fun x => x.getLsbD (7 - i % 8))) ∧
      (∀ r c, (r, c) ∉ (walkOrder s.eng.width s.eng.tag).take (8 * bs.length) →
        cellAt md r c = cellAt s.eng.mod r c) ∧
      k.cnt = min (8 * bs.length) (walkOrder s.eng.width s.eng.tag).length ∧
      (8 * bs.length ≤ (walkOrder s.eng.width s.eng.tag).length →
        exec .wkrun s = .next (s.answer .ok (8 * bs.length) { s.eng with mod := md, walk := k })) ∧
      ((walkOrder s.eng.width s.eng.tag).length < 8 * bs.length →
        k.row = s.eng.width - 1 ∧ k.col = 0 ∧ k.st = .revBottom ∧ k.up = false ∧
        exec .wkrun s = .next (s.answer .overflow 0
          { s.eng with mod := md, walk := k, fault := true, fcode := 8 }))

/-- 45_data_walker R238: WKRUN is the commands WKBIT of the bits of O, stopped at the first that faults. -/
def Obligations.WkrunIsTheWkbits : Prop :=
  decode 0x52000000 = .instr .wkrun ∧
  ∀ (s : State) (bs : List Byte), s.Ready → s.Inv → s.eng.olen = bs.length → Holds s.eng .O 0 bs →
    ∃ t ok, bitByBit (bs.flatMap fun x => (List.range 8).map fun j => x.getLsbD (7 - j)) s = some (t, ok) ∧
      exec .wkrun s =
        .next (if ok = true then s.answer .ok (8 * bs.length) t.eng else s.answer .overflow 0 t.eng)

/-- 45_data_walker R242 e: where the walker goes depends neither on the bits nor on the modules. -/
def Obligations.WalkIgnoresTheBits : Prop :=
  ∀ s md a b t u, exec (.wkbit a) s = .next t →
    exec (.wkbit b) { s with eng := { s.eng with mod := md } } = .next u →
    u.eng.walk = t.eng.walk ∧ u.eng.tag = t.eng.tag ∧ u.eng.fault = t.eng.fault ∧ u.resp = t.resp

/-! ## Masks and penalties -/

/-- 46_mask_penalty R262 to R264: MSKAPP inverts the free cells where the formula holds, and no other cell; MASK, TAG and
the rest are unchanged. -/
def Obligations.MskappInvertsFreeCells : Prop :=
  (∀ m, m < 8 → decode (BitVec.ofNat 32 (0x60000000 + m)) = .instr (.mskapp m)) ∧
  ∀ (s : State) m, s.Ready → s.eng.GridsOk → m < 8 →
    ∃ md, Square s.eng.width md ∧ exec (.mskapp m) s = .next (s.answer .ok 0 { s.eng with mod := md }) ∧
      ∀ r c dark tg, s.eng.cellIs r c dark tg →
        cellAt md r c = some (if tg = .free then xor dark (maskFormula m r c) else dark)

/-- 46_mask_penalty R263: a mask applied twice restores MOD, and two masks applied in either order give the same MOD. -/
def Obligations.MasksAreInvolutionsThatCommute : Prop :=
  ∀ s a b t u, exec (.mskapp a) s = .next t → exec (.mskapp b) t = .next u →
    (a = b → u.eng = s.eng) ∧
    ∃ t' u', exec (.mskapp b) s = .next t' ∧ exec (.mskapp a) t' = .next u' ∧ u'.eng = u.eng

/-- 46_mask_penalty R268 to R272: the four penalties of any matrix, by index. -/
def Obligations.PenaltyRulesByIndex : Prop :=
  ∀ h k g, 1 ≤ h → 1 ≤ k → IsMatrix h k g →
    penRuns g = ((linesByIndex h k g).map fun line =>
      ((runLengths line).map fun n => if 5 ≤ n then n - 2 else 0).sum).sum ∧
    penBlocks g = 3 * ((List.range (h - 1)).map fun r => countBelow (k - 1) fun c =>
      entry g r c == entry g r (c + 1) && entry g r c == entry g (r + 1) c && entry g r c == entry g (r + 1) (c + 1)).sum ∧
    penPatterns g = 40 * ((linesByIndex h k g).map fun line => countBelow line.length fun i =>
      (line.drop i).take 11 == [true, false, true, true, true, false, true, false, false, false, false] ||
      (line.drop i).take 11 == [false, false, false, false, true, false, true, true, true, false, true]).sum ∧
    (penRatio g : Int) = 2 * |((20 * ((List.range h).map fun r => countBelow k fun c => entry g r c).sum / (h * k) : Nat)
      : Int) - 10|

/-- 46_mask_penalty R273, R274: PENALTY sets the five penalty registers to the scores of the grid and their sum, answers
the sum and changes nothing else. -/
def Obligations.PenaltySetsTheRegisters : Prop :=
  decode 0x61000000 = .instr .penalty ∧
  ∀ s : State, s.Ready → ∃ p1 p2 p3 p4,
    p1 = penRuns s.eng.mod ∧ p2 = penBlocks s.eng.mod ∧ p3 = penPatterns s.eng.mod ∧ p4 = penRatio s.eng.mod ∧
    exec .penalty s = .next (s.answer .ok (p1 + p2 + p3 + p4)
      { s.eng with pen1 := p1, pen2 := p2, pen3 := p3, pen4 := p4, pent := p1 + p2 + p3 + p4 })

/-- 46_mask_penalty R275 to R277 (d, e): MSKSEL answers the first mask id of the lowest total, each total that of MSKAPP,
PLFMT and PENALTY on the grid as it was, and leaves what those three commands with the winner leave, with MASK the
winner. -/
def Obligations.MskselPicksTheFirstLowest : Prop :=
  decode 0x62000000 = .instr .msksel ∧
  ∀ s : State, s.Ready → ∃ best t, best < 8 ∧ Candidate best s t ∧
    exec .msksel s = .next (s.answer .ok best { t.eng with mask := best }) ∧
    ∀ m, m < 8 → ∃ u, Candidate m s u ∧ t.eng.pent ≤ u.eng.pent ∧ (m < best → t.eng.pent < u.eng.pent)

/-- 46_mask_penalty R277 b, c: the cells after MSKSEL, and MSKAPP of the winner recovers the free cells. -/
def Obligations.MskselCells : Prop :=
  ∀ s : State, s.Ready → s.eng.GridsOk → ∃ best e w, best < 8 ∧
    (formatWords.getD s.eng.ecl.ordinal [])[best]? = some w ∧
    exec .msksel s = .next (s.answer .ok best e) ∧ e.mask = best ∧
    (∀ i r c, formatCells1[i]? = some (r, c) ∨ (formatCells2 s.eng.width)[i]? = some (r, c) →
      e.cellIs r c (w.testBit i) .format) ∧
    (∀ r c dark tg, (r, c) ∉ formatCells1 → (r, c) ∉ formatCells2 s.eng.width → s.eng.cellIs r c dark tg →
      e.cellIs r c (if tg = .free then xor dark (maskFormula best r c) else dark) tg) ∧
    ∃ t, exec (.mskapp best) (s.answer .ok best e) = .next t ∧
      ∀ r c, isFree e.tag r c = true → cellAt t.eng.mod r c = cellAt s.eng.mod r c

/-- 46_mask_penalty R277 a: the winner and the final grid are a function of VERSION, ECL, MOD and TAG alone. -/
def Obligations.MskselDependsOnTheSymbolOnly : Prop :=
  ∀ s u : State, s.Ready → u.Ready → u.eng.version = s.eng.version → u.eng.ecl = s.eng.ecl → u.eng.mod = s.eng.mod →
    u.eng.tag = s.eng.tag →
    ∃ t t', exec .msksel s = .next t ∧ exec .msksel u = .next t' ∧ t'.resp = t.resp ∧ t'.eng.mod = t.eng.mod ∧
      t'.eng.tag = t.eng.tag ∧ t'.eng.mask = t.eng.mask ∧ t'.eng.pent = t.eng.pent

/-! ## The whole machine -/

/-- 60_exceptions R326: while FAULT = 1 every command but NOP, RESET and RDREG answers (E_FAULTED, 0), whatever its
operands, and changes nothing. -/
def Obligations.FaultGate : Prop :=
  ∀ i s, s.eng.fault = true → mnemonicOf i ∉ ["NOP", "RESET", "RDREG"] →
    exec i s = .next (s.answer .faulted 0 s.eng)

/-- 60_exceptions R323, 40_config R100: a command that answers a typed error has changed no state of the engine, and its
value is 0. (The model's draw counter may have moved, log 12.) -/
def Obligations.TypedErrorsChangeNothing : Prop :=
  ∀ i s t r, exec i s = .next t → t.resp = some r → r.err.typed = true →
    r.val = 0 ∧ t.eng = s.eng ∧ t.input = s.input ∧ t.cfg = s.cfg

/-- 60_exceptions R325: the fatal fault comes from WKBIT and WKRUN only, sets FAULT and FCODE, answers 0, and leaves
everything but the modules and the walker registers as it was. -/
def Obligations.OverflowLatches : Prop :=
  ∀ i s t r, exec i s = .next t → t.resp = some r → r.err = .overflow →
    mnemonicOf i ∈ ["WKBIT", "WKRUN"] ∧ r.val = 0 ∧ s.eng.fault = false ∧
    t.eng = { s.eng with fault := true, fcode := 8, mod := t.eng.mod, walk := t.eng.walk }

/-- 60_exceptions R329, R330, 70_reset R360, R361: from a faulted state every step goes on. When its input is a reset, the
command or the hardware's, every piece of the engine's state is at its reset value; by any other step, one without an input
too, the engine is left as it is. That the hardware reset is an input taken between two commands is log 6, that the inputs
are a list is log 4. -/
def Obligations.FaultLeftOnlyByReset : Prop :=
  ∀ s : State, s.eng.fault = true → ∃ t, step s = .next t ∧
    (s.input.head? = some .hardReset ∨ s.input.head? = some (.command 0x01000000) → t.eng = Engine.reset) ∧
    (s.input.head? ≠ some .hardReset → s.input.head? ≠ some (.command 0x01000000) → t.eng = s.eng)

/-- 60_exceptions R322: no command returns a code its row does not list. -/
def Obligations.ErrorMatrix : Prop :=
  ∀ i s t r, exec i s = .next t → t.resp = some r → r.err = .ok ∨ r.err ∈ errorRow i

/-- 40_config R100, 70_reset R381: every command answers one response in every state, and leaves the waiting inputs and the
parameters; only under P_UNWRITTEN = refuse (20_memory R66) may it have no meaning instead, and only where it reads
buffer bytes. The clause `s.draws ≤ t.draws`, that the count of free draws never goes back, is about the model's own
counter: the model's choice (log 3), no rule of the spec. -/
def Obligations.EveryCommandAnswersOnce : Prop :=
  ∀ i s, (∃ t r, exec i s = .next t ∧ t.resp = some r ∧ t.input = s.input ∧ t.cfg = s.cfg ∧ s.draws ≤ t.draws) ∨
    (s.cfg.unwritten = .refuse ∧ mnemonicOf i ∈ ["BRD", "PMUL", "PREM", "RSENC", "WKRUN"] ∧
      ∃ b, exec i s = .refused (.unwrittenByte b))

/-- 10_state R25, R30 to R43, 20_memory R70: the commands that write each piece of state. A command named nowhere in the
lists (NOP, RDREG, BRD, MRD, GF*, CNTNONE, AVAIL, FMTWORD, VERWORD) changes nothing. -/
def Obligations.WritersOfEachRegister : Prop :=
  ∀ i s t, exec i s = .next t →
    (t.eng.fault ≠ s.eng.fault ∨ t.eng.fcode ≠ s.eng.fcode → mnemonicOf i ∈ ["WKBIT", "WKRUN", "RESET"]) ∧
    (t.eng.version ≠ s.eng.version ∨ t.eng.ecl ≠ s.eng.ecl → mnemonicOf i ∈ ["SYMNEW", "RESET"]) ∧
    (t.eng.mask ≠ s.eng.mask → mnemonicOf i ∈ ["SYMNEW", "MSKSEL", "RESET"]) ∧
    (t.eng.mod ≠ s.eng.mod → mnemonicOf i ∈ ["SYMNEW", "PLFIND", "PLTIME", "PLALIGN", "PLFMT", "PLVER", "PLDARK",
      "PLALL", "WKBIT", "WKRUN", "MSKAPP", "MSKSEL", "RESET"]) ∧
    (t.eng.tag ≠ s.eng.tag → mnemonicOf i ∈ ["SYMNEW", "PLFIND", "PLTIME", "PLALIGN", "PLFMT", "PLVER", "PLDARK",
      "PLALL", "MSKSEL", "RESET"]) ∧
    (t.eng.ndata ≠ s.eng.ndata ∨ t.eng.ecpb ≠ s.eng.ecpb ∨ t.eng.nblk ≠ s.eng.nblk →
      mnemonicOf i ∈ ["RSCFG", "RESET"]) ∧
    (t.eng.olen ≠ s.eng.olen ∨ t.eng.bufO ≠ s.eng.bufO → mnemonicOf i ∈ ["RSENC", "RESET"]) ∧
    (t.eng.lena ≠ s.eng.lena → mnemonicOf i ∈ ["BLEN", "RESET"]) ∧
    (t.eng.lenb ≠ s.eng.lenb → mnemonicOf i ∈ ["BLEN", "GENLD", "RESET"]) ∧
    (t.eng.lenr ≠ s.eng.lenr ∨ t.eng.bufR ≠ s.eng.bufR → mnemonicOf i ∈ ["PMUL", "PREM", "RESET"]) ∧
    (t.eng.bufD ≠ s.eng.bufD ∨ t.eng.bufA ≠ s.eng.bufA → mnemonicOf i ∈ ["BWR", "RESET"]) ∧
    (t.eng.bufB ≠ s.eng.bufB → mnemonicOf i ∈ ["BWR", "GENLD", "RESET"]) ∧
    (t.eng.walk ≠ s.eng.walk → mnemonicOf i ∈ ["SYMNEW", "WKRST", "WKBIT", "WKRUN", "RESET"]) ∧
    (t.eng.pen1 ≠ s.eng.pen1 ∨ t.eng.pen2 ≠ s.eng.pen2 ∨ t.eng.pen3 ≠ s.eng.pen3 ∨ t.eng.pen4 ≠ s.eng.pen4 ∨
      t.eng.pent ≠ s.eng.pent → mnemonicOf i ∈ ["PENALTY", "MSKSEL", "SYMNEW", "RESET"])

/-- 10_state R36 b, c: the walker and the mask never touch a reserved cell nor TAG, and no command but SYMNEW and RESET
makes a reserved cell free. -/
def Obligations.ReservedCellsStayReserved : Prop :=
  ∀ i s t, exec i s = .next t → ∀ r c tg, cellAt s.eng.tag r c = some tg → tg ≠ .free →
    (mnemonicOf i ∈ ["WKBIT", "WKRUN", "MSKAPP"] →
      t.eng.tag = s.eng.tag ∧ cellAt t.eng.mod r c = cellAt s.eng.mod r c) ∧
    (mnemonicOf i ∉ ["SYMNEW", "RESET"] → ∃ tg', cellAt t.eng.tag r c = some tg' ∧ tg' ≠ .free)

/-- 10_state R25, R36, R50, R52: the invariant holds right after reset. Its bound on WCNT is the model's choice (log 21). -/
def Obligations.InvAtReset : Prop := State.reset.Inv

/-- 10_state R25, R30, R32, R36 to R39, R43, R52, 20_memory R66, 45_data_walker R231: every step keeps the invariant.
Its bound on WCNT, the transitions made, is the model's choice (log 21) and not the 29648 of R52. -/
def Obligations.StepKeepsInv : Prop := ∀ s t, s.Inv → step s = .next t → t.Inv
end

