-- ==== Sys2Proof/Laws/Decode.lean ====
section
/-! SUPPORT. The fields of a word given as a number, and the must-be-zero check. -/

namespace Sys2Proof

theorem bits_ofNat {x : Nat} (h : x < 2 ^ 32) (hi lo : Nat) :
    bits (BitVec.ofNat 32 x) hi lo = x / 2 ^ lo % 2 ^ (hi + 1 - lo) := by
  rw [bits, BitVec.toNat_ofNat, Nat.mod_eq_of_lt h]

@[simp] theorem whenZero_zero (op : Nat) (i : Instr) : whenZero op 0 i = .instr i := rfl

theorem whenZero_instr {op z : Nat} {i j : Instr} (h : whenZero op z i = .instr j) : z = 0 ∧ i = j := by
  unfold whenZero at h
  split at h
  · exact ⟨‹_›, by simpa using h⟩
  · cases h

theorem whenZero_of_zero {op z : Nat} {i : Instr} (h : z = 0) : whenZero op z i = .instr i := by rw [h]; rfl

@[simp] theorem Level.ofOrdinal_ordinal (lv : Level) : Level.ofOrdinal lv.ordinal = lv := by cases lv <;> rfl
theorem Level.ordinal_lt (lv : Level) : lv.ordinal < 4 := by cases lv <;> decide

theorem Level.ordinal_ofOrdinal {n : Nat} (h : n < 4) : (Level.ofOrdinal n).ordinal = n := by
  rcases n with _ | _ | _ | _ | n <;> first | rfl | omega

@[simp] theorem byte_ofNat_toNat (b : Byte) : BitVec.ofNat 8 b.toNat = b := by simp

end Sys2Proof
end

