-- ==== Sys2Proof/Laws/State.lean ====
section
/-! SUPPORT. The fields of the state after each named update: one lemma per field per update, so that no later proof
unfolds a record update. -/

namespace Sys2Proof.Machine

/-! ## The configuration record -/

theorem sideOf_eq (v : Nat) : sideOf v = 17 + 4 * v := rfl

@[simp] theorem config_align (s : State) : s.config.align = s.cfg.align := rfl
@[simp] theorem config_unwritten (s : State) : s.config.unwritten = s.cfg.unwritten := rfl
@[simp] theorem config_toFixedParams (s : State) : s.config.toFixedParams = fixedParams := rfl

/-! ## Responses and the port -/

@[simp] theorem resetEngine_eng (s : State) : (resetEngine s).eng = Engine.reset := rfl
@[simp] theorem resetEngine_input (s : State) : (resetEngine s).input = s.input := rfl
@[simp] theorem resetEngine_cfg (s : State) : (resetEngine s).cfg = s.cfg := rfl
@[simp] theorem resetEngine_draws (s : State) : (resetEngine s).draws = s.draws := rfl
@[simp] theorem resetEngine_resp (s : State) : (resetEngine s).resp = s.resp := rfl
@[simp] theorem presentWord_eng (w : Word) (s : State) : (presentWord w s).eng = s.eng := rfl
@[simp] theorem presentWord_resp (w : Word) (s : State) : (presentWord w s).resp = s.resp := rfl
@[simp] theorem presentWord_cfg (w : Word) (s : State) : (presentWord w s).cfg = s.cfg := rfl
@[simp] theorem presentWord_draws (w : Word) (s : State) : (presentWord w s).draws = s.draws := rfl
@[simp] theorem presentWord_input (w : Word) (s : State) : (presentWord w s).input = .command w :: s.input := rfl

/-! ## One stamp -/

@[simp] theorem stamp_fault (e : Engine) (p : Stamp) : (e.stamp p).fault = e.fault := rfl
@[simp] theorem stamp_fcode (e : Engine) (p : Stamp) : (e.stamp p).fcode = e.fcode := rfl
@[simp] theorem stamp_version (e : Engine) (p : Stamp) : (e.stamp p).version = e.version := rfl
@[simp] theorem stamp_ecl (e : Engine) (p : Stamp) : (e.stamp p).ecl = e.ecl := rfl
@[simp] theorem stamp_mask (e : Engine) (p : Stamp) : (e.stamp p).mask = e.mask := rfl
@[simp] theorem stamp_mod (e : Engine) (p : Stamp) : (e.stamp p).mod = setCell e.mod p.row p.col p.dark := rfl
@[simp] theorem stamp_tag (e : Engine) (p : Stamp) : (e.stamp p).tag = setCell e.tag p.row p.col p.tag := rfl
@[simp] theorem stamp_ndata (e : Engine) (p : Stamp) : (e.stamp p).ndata = e.ndata := rfl
@[simp] theorem stamp_ecpb (e : Engine) (p : Stamp) : (e.stamp p).ecpb = e.ecpb := rfl
@[simp] theorem stamp_nblk (e : Engine) (p : Stamp) : (e.stamp p).nblk = e.nblk := rfl
@[simp] theorem stamp_olen (e : Engine) (p : Stamp) : (e.stamp p).olen = e.olen := rfl
@[simp] theorem stamp_lena (e : Engine) (p : Stamp) : (e.stamp p).lena = e.lena := rfl
@[simp] theorem stamp_lenb (e : Engine) (p : Stamp) : (e.stamp p).lenb = e.lenb := rfl
@[simp] theorem stamp_lenr (e : Engine) (p : Stamp) : (e.stamp p).lenr = e.lenr := rfl
@[simp] theorem stamp_bufD (e : Engine) (p : Stamp) : (e.stamp p).bufD = e.bufD := rfl
@[simp] theorem stamp_bufO (e : Engine) (p : Stamp) : (e.stamp p).bufO = e.bufO := rfl
@[simp] theorem stamp_bufA (e : Engine) (p : Stamp) : (e.stamp p).bufA = e.bufA := rfl
@[simp] theorem stamp_bufB (e : Engine) (p : Stamp) : (e.stamp p).bufB = e.bufB := rfl
@[simp] theorem stamp_bufR (e : Engine) (p : Stamp) : (e.stamp p).bufR = e.bufR := rfl
@[simp] theorem stamp_walk (e : Engine) (p : Stamp) : (e.stamp p).walk = e.walk := rfl
@[simp] theorem stamp_pen1 (e : Engine) (p : Stamp) : (e.stamp p).pen1 = e.pen1 := rfl
@[simp] theorem stamp_pen2 (e : Engine) (p : Stamp) : (e.stamp p).pen2 = e.pen2 := rfl
@[simp] theorem stamp_pen3 (e : Engine) (p : Stamp) : (e.stamp p).pen3 = e.pen3 := rfl
@[simp] theorem stamp_pen4 (e : Engine) (p : Stamp) : (e.stamp p).pen4 = e.pen4 := rfl
@[simp] theorem stamp_pent (e : Engine) (p : Stamp) : (e.stamp p).pent = e.pent := rfl
@[simp] theorem stamp_width (e : Engine) (p : Stamp) : (e.stamp p).width = e.width := rfl

/-! ## A list of stamps -/

@[simp] theorem stampAll_nil (e : Engine) : e.stampAll [] = e := rfl
@[simp] theorem stampAll_cons (e : Engine) (p : Stamp) (ps : List Stamp) :
    e.stampAll (p :: ps) = (e.stamp p).stampAll ps := rfl

/-- Stamps change MOD and TAG only. -/
theorem stampAll_same (ps : List Stamp) (e : Engine) :
    e.stampAll ps = { e with mod := (e.stampAll ps).mod, tag := (e.stampAll ps).tag } := by
  induction ps generalizing e with
  | nil => rfl
  | cons p ps ih => rw [stampAll_cons, ih]; rfl

theorem stampAll_append (e : Engine) (ps qs : List Stamp) :
    e.stampAll (ps ++ qs) = (e.stampAll ps).stampAll qs := List.foldl_append ..

@[simp] theorem stampAll_fault (e : Engine) (ps : List Stamp) : (e.stampAll ps).fault = e.fault := by rw [stampAll_same]
@[simp] theorem stampAll_fcode (e : Engine) (ps : List Stamp) : (e.stampAll ps).fcode = e.fcode := by rw [stampAll_same]
@[simp] theorem stampAll_version (e : Engine) (ps : List Stamp) : (e.stampAll ps).version = e.version := by rw [stampAll_same]
@[simp] theorem stampAll_ecl (e : Engine) (ps : List Stamp) : (e.stampAll ps).ecl = e.ecl := by rw [stampAll_same]
@[simp] theorem stampAll_mask (e : Engine) (ps : List Stamp) : (e.stampAll ps).mask = e.mask := by rw [stampAll_same]
@[simp] theorem stampAll_ndata (e : Engine) (ps : List Stamp) : (e.stampAll ps).ndata = e.ndata := by rw [stampAll_same]
@[simp] theorem stampAll_ecpb (e : Engine) (ps : List Stamp) : (e.stampAll ps).ecpb = e.ecpb := by rw [stampAll_same]
@[simp] theorem stampAll_nblk (e : Engine) (ps : List Stamp) : (e.stampAll ps).nblk = e.nblk := by rw [stampAll_same]
@[simp] theorem stampAll_olen (e : Engine) (ps : List Stamp) : (e.stampAll ps).olen = e.olen := by rw [stampAll_same]
@[simp] theorem stampAll_lena (e : Engine) (ps : List Stamp) : (e.stampAll ps).lena = e.lena := by rw [stampAll_same]
@[simp] theorem stampAll_lenb (e : Engine) (ps : List Stamp) : (e.stampAll ps).lenb = e.lenb := by rw [stampAll_same]
@[simp] theorem stampAll_lenr (e : Engine) (ps : List Stamp) : (e.stampAll ps).lenr = e.lenr := by rw [stampAll_same]
@[simp] theorem stampAll_bufD (e : Engine) (ps : List Stamp) : (e.stampAll ps).bufD = e.bufD := by rw [stampAll_same]
@[simp] theorem stampAll_bufO (e : Engine) (ps : List Stamp) : (e.stampAll ps).bufO = e.bufO := by rw [stampAll_same]
@[simp] theorem stampAll_bufA (e : Engine) (ps : List Stamp) : (e.stampAll ps).bufA = e.bufA := by rw [stampAll_same]
@[simp] theorem stampAll_bufB (e : Engine) (ps : List Stamp) : (e.stampAll ps).bufB = e.bufB := by rw [stampAll_same]
@[simp] theorem stampAll_bufR (e : Engine) (ps : List Stamp) : (e.stampAll ps).bufR = e.bufR := by rw [stampAll_same]
@[simp] theorem stampAll_walk (e : Engine) (ps : List Stamp) : (e.stampAll ps).walk = e.walk := by rw [stampAll_same]
@[simp] theorem stampAll_pen1 (e : Engine) (ps : List Stamp) : (e.stampAll ps).pen1 = e.pen1 := by rw [stampAll_same]
@[simp] theorem stampAll_pen2 (e : Engine) (ps : List Stamp) : (e.stampAll ps).pen2 = e.pen2 := by rw [stampAll_same]
@[simp] theorem stampAll_pen3 (e : Engine) (ps : List Stamp) : (e.stampAll ps).pen3 = e.pen3 := by rw [stampAll_same]
@[simp] theorem stampAll_pen4 (e : Engine) (ps : List Stamp) : (e.stampAll ps).pen4 = e.pen4 := by rw [stampAll_same]
@[simp] theorem stampAll_pent (e : Engine) (ps : List Stamp) : (e.stampAll ps).pent = e.pent := by rw [stampAll_same]
@[simp] theorem stampAll_width (e : Engine) (ps : List Stamp) : (e.stampAll ps).width = e.width := by rw [stampAll_same]; rfl

/-! ## Masking -/

@[simp] theorem maskApply_fault (e : Engine) (m : Nat) : (e.maskApply m).fault = e.fault := rfl
@[simp] theorem maskApply_fcode (e : Engine) (m : Nat) : (e.maskApply m).fcode = e.fcode := rfl
@[simp] theorem maskApply_version (e : Engine) (m : Nat) : (e.maskApply m).version = e.version := rfl
@[simp] theorem maskApply_ecl (e : Engine) (m : Nat) : (e.maskApply m).ecl = e.ecl := rfl
@[simp] theorem maskApply_mask (e : Engine) (m : Nat) : (e.maskApply m).mask = e.mask := rfl
@[simp] theorem maskApply_mod (e : Engine) (m : Nat) : (e.maskApply m).mod = maskRows m 0 e.tag e.mod := rfl
@[simp] theorem maskApply_tag (e : Engine) (m : Nat) : (e.maskApply m).tag = e.tag := rfl
@[simp] theorem maskApply_ndata (e : Engine) (m : Nat) : (e.maskApply m).ndata = e.ndata := rfl
@[simp] theorem maskApply_ecpb (e : Engine) (m : Nat) : (e.maskApply m).ecpb = e.ecpb := rfl
@[simp] theorem maskApply_nblk (e : Engine) (m : Nat) : (e.maskApply m).nblk = e.nblk := rfl
@[simp] theorem maskApply_olen (e : Engine) (m : Nat) : (e.maskApply m).olen = e.olen := rfl
@[simp] theorem maskApply_lena (e : Engine) (m : Nat) : (e.maskApply m).lena = e.lena := rfl
@[simp] theorem maskApply_lenb (e : Engine) (m : Nat) : (e.maskApply m).lenb = e.lenb := rfl
@[simp] theorem maskApply_lenr (e : Engine) (m : Nat) : (e.maskApply m).lenr = e.lenr := rfl
@[simp] theorem maskApply_bufD (e : Engine) (m : Nat) : (e.maskApply m).bufD = e.bufD := rfl
@[simp] theorem maskApply_bufO (e : Engine) (m : Nat) : (e.maskApply m).bufO = e.bufO := rfl
@[simp] theorem maskApply_bufA (e : Engine) (m : Nat) : (e.maskApply m).bufA = e.bufA := rfl
@[simp] theorem maskApply_bufB (e : Engine) (m : Nat) : (e.maskApply m).bufB = e.bufB := rfl
@[simp] theorem maskApply_bufR (e : Engine) (m : Nat) : (e.maskApply m).bufR = e.bufR := rfl
@[simp] theorem maskApply_walk (e : Engine) (m : Nat) : (e.maskApply m).walk = e.walk := rfl
@[simp] theorem maskApply_pen1 (e : Engine) (m : Nat) : (e.maskApply m).pen1 = e.pen1 := rfl
@[simp] theorem maskApply_pen2 (e : Engine) (m : Nat) : (e.maskApply m).pen2 = e.pen2 := rfl
@[simp] theorem maskApply_pen3 (e : Engine) (m : Nat) : (e.maskApply m).pen3 = e.pen3 := rfl
@[simp] theorem maskApply_pen4 (e : Engine) (m : Nat) : (e.maskApply m).pen4 = e.pen4 := rfl
@[simp] theorem maskApply_pent (e : Engine) (m : Nat) : (e.maskApply m).pent = e.pent := rfl
@[simp] theorem maskApply_width (e : Engine) (m : Nat) : (e.maskApply m).width = e.width := rfl

/-! ## A candidate of the mask selection -/

@[simp] theorem candidate_fault (e : Engine) (m : Nat) : (e.candidate m).fault = e.fault := by simp [Engine.candidate]
@[simp] theorem candidate_fcode (e : Engine) (m : Nat) : (e.candidate m).fcode = e.fcode := by simp [Engine.candidate]
@[simp] theorem candidate_version (e : Engine) (m : Nat) : (e.candidate m).version = e.version := by simp [Engine.candidate]
@[simp] theorem candidate_ecl (e : Engine) (m : Nat) : (e.candidate m).ecl = e.ecl := by simp [Engine.candidate]
@[simp] theorem candidate_mask (e : Engine) (m : Nat) : (e.candidate m).mask = e.mask := by simp [Engine.candidate]
@[simp] theorem candidate_ndata (e : Engine) (m : Nat) : (e.candidate m).ndata = e.ndata := by simp [Engine.candidate]
@[simp] theorem candidate_ecpb (e : Engine) (m : Nat) : (e.candidate m).ecpb = e.ecpb := by simp [Engine.candidate]
@[simp] theorem candidate_nblk (e : Engine) (m : Nat) : (e.candidate m).nblk = e.nblk := by simp [Engine.candidate]
@[simp] theorem candidate_olen (e : Engine) (m : Nat) : (e.candidate m).olen = e.olen := by simp [Engine.candidate]
@[simp] theorem candidate_lena (e : Engine) (m : Nat) : (e.candidate m).lena = e.lena := by simp [Engine.candidate]
@[simp] theorem candidate_lenb (e : Engine) (m : Nat) : (e.candidate m).lenb = e.lenb := by simp [Engine.candidate]
@[simp] theorem candidate_lenr (e : Engine) (m : Nat) : (e.candidate m).lenr = e.lenr := by simp [Engine.candidate]
@[simp] theorem candidate_bufD (e : Engine) (m : Nat) : (e.candidate m).bufD = e.bufD := by simp [Engine.candidate]
@[simp] theorem candidate_bufO (e : Engine) (m : Nat) : (e.candidate m).bufO = e.bufO := by simp [Engine.candidate]
@[simp] theorem candidate_bufA (e : Engine) (m : Nat) : (e.candidate m).bufA = e.bufA := by simp [Engine.candidate]
@[simp] theorem candidate_bufB (e : Engine) (m : Nat) : (e.candidate m).bufB = e.bufB := by simp [Engine.candidate]
@[simp] theorem candidate_bufR (e : Engine) (m : Nat) : (e.candidate m).bufR = e.bufR := by simp [Engine.candidate]
@[simp] theorem candidate_walk (e : Engine) (m : Nat) : (e.candidate m).walk = e.walk := by simp [Engine.candidate]
@[simp] theorem candidate_pen1 (e : Engine) (m : Nat) : (e.candidate m).pen1 = e.pen1 := by simp [Engine.candidate]
@[simp] theorem candidate_pen2 (e : Engine) (m : Nat) : (e.candidate m).pen2 = e.pen2 := by simp [Engine.candidate]
@[simp] theorem candidate_pen3 (e : Engine) (m : Nat) : (e.candidate m).pen3 = e.pen3 := by simp [Engine.candidate]
@[simp] theorem candidate_pen4 (e : Engine) (m : Nat) : (e.candidate m).pen4 = e.pen4 := by simp [Engine.candidate]
@[simp] theorem candidate_pent (e : Engine) (m : Nat) : (e.candidate m).pent = e.pent := by simp [Engine.candidate]
@[simp] theorem candidate_width (e : Engine) (m : Nat) : (e.candidate m).width = e.width := by simp [Engine.candidate]

/-! ## The penalty registers -/

@[simp] theorem setScores_fault (e : Engine) (p : Scores) : (e.setScores p).fault = e.fault := rfl
@[simp] theorem setScores_fcode (e : Engine) (p : Scores) : (e.setScores p).fcode = e.fcode := rfl
@[simp] theorem setScores_version (e : Engine) (p : Scores) : (e.setScores p).version = e.version := rfl
@[simp] theorem setScores_ecl (e : Engine) (p : Scores) : (e.setScores p).ecl = e.ecl := rfl
@[simp] theorem setScores_mask (e : Engine) (p : Scores) : (e.setScores p).mask = e.mask := rfl
@[simp] theorem setScores_mod (e : Engine) (p : Scores) : (e.setScores p).mod = e.mod := rfl
@[simp] theorem setScores_tag (e : Engine) (p : Scores) : (e.setScores p).tag = e.tag := rfl
@[simp] theorem setScores_ndata (e : Engine) (p : Scores) : (e.setScores p).ndata = e.ndata := rfl
@[simp] theorem setScores_ecpb (e : Engine) (p : Scores) : (e.setScores p).ecpb = e.ecpb := rfl
@[simp] theorem setScores_nblk (e : Engine) (p : Scores) : (e.setScores p).nblk = e.nblk := rfl
@[simp] theorem setScores_olen (e : Engine) (p : Scores) : (e.setScores p).olen = e.olen := rfl
@[simp] theorem setScores_lena (e : Engine) (p : Scores) : (e.setScores p).lena = e.lena := rfl
@[simp] theorem setScores_lenb (e : Engine) (p : Scores) : (e.setScores p).lenb = e.lenb := rfl
@[simp] theorem setScores_lenr (e : Engine) (p : Scores) : (e.setScores p).lenr = e.lenr := rfl
@[simp] theorem setScores_bufD (e : Engine) (p : Scores) : (e.setScores p).bufD = e.bufD := rfl
@[simp] theorem setScores_bufO (e : Engine) (p : Scores) : (e.setScores p).bufO = e.bufO := rfl
@[simp] theorem setScores_bufA (e : Engine) (p : Scores) : (e.setScores p).bufA = e.bufA := rfl
@[simp] theorem setScores_bufB (e : Engine) (p : Scores) : (e.setScores p).bufB = e.bufB := rfl
@[simp] theorem setScores_bufR (e : Engine) (p : Scores) : (e.setScores p).bufR = e.bufR := rfl
@[simp] theorem setScores_walk (e : Engine) (p : Scores) : (e.setScores p).walk = e.walk := rfl
@[simp] theorem setScores_pen1 (e : Engine) (p : Scores) : (e.setScores p).pen1 = p.p1 := rfl
@[simp] theorem setScores_pen2 (e : Engine) (p : Scores) : (e.setScores p).pen2 = p.p2 := rfl
@[simp] theorem setScores_pen3 (e : Engine) (p : Scores) : (e.setScores p).pen3 = p.p3 := rfl
@[simp] theorem setScores_pen4 (e : Engine) (p : Scores) : (e.setScores p).pen4 = p.p4 := rfl
@[simp] theorem setScores_pent (e : Engine) (p : Scores) : (e.setScores p).pent = p.total := rfl
@[simp] theorem setScores_width (e : Engine) (p : Scores) : (e.setScores p).width = e.width := rfl

/-! ## The commit of the mask selection -/

@[simp] theorem commitMask_fault (e : Engine) (b : Nat × Scores) : (e.commitMask b).fault = e.fault := by simp [Engine.commitMask]
@[simp] theorem commitMask_fcode (e : Engine) (b : Nat × Scores) : (e.commitMask b).fcode = e.fcode := by simp [Engine.commitMask]
@[simp] theorem commitMask_version (e : Engine) (b : Nat × Scores) : (e.commitMask b).version = e.version := by simp [Engine.commitMask]
@[simp] theorem commitMask_ecl (e : Engine) (b : Nat × Scores) : (e.commitMask b).ecl = e.ecl := by simp [Engine.commitMask]
@[simp] theorem commitMask_mask (e : Engine) (b : Nat × Scores) : (e.commitMask b).mask = b.1 := by simp [Engine.commitMask]
@[simp] theorem commitMask_mod (e : Engine) (b : Nat × Scores) : (e.commitMask b).mod = (e.candidate b.1).mod := by simp [Engine.commitMask]
@[simp] theorem commitMask_tag (e : Engine) (b : Nat × Scores) : (e.commitMask b).tag = (e.candidate b.1).tag := by simp [Engine.commitMask]
@[simp] theorem commitMask_ndata (e : Engine) (b : Nat × Scores) : (e.commitMask b).ndata = e.ndata := by simp [Engine.commitMask]
@[simp] theorem commitMask_ecpb (e : Engine) (b : Nat × Scores) : (e.commitMask b).ecpb = e.ecpb := by simp [Engine.commitMask]
@[simp] theorem commitMask_nblk (e : Engine) (b : Nat × Scores) : (e.commitMask b).nblk = e.nblk := by simp [Engine.commitMask]
@[simp] theorem commitMask_olen (e : Engine) (b : Nat × Scores) : (e.commitMask b).olen = e.olen := by simp [Engine.commitMask]
@[simp] theorem commitMask_lena (e : Engine) (b : Nat × Scores) : (e.commitMask b).lena = e.lena := by simp [Engine.commitMask]
@[simp] theorem commitMask_lenb (e : Engine) (b : Nat × Scores) : (e.commitMask b).lenb = e.lenb := by simp [Engine.commitMask]
@[simp] theorem commitMask_lenr (e : Engine) (b : Nat × Scores) : (e.commitMask b).lenr = e.lenr := by simp [Engine.commitMask]
@[simp] theorem commitMask_bufD (e : Engine) (b : Nat × Scores) : (e.commitMask b).bufD = e.bufD := by simp [Engine.commitMask]
@[simp] theorem commitMask_bufO (e : Engine) (b : Nat × Scores) : (e.commitMask b).bufO = e.bufO := by simp [Engine.commitMask]
@[simp] theorem commitMask_bufA (e : Engine) (b : Nat × Scores) : (e.commitMask b).bufA = e.bufA := by simp [Engine.commitMask]
@[simp] theorem commitMask_bufB (e : Engine) (b : Nat × Scores) : (e.commitMask b).bufB = e.bufB := by simp [Engine.commitMask]
@[simp] theorem commitMask_bufR (e : Engine) (b : Nat × Scores) : (e.commitMask b).bufR = e.bufR := by simp [Engine.commitMask]
@[simp] theorem commitMask_walk (e : Engine) (b : Nat × Scores) : (e.commitMask b).walk = e.walk := by simp [Engine.commitMask]
@[simp] theorem commitMask_pen1 (e : Engine) (b : Nat × Scores) : (e.commitMask b).pen1 = b.2.p1 := by simp [Engine.commitMask]
@[simp] theorem commitMask_pen2 (e : Engine) (b : Nat × Scores) : (e.commitMask b).pen2 = b.2.p2 := by simp [Engine.commitMask]
@[simp] theorem commitMask_pen3 (e : Engine) (b : Nat × Scores) : (e.commitMask b).pen3 = b.2.p3 := by simp [Engine.commitMask]
@[simp] theorem commitMask_pen4 (e : Engine) (b : Nat × Scores) : (e.commitMask b).pen4 = b.2.p4 := by simp [Engine.commitMask]
@[simp] theorem commitMask_pent (e : Engine) (b : Nat × Scores) : (e.commitMask b).pent = b.2.total := by simp [Engine.commitMask]
@[simp] theorem commitMask_width (e : Engine) (b : Nat × Scores) : (e.commitMask b).width = e.width := by simp [Engine.commitMask, Engine.width]

/-! ## A new Symbol -/

@[simp] theorem newSymbol_fault (e : Engine) (v : Nat) (lv : Level) : (e.newSymbol v lv).fault = e.fault := rfl
@[simp] theorem newSymbol_fcode (e : Engine) (v : Nat) (lv : Level) : (e.newSymbol v lv).fcode = e.fcode := rfl
@[simp] theorem newSymbol_version (e : Engine) (v : Nat) (lv : Level) : (e.newSymbol v lv).version = v := rfl
@[simp] theorem newSymbol_ecl (e : Engine) (v : Nat) (lv : Level) : (e.newSymbol v lv).ecl = lv := rfl
@[simp] theorem newSymbol_mask (e : Engine) (v : Nat) (lv : Level) : (e.newSymbol v lv).mask = 0 := rfl
@[simp] theorem newSymbol_mod (e : Engine) (v : Nat) (lv : Level) : (e.newSymbol v lv).mod = blankGrid (sideOf v) false := rfl
@[simp] theorem newSymbol_tag (e : Engine) (v : Nat) (lv : Level) : (e.newSymbol v lv).tag = blankGrid (sideOf v) .free := rfl
@[simp] theorem newSymbol_ndata (e : Engine) (v : Nat) (lv : Level) : (e.newSymbol v lv).ndata = e.ndata := rfl
@[simp] theorem newSymbol_ecpb (e : Engine) (v : Nat) (lv : Level) : (e.newSymbol v lv).ecpb = e.ecpb := rfl
@[simp] theorem newSymbol_nblk (e : Engine) (v : Nat) (lv : Level) : (e.newSymbol v lv).nblk = e.nblk := rfl
@[simp] theorem newSymbol_olen (e : Engine) (v : Nat) (lv : Level) : (e.newSymbol v lv).olen = e.olen := rfl
@[simp] theorem newSymbol_lena (e : Engine) (v : Nat) (lv : Level) : (e.newSymbol v lv).lena = e.lena := rfl
@[simp] theorem newSymbol_lenb (e : Engine) (v : Nat) (lv : Level) : (e.newSymbol v lv).lenb = e.lenb := rfl
@[simp] theorem newSymbol_lenr (e : Engine) (v : Nat) (lv : Level) : (e.newSymbol v lv).lenr = e.lenr := rfl
@[simp] theorem newSymbol_bufD (e : Engine) (v : Nat) (lv : Level) : (e.newSymbol v lv).bufD = e.bufD := rfl
@[simp] theorem newSymbol_bufO (e : Engine) (v : Nat) (lv : Level) : (e.newSymbol v lv).bufO = e.bufO := rfl
@[simp] theorem newSymbol_bufA (e : Engine) (v : Nat) (lv : Level) : (e.newSymbol v lv).bufA = e.bufA := rfl
@[simp] theorem newSymbol_bufB (e : Engine) (v : Nat) (lv : Level) : (e.newSymbol v lv).bufB = e.bufB := rfl
@[simp] theorem newSymbol_bufR (e : Engine) (v : Nat) (lv : Level) : (e.newSymbol v lv).bufR = e.bufR := rfl
@[simp] theorem newSymbol_walk (e : Engine) (v : Nat) (lv : Level) : (e.newSymbol v lv).walk = Walker.start (sideOf v) := rfl
@[simp] theorem newSymbol_pen1 (e : Engine) (v : Nat) (lv : Level) : (e.newSymbol v lv).pen1 = 0 := rfl
@[simp] theorem newSymbol_pen2 (e : Engine) (v : Nat) (lv : Level) : (e.newSymbol v lv).pen2 = 0 := rfl
@[simp] theorem newSymbol_pen3 (e : Engine) (v : Nat) (lv : Level) : (e.newSymbol v lv).pen3 = 0 := rfl
@[simp] theorem newSymbol_pen4 (e : Engine) (v : Nat) (lv : Level) : (e.newSymbol v lv).pen4 = 0 := rfl
@[simp] theorem newSymbol_pent (e : Engine) (v : Nat) (lv : Level) : (e.newSymbol v lv).pent = 0 := rfl

/-! ## A buffer -/

@[simp] theorem setBuf_fault (e : Engine) (b : Buf) (m : Memory) : (e.setBuf b m).fault = e.fault := by cases b <;> rfl
@[simp] theorem setBuf_fcode (e : Engine) (b : Buf) (m : Memory) : (e.setBuf b m).fcode = e.fcode := by cases b <;> rfl
@[simp] theorem setBuf_version (e : Engine) (b : Buf) (m : Memory) : (e.setBuf b m).version = e.version := by cases b <;> rfl
@[simp] theorem setBuf_ecl (e : Engine) (b : Buf) (m : Memory) : (e.setBuf b m).ecl = e.ecl := by cases b <;> rfl
@[simp] theorem setBuf_mask (e : Engine) (b : Buf) (m : Memory) : (e.setBuf b m).mask = e.mask := by cases b <;> rfl
@[simp] theorem setBuf_mod (e : Engine) (b : Buf) (m : Memory) : (e.setBuf b m).mod = e.mod := by cases b <;> rfl
@[simp] theorem setBuf_tag (e : Engine) (b : Buf) (m : Memory) : (e.setBuf b m).tag = e.tag := by cases b <;> rfl
@[simp] theorem setBuf_ndata (e : Engine) (b : Buf) (m : Memory) : (e.setBuf b m).ndata = e.ndata := by cases b <;> rfl
@[simp] theorem setBuf_ecpb (e : Engine) (b : Buf) (m : Memory) : (e.setBuf b m).ecpb = e.ecpb := by cases b <;> rfl
@[simp] theorem setBuf_nblk (e : Engine) (b : Buf) (m : Memory) : (e.setBuf b m).nblk = e.nblk := by cases b <;> rfl
@[simp] theorem setBuf_olen (e : Engine) (b : Buf) (m : Memory) : (e.setBuf b m).olen = e.olen := by cases b <;> rfl
@[simp] theorem setBuf_lena (e : Engine) (b : Buf) (m : Memory) : (e.setBuf b m).lena = e.lena := by cases b <;> rfl
@[simp] theorem setBuf_lenb (e : Engine) (b : Buf) (m : Memory) : (e.setBuf b m).lenb = e.lenb := by cases b <;> rfl
@[simp] theorem setBuf_lenr (e : Engine) (b : Buf) (m : Memory) : (e.setBuf b m).lenr = e.lenr := by cases b <;> rfl
@[simp] theorem setBuf_walk (e : Engine) (b : Buf) (m : Memory) : (e.setBuf b m).walk = e.walk := by cases b <;> rfl
@[simp] theorem setBuf_pen1 (e : Engine) (b : Buf) (m : Memory) : (e.setBuf b m).pen1 = e.pen1 := by cases b <;> rfl
@[simp] theorem setBuf_pen2 (e : Engine) (b : Buf) (m : Memory) : (e.setBuf b m).pen2 = e.pen2 := by cases b <;> rfl
@[simp] theorem setBuf_pen3 (e : Engine) (b : Buf) (m : Memory) : (e.setBuf b m).pen3 = e.pen3 := by cases b <;> rfl
@[simp] theorem setBuf_pen4 (e : Engine) (b : Buf) (m : Memory) : (e.setBuf b m).pen4 = e.pen4 := by cases b <;> rfl
@[simp] theorem setBuf_pent (e : Engine) (b : Buf) (m : Memory) : (e.setBuf b m).pent = e.pent := by cases b <;> rfl
@[simp] theorem setBuf_width (e : Engine) (b : Buf) (m : Memory) : (e.setBuf b m).width = e.width := by cases b <;> rfl
@[simp] theorem buf_D (e : Engine) : e.buf .D = e.bufD := rfl
@[simp] theorem buf_O (e : Engine) : e.buf .O = e.bufO := rfl
@[simp] theorem buf_A (e : Engine) : e.buf .A = e.bufA := rfl
@[simp] theorem buf_B (e : Engine) : e.buf .B = e.bufB := rfl
@[simp] theorem buf_R (e : Engine) : e.buf .R = e.bufR := rfl

theorem buf_setBuf (e : Engine) (b c : Buf) (m : Memory) :
    (e.setBuf b m).buf c = if c = b then m else e.buf c := by
  cases b <;> cases c <;> rfl

@[simp] theorem width_of_version_zero {e : Engine} (h : e.version = 0) : e.width = 0 := by simp [Engine.width, h]
theorem width_of_symbol {e : Engine} (h : e.version ≠ 0) : e.width = 17 + 4 * e.version := by
  simp [Engine.width, h, sideOf_eq]

end Sys2Proof.Machine
end

