-- ==== Sys2Proof/Laws/Grid.lean ====
section
/-! SUPPORT. The laws of the cell arrays: read after a replaced cell, dimensions, blank grids, masking. -/

namespace Sys2Proof.Machine

variable {α : Type}

theorem cellAt_setCell (g : Grid α) (r c r' c' : Nat) (v : α) :
    cellAt (setCell g r c v) r' c' =
      if r = r' ∧ c = c' then (cellAt g r' c').map (fun _ => v) else cellAt g r' c' := by
  simp only [cellAt, setCell, List.getElem?_modify]
  rcases g[r']? with _ | row
  · simp
  · by_cases hr : r = r'
    · by_cases hc : c = c'
      · subst hr hc
        simp only [if_true, Option.map_eq_map, Option.map_some, and_self]
        rw [List.getElem?_set_self']
        rfl
      · simp [hr, hc]
    · simp [hr]

theorem setCell_square {w : Nat} {g : Grid α} (h : Square w g) (r c : Nat) (v : α) : Square w (setCell g r c v) := by
  refine ⟨by simp [setCell, h.1], fun row hrow => ?_⟩
  obtain ⟨i, hi, rfl⟩ := List.getElem_of_mem hrow
  have hi' : i < g.length := by simpa [setCell] using hi
  simp only [setCell, List.getElem_modify]
  split
  · simp [h.2 _ (List.getElem_mem hi')]
  · exact h.2 _ (List.getElem_mem hi')

theorem cellAt_blankGrid (w : Nat) (v : α) (r c : Nat) :
    cellAt (blankGrid w v) r c = if r < w ∧ c < w then some v else none := by
  simp only [cellAt, blankGrid, List.getElem?_replicate]
  by_cases hr : r < w <;> by_cases hc : c < w <;> simp [hr, hc]

theorem blankGrid_square (w : Nat) (v : α) : Square w (blankGrid w v) := by
  refine ⟨by simp [blankGrid], fun row h => ?_⟩
  rw [List.eq_of_mem_replicate h, List.length_replicate]

/-- On a square array a cell exists exactly when both coordinates are below the side. -/
theorem cellAt_isSome {w : Nat} {g : Grid α} (h : Square w g) (r c : Nat) :
    (cellAt g r c).isSome = decide (r < w ∧ c < w) := by
  simp only [cellAt]
  by_cases hr : r < g.length
  · rw [List.getElem?_eq_getElem hr]
    have := h.2 _ (List.getElem_mem hr)
    have hr' : r < w := h.1 ▸ hr
    show (g[r][c]?).isSome = _
    by_cases hc : c < w
    · rw [List.getElem?_eq_getElem (by omega)]; simp [hr', hc]
    · rw [List.getElem?_eq_none (by omega)]; simp [hc]
  · rw [List.getElem?_eq_none (by omega)]
    have : ¬ r < w := h.1 ▸ hr
    simp [this]

theorem cellAt_exists {w : Nat} {g : Grid α} (h : Square w g) {r c : Nat} (hr : r < w) (hc : c < w) :
    ∃ x, cellAt g r c = some x := by
  have := cellAt_isSome h r c
  simp only [hr, hc, and_self, decide_true] at this
  exact Option.isSome_iff_exists.1 this

theorem cellAt_none_of_out {w : Nat} {g : Grid α} (h : Square w g) {r c : Nat} (ho : ¬ (r < w ∧ c < w)) :
    cellAt g r c = none := by
  have := cellAt_isSome h r c
  rw [decide_eq_false ho] at this
  exact Option.not_isSome_iff_eq_none.1 (by simp [this])

/-- A square array is determined by its cells. -/
theorem grid_ext {w : Nat} {g g' : Grid α} (h : Square w g) (h' : Square w g')
    (hc : ∀ r c, cellAt g r c = cellAt g' r c) : g = g' := by
  refine List.ext_getElem (by rw [h.1, h'.1]) fun r h1 h2 => ?_
  refine List.ext_getElem (by rw [h.2 _ (List.getElem_mem h1), h'.2 _ (List.getElem_mem h2)]) fun c h3 h4 => ?_
  have := hc r c
  simpa [cellAt, h1, h2, h3, h4] using this

/-! ## Stamps -/

/-- The last stamp on the cell, if any. -/
def lastStamp (ps : List Stamp) (r c : Nat) : Option Stamp :=
  match ps with
  | [] => none
  | p :: ps =>
    match lastStamp ps r c with
    | some q => some q
    | none => if p.row = r ∧ p.col = c then some p else none

theorem cellAt_mod_stampAll (ps : List Stamp) (e : Engine) (r c : Nat) :
    cellAt (e.stampAll ps).mod r c =
      (cellAt e.mod r c).map (fun x => match lastStamp ps r c with | some p => p.dark | none => x) := by
  induction ps generalizing e with
  | nil => simp [lastStamp]
  | cons p ps ih =>
    rw [stampAll_cons, ih, stamp_mod, cellAt_setCell]
    simp only [lastStamp]
    rcases lastStamp ps r c with _ | q <;> by_cases hp : p.row = r ∧ p.col = c <;>
      simp only [hp, if_true, if_false, Option.map_map, and_self] <;> rfl

theorem cellAt_tag_stampAll (ps : List Stamp) (e : Engine) (r c : Nat) :
    cellAt (e.stampAll ps).tag r c =
      (cellAt e.tag r c).map (fun x => match lastStamp ps r c with | some p => p.tag | none => x) := by
  induction ps generalizing e with
  | nil => simp [lastStamp]
  | cons p ps ih =>
    rw [stampAll_cons, ih, stamp_tag, cellAt_setCell]
    simp only [lastStamp]
    rcases lastStamp ps r c with _ | q <;> by_cases hp : p.row = r ∧ p.col = c <;>
      simp only [hp, if_true, if_false, Option.map_map, and_self] <;> rfl

theorem stampAll_square {w : Nat} (ps : List Stamp) {e : Engine} (hm : Square w e.mod) (ht : Square w e.tag) :
    Square w (e.stampAll ps).mod ∧ Square w (e.stampAll ps).tag := by
  induction ps generalizing e with
  | nil => exact ⟨hm, ht⟩
  | cons p ps ih => exact ih (setCell_square hm ..) (setCell_square ht ..)

/-! ## Masking -/

theorem maskRow_length (m y x : Nat) (tags : List Tag) (mods : List Bool) :
    (maskRow m y x tags mods).length = mods.length := by
  induction tags generalizing x mods with
  | nil => cases mods <;> simp [maskRow]
  | cons t tags ih => cases mods <;> simp [maskRow, ih]

theorem maskRow_getElem? (m y x : Nat) (tags : List Tag) (mods : List Bool) (c : Nat) :
    (maskRow m y x tags mods)[c]? =
      mods[c]?.map (fun b => if tags[c]? = some .free ∧ maskhit m y (x + c) = true then !b else b) := by
  induction tags generalizing x mods c with
  | nil => cases mods <;> simp [maskRow]
  | cons t tags ih =>
    cases mods with
    | nil => simp [maskRow]
    | cons b mods =>
      cases c with
      | zero => simp [maskRow]
      | succ c => simp [maskRow, ih, Nat.add_assoc, Nat.add_comm 1 c]

theorem maskRows_cellAt (m y : Nat) (tag : Grid Tag) (mod : Grid Bool) (r c : Nat) :
    cellAt (maskRows m y tag mod) r c =
      (cellAt mod r c).map
        (fun b => if cellAt tag r c = some .free ∧ maskhit m (y + r) c = true then !b else b) := by
  induction tag generalizing y mod r with
  | nil => cases mod <;> simp [maskRows, cellAt]
  | cons tags tag ih =>
    cases mod with
    | nil => simp [maskRows, cellAt]
    | cons mods mod =>
      cases r with
      | zero => simp [maskRows, cellAt, maskRow_getElem?]
      | succ r =>
        have h := ih (y + 1) mod r
        rw [show y + 1 + r = y + (r + 1) by omega] at h
        exact h

theorem maskRows_square {w : Nat} (m y : Nat) (tag : Grid Tag) {mod : Grid Bool} (h : Square w mod) :
    Square w (maskRows m y tag mod) := by
  have hl : (maskRows m y tag mod).length = mod.length ∧
      ∀ row ∈ maskRows m y tag mod, ∃ row' ∈ mod, row.length = row'.length := by
    clear h
    induction tag generalizing y mod with
    | nil => cases mod <;> exact ⟨rfl, fun row h => ⟨row, h, rfl⟩⟩
    | cons tags tag ih =>
      cases mod with
      | nil => simp [maskRows]
      | cons mods mod =>
        have := ih (y + 1) (mod := mod)
        refine ⟨by simp [maskRows, this.1], fun row hrow => ?_⟩
        simp only [maskRows, List.mem_cons] at hrow
        rcases hrow with rfl | hrow
        · exact ⟨mods, by simp, maskRow_length ..⟩
        · obtain ⟨r', h1, h2⟩ := this.2 row hrow
          exact ⟨r', by simp [h1], h2⟩
  refine ⟨hl.1.trans h.1, fun row hrow => ?_⟩
  obtain ⟨r', h1, h2⟩ := hl.2 row hrow
  rw [h2, h.2 _ h1]

end Sys2Proof.Machine
end

