-- ==== Sys2Proof/Laws/Memory.lean ====
section
/-! SUPPORT. The laws of the byte buffers: read after write and after fill, and that every operation keeps the canonical
form and the capacity. -/

namespace Sys2Proof.Machine

theorem memRead_memWrite (m : Memory) (i j : Nat) (v : Byte) :
    memRead (memWrite m i v) j = if j = i then some v else memRead m j := by
  induction m with
  | nil => simp [memWrite, memRead, eq_comm]
  | cons x rest ih =>
    obtain ⟨a, b⟩ := x
    simp only [memWrite]
    split
    · simp [memRead, eq_comm]
    · split
      · subst_vars; simp only [memRead, eq_comm]; split <;> simp_all
      · simp only [memRead, ih]
        split
        · subst_vars; rw [if_neg (by omega)]
        · rfl

theorem mem_memWrite {m : Memory} {i : Nat} {v : Byte} {x : Host.Cell} (h : x ∈ memWrite m i v) :
    x = (i, v) ∨ x ∈ m := by
  induction m with
  | nil => simpa [memWrite] using h
  | cons y rest ih =>
    obtain ⟨a, b⟩ := y
    simp only [memWrite] at h
    split at h
    · simpa using h
    · split at h
      · simp only [List.mem_cons] at h ⊢; tauto
      · simp only [List.mem_cons] at h ⊢
        rcases h with h | h
        · exact .inr (.inl h)
        · rcases ih h with h | h <;> simp [h]

/-- A write keeps the canonical form. -/
theorem memWrite_wf {m : Memory} (i : Nat) (v : Byte) (h : m.wf) : (memWrite m i v).wf := by
  induction m with
  | nil => exact List.pairwise_singleton ..
  | cons x rest ih =>
    obtain ⟨a, b⟩ := x
    have h' := List.pairwise_cons.1 h
    simp only [memWrite]
    split
    · refine List.pairwise_cons.2 ⟨fun y hy => ?_, h⟩
      rcases List.mem_cons.1 hy with rfl | hy
      · assumption
      · have := h'.1 y hy; simp only at this ⊢; omega
    · split
      · subst_vars; exact List.pairwise_cons.2 h'
      · refine List.pairwise_cons.2 ⟨fun y hy => ?_, ih h'.2⟩
        rcases mem_memWrite hy with rfl | hy
        · simp only; omega
        · exact h'.1 y hy

/-- A write within the capacity keeps the buffer within it. -/
theorem memWrite_within {m : Memory} {cap i : Nat} (v : Byte) (h : m.within cap) (hi : i < cap) :
    (memWrite m i v).within cap := by
  intro x hx
  rcases mem_memWrite hx with rfl | hx
  · exact hi
  · exact h x hx

theorem mem_cellsFrom {vs : List Byte} {i : Nat} {x : Host.Cell} (h : x ∈ cellsFrom i vs) :
    i ≤ x.1 ∧ x.1 < i + vs.length := by
  induction vs generalizing i with
  | nil => simp [cellsFrom] at h
  | cons v vs ih =>
    simp only [cellsFrom, List.mem_cons] at h
    rcases h with rfl | h
    · simp
    · have := ih h; simp only [List.length_cons]; omega

theorem cellsFrom_wf (vs : List Byte) (i : Nat) : (cellsFrom i vs).Pairwise (fun x y => x.1 < y.1) := by
  induction vs generalizing i with
  | nil => exact .nil
  | cons v vs ih =>
    refine List.pairwise_cons.2 ⟨fun y hy => ?_, ih _⟩
    have := (mem_cellsFrom hy).1
    simp only; omega

theorem memRead_cellsFrom_append (vs : List Byte) (i j : Nat) (m : Memory) :
    memRead (cellsFrom i vs ++ m) j =
      if i ≤ j ∧ j < i + vs.length then vs[j - i]? else memRead m j := by
  induction vs generalizing i with
  | nil => rw [if_neg (by simp only [List.length_nil]; omega)]; rfl
  | cons v vs ih =>
    simp only [cellsFrom, List.cons_append, memRead, ih, List.length_cons]
    by_cases h : i = j
    · subst h; simp
    · rw [if_neg h]
      by_cases h2 : i ≤ j ∧ j < i + (vs.length + 1)
      · rw [if_pos h2, if_pos (by omega), show j - i = (j - (i + 1)) + 1 by omega]; simp
      · rw [if_neg h2, if_neg (by omega)]

theorem memRead_filter_ge (m : Memory) (n j : Nat) (h : n ≤ j) :
    memRead (m.filter (fun x => decide (n ≤ x.1))) j = memRead m j := by
  induction m with
  | nil => rfl
  | cons x rest ih =>
    obtain ⟨a, b⟩ := x
    simp only [List.filter_cons]
    split
    · simp only [memRead, ih]
    · rename_i hx
      simp only [decide_eq_true_eq, not_le] at hx
      rw [ih, memRead, if_neg (by omega)]

/-- After a fill the filled indices hold the stored values and every other index what it held. -/
theorem memRead_memFill (m : Memory) (vs : List Byte) (j : Nat) :
    memRead (memFill m vs) j = if j < vs.length then vs[j]? else memRead m j := by
  rw [memFill, memRead_cellsFrom_append]
  by_cases h : j < vs.length
  · rw [if_pos h, if_pos (by omega)]; simp
  · rw [if_neg h, if_neg (by omega), memRead_filter_ge _ _ _ (by omega)]

/-- A fill keeps the canonical form. -/
theorem memFill_wf {m : Memory} (vs : List Byte) (h : m.wf) : (memFill m vs).wf := by
  refine List.pairwise_append.2 ⟨cellsFrom_wf _ _, List.Pairwise.filter _ h, fun x hx y hy => ?_⟩
  have h1 := (mem_cellsFrom hx).2
  have h2 := (List.mem_filter.1 hy).2
  simp only [decide_eq_true_eq] at h2
  omega

/-- A fill of at most `cap` values keeps the buffer within its capacity. -/
theorem memFill_within {m : Memory} {cap : Nat} {vs : List Byte} (h : m.within cap) (hv : vs.length ≤ cap) :
    (memFill m vs).within cap := by
  intro x hx
  rcases List.mem_append.1 hx with hx | hx
  · have := (mem_cellsFrom hx).2; omega
  · exact h x (List.mem_filter.1 hx).1

@[simp] theorem memSlots_length (m : Memory) (lo n : Nat) : (memSlots m lo n).length = n := by simp [memSlots]

theorem memSlots_getElem? (m : Memory) (lo n i : Nat) (h : i < n) : (memSlots m lo n)[i]? = some (memRead m (lo + i)) := by
  simp [memSlots, h]

/-- The elements of a range that holds `vs` are those bytes, all written. -/
theorem memSlots_of_reads {m : Memory} {lo : Nat} {vs : List Byte}
    (h : ∀ i, i < vs.length → memRead m (lo + i) = vs[i]?) : memSlots m lo vs.length = vs.map some := by
  refine List.ext_getElem (by simp) fun i h1 h2 => ?_
  have hi : i < vs.length := by simpa using h1
  simp [memSlots, h i hi, hi]

end Sys2Proof.Machine
end

