-- ==== Sys2Proof/Laws/Ops.lean ====
section
/-! SUPPORT. What the shared operations can do, said once: the responses, the entry checks, the reads of bytes that may be
unwritten. Later proofs cite these and do not unfold the operations. -/

namespace Sys2Proof.Machine

variable {k : State → Result} {s t : State}

/-! ## Responses -/

@[simp] theorem respond_next {err : Err} {val : Word} :
    respond err val s = .next t ↔ t = { s with resp := some { err := err, val := val } } := by
  simp [respond, eq_comm]

/-- `t` is `s` with the response of a typed error: the engine, the inputs and the parameters are those of `s`. Draws made
before the error stay counted (log 12). -/
def TurnedAway (s t : State) : Prop :=
  ∃ err d, Err.typed err = true ∧ t = { s with resp := some { err := err, val := 0 }, draws := d }

theorem typedError_next {err : Err} (h : err.typed = true) (ht : typedError err s = .next t) : TurnedAway s t :=
  ⟨err, s.draws, h, respond_next.1 ht⟩

theorem TurnedAway.of_draws {d : Nat} (h : TurnedAway { s with draws := d } t) : TurnedAway s t := by
  obtain ⟨err, d', hd, rfl⟩ := h
  exact ⟨err, d', hd, rfl⟩

/-! ## Entry checks -/

theorem gate_serving (h : s.eng.fault = false) : gate k s = k s := by simp [gate, h]
theorem gate_faulted (h : s.eng.fault = true) : gate k s = typedError .faulted s := by simp [gate, h]

theorem gate_next (h : gate k s = .next t) :
    TurnedAway s t ∨ (s.eng.fault = false ∧ k s = .next t) := by
  by_cases hf : s.eng.fault = true
  · exact .inl (typedError_next rfl (gate_faulted hf ▸ h))
  · rw [Bool.not_eq_true] at hf
    rw [gate_serving hf] at h
    exact .inr ⟨hf, h⟩

theorem needSymbol_some (h : s.eng.version ≠ 0) : needSymbol k s = k s := by simp [needSymbol, h]
theorem needSymbol_none (h : s.eng.version = 0) : needSymbol k s = typedError .noSym s := by simp [needSymbol, h]

theorem needSymbol_next (h : needSymbol k s = .next t) :
    TurnedAway s t ∨ (s.eng.version ≠ 0 ∧ k s = .next t) := by
  by_cases hv : s.eng.version = 0
  · exact .inl (typedError_next rfl (needSymbol_none hv ▸ h))
  · rw [needSymbol_some hv] at h
    exact .inr ⟨hv, h⟩

@[simp] theorem require_true (err : Err) : require true err k s = k s := rfl
@[simp] theorem require_false (err : Err) : require false err k s = typedError err s := rfl

theorem require_next {c : Bool} {err : Err} (he : err.typed = true) (h : require c err k s = .next t) :
    TurnedAway s t ∨ (c = true ∧ k s = .next t) := by
  cases c
  · exact .inl (typedError_next he h)
  · exact .inr ⟨rfl, h⟩

/-! ## Reads of bytes that may be unwritten -/

theorem drawBytes_length {p : UnwrittenRead} {d d' : Nat} {slots : List (Option Byte)} {bs : List Byte}
    (h : drawBytes p d slots = some (bs, d')) : bs.length = slots.length := by
  induction slots generalizing d bs with
  | nil => simp only [drawBytes, Option.some.injEq, Prod.mk.injEq] at h; obtain ⟨rfl, _⟩ := h; rfl
  | cons x slots ih =>
    cases x with
    | some b =>
      simp only [drawBytes] at h
      split at h
      · rename_i bs' d'' h'
        simp only [Option.some.injEq, Prod.mk.injEq] at h
        rw [← h.1, List.length_cons, List.length_cons, ih (h.2 ▸ h')]
      · cases h
    | none =>
      cases p with
      | refuse => cases h
      | anyValue =>
        simp only [drawBytes] at h
        split at h
        · rename_i bs' d'' h'
          simp only [Option.some.injEq, Prod.mk.injEq] at h
          rw [← h.1, List.length_cons, List.length_cons, ih (h.2 ▸ h')]
        · cases h

/-- A written element is read as the byte it holds. -/
theorem drawBytes_getElem {p : UnwrittenRead} {d d' : Nat} {slots : List (Option Byte)} {bs : List Byte}
    (h : drawBytes p d slots = some (bs, d')) {i : Nat} {b : Byte} (hi : slots[i]? = some (some b)) :
    bs[i]? = some b := by
  induction slots generalizing d bs i with
  | nil => simp at hi
  | cons x slots ih =>
    cases x with
    | some c =>
      simp only [drawBytes] at h
      split at h
      · rename_i bs' d'' h'
        simp only [Option.some.injEq, Prod.mk.injEq] at h
        rw [← h.1]
        cases i with
        | zero => simpa using hi
        | succ i => simpa using ih (h.2 ▸ h') (by simpa using hi)
      · cases h
    | none =>
      cases p with
      | refuse => cases h
      | anyValue =>
        simp only [drawBytes] at h
        split at h
        · rename_i bs' d'' h'
          simp only [Option.some.injEq, Prod.mk.injEq] at h
          rw [← h.1]
          cases i with
          | zero => simp at hi
          | succ i => simpa using ih (h.2 ▸ h') (by simpa using hi)
        · cases h

theorem drawBytes_written (p : UnwrittenRead) (d : Nat) (vs : List Byte) :
    drawBytes p d (vs.map some) = some (vs, d) := by
  induction vs with
  | nil => rfl
  | cons v vs ih => simp [drawBytes, ih]

/-- Under `anyValue` a read always goes on. -/
theorem drawBytes_anyValue (d : Nat) (slots : List (Option Byte)) :
    ∃ bs d', drawBytes .anyValue d slots = some (bs, d') := by
  induction slots generalizing d with
  | nil => exact ⟨[], d, rfl⟩
  | cons x slots ih =>
    cases x with
    | some b => obtain ⟨bs, d', h⟩ := ih d; exact ⟨b :: bs, d', by simp [drawBytes, h]⟩
    | none => obtain ⟨bs, d', h⟩ := ih (d + 1); exact ⟨Config.freeByte d :: bs, d', by simp [drawBytes, h]⟩

/-- A read stops only under `refuse` and only on an unwritten element. -/
theorem drawBytes_none {p : UnwrittenRead} {d : Nat} {slots : List (Option Byte)}
    (h : drawBytes p d slots = none) : p = .refuse ∧ none ∈ slots := by
  cases p with
  | anyValue => obtain ⟨bs, d', h'⟩ := drawBytes_anyValue d slots; rw [h'] at h; cases h
  | refuse =>
    refine ⟨rfl, ?_⟩
    induction slots generalizing d with
    | nil => cases h
    | cons x slots ih =>
      cases x with
      | none => simp
      | some b =>
        simp only [drawBytes] at h
        split at h
        · cases h
        · rename_i h'
          exact List.mem_cons_of_mem _ (ih h')

/-- Under `refuse` an unwritten element stops the read. -/
theorem drawBytes_refuse {d : Nat} {slots : List (Option Byte)} (h : none ∈ slots) :
    drawBytes .refuse d slots = none := by
  induction slots generalizing d with
  | nil => simp at h
  | cons x slots ih =>
    cases x with
    | none => rfl
    | some b => simp only [drawBytes, ih (by simpa using h)]

variable {b : Buf} {lo n : Nat} {kb : List Byte → State → Result}

/-- A read of written bytes goes on with them and draws nothing. -/
theorem readBytes_holds {vs : List Byte} (h : Holds s.eng b lo vs) : readBytes b lo vs.length kb s = kb vs s := by
  rw [readBytes, memSlots_of_reads h, drawBytes_written]

theorem readBytes_next (h : readBytes b lo n kb s = .next t) :
    ∃ bs d, bs.length = n ∧ (∀ i v, i < n → memRead (s.eng.buf b) (lo + i) = some v → bs[i]? = some v)
      ∧ kb bs { s with draws := d } = .next t := by
  rw [readBytes] at h
  split at h
  · rename_i bs d hd
    refine ⟨bs, d, by simpa using drawBytes_length hd, fun i v hi hv => drawBytes_getElem hd ?_, h⟩
    rw [memSlots_getElem? _ _ _ _ hi, hv]
  · cases h

theorem readBytes_cases :
    (∃ bs d, bs.length = n ∧ readBytes b lo n kb s = kb bs { s with draws := d }) ∨
    (s.cfg.unwritten = .refuse ∧ readBytes b lo n kb s = .refused (.unwrittenByte b)) := by
  rw [readBytes]
  split
  · rename_i bs d hd
    exact .inl ⟨bs, d, by simpa using drawBytes_length hd, rfl⟩
  · rename_i hd
    exact .inr ⟨(drawBytes_none hd).1, rfl⟩

/-- Under `anyValue` a read goes on with bytes of which the written ones are those the buffer holds. -/
theorem readBytes_anyValue (h : s.cfg.unwritten = .anyValue) :
    ∃ bs d, bs.length = n ∧ (∀ i v, i < n → memRead (s.eng.buf b) (lo + i) = some v → bs[i]? = some v)
      ∧ readBytes b lo n kb s = kb bs { s with draws := d } := by
  obtain ⟨bs, d, hd⟩ := drawBytes_anyValue s.draws (memSlots (s.eng.buf b) lo n)
  refine ⟨bs, d, by simpa using drawBytes_length hd, fun i v hi hv => drawBytes_getElem hd ?_, ?_⟩
  · rw [memSlots_getElem? _ _ _ _ hi, hv]
  · rw [readBytes, config_unwritten, h, hd]

/-- Under `refuse` a read of an unwritten byte is refused. -/
theorem readBytes_refused (h : s.cfg.unwritten = .refuse) {i : Nat} (hi : i < n)
    (hu : memRead (s.eng.buf b) (lo + i) = none) : readBytes b lo n kb s = .refused (.unwrittenByte b) := by
  rw [readBytes, config_unwritten, h, drawBytes_refuse]
  have := memSlots_getElem? (s.eng.buf b) lo n i hi
  rw [hu] at this
  exact List.mem_of_getElem? this

end Sys2Proof.Machine
end

