-- ==== Sys2Proof/Laws/Exec.lean ====
section
/-! SUPPORT. What each command can do when it answers, said once per command: it is turned away by a typed error
(TurnedAway), or its checks held and the next state is the one given. Frames, invariants and whole-machine rules follow
from these by cases. -/

namespace Sys2Proof.Machine

variable {s t : State}

/-- `t` is `s` after the command left the engine in `e` and answered (OK, v); `d` free bytes are drawn so far. -/
def Answered (s t : State) (e : Engine) (v d : Nat) : Prop :=
  t = { s with eng := e, resp := some { err := .ok, val := zext32 v }, draws := d }

/-- `t` is `s` after the fatal fault of a walk that left the engine in `e`. -/
def Overflowed (s t : State) (e : Engine) (d : Nat) : Prop :=
  t = { s with
    eng := { e with fault := true, fcode := 8 }, resp := some { err := .overflow, val := 0 }, draws := d }

theorem TurnedAway.eng (h : TurnedAway s t) : t.eng = s.eng := by
  obtain ⟨_, _, _, rfl⟩ := h; rfl

theorem Answered.eng {e : Engine} {v d : Nat} (h : Answered s t e v d) : t.eng = e := by rw [h]

theorem Overflowed.eng {e : Engine} {d : Nat} (h : Overflowed s t e d) :
    t.eng = { e with fault := true, fcode := 8 } := by rw [h]

theorem succeed_next {e : Engine} {v d : Nat}
    (h : succeed v { s with eng := e, draws := d } = .next t) : Answered s t e v d := respond_next.1 h

/-! ## Interface -/

theorem execNop_next (h : execNop s = .next t) : Answered s t s.eng 0 s.draws := respond_next.1 h

theorem execReset_next (h : execReset s = .next t) : Answered s t Engine.reset 0 s.draws := respond_next.1 h

theorem execRdreg_next {n : Nat} (h : execRdreg n s = .next t) :
    TurnedAway s t ∨ (n ≤ lastReg ∧ Answered s t s.eng (s.eng.reg n) s.draws) := by
  rcases require_next rfl h with h | ⟨hn, h⟩
  · exact .inl h
  · exact .inr ⟨of_decide_eq_true hn, respond_next.1 h⟩

theorem execSymnew_next {v : Nat} {lv : Level} (h : execSymnew v lv s = .next t) :
    TurnedAway s t ∨ (1 ≤ v ∧ v ≤ vmax ∧ Answered s t (s.eng.newSymbol v lv) (sideOf v) s.draws) := by
  rcases gate_next h with h | ⟨-, h⟩
  · exact .inl h
  rcases require_next rfl h with h | ⟨hn, h⟩
  · exact .inl h
  · exact .inr ⟨(of_decide_eq_true hn).1, (of_decide_eq_true hn).2, respond_next.1 h⟩

theorem execBwr_next {buf idx : Nat} {byte : Byte} (h : execBwr buf idx byte s = .next t) :
    TurnedAway s t ∨ ∃ b, bufOfCode buf = some b ∧ hostWritable b = true ∧ idx < b.capacity ∧
      Answered s t (s.eng.setBuf b (memWrite (s.eng.buf b) idx byte)) 0 s.draws := by
  rcases gate_next h with h | ⟨-, h⟩
  · exact .inl h
  split at h
  · exact .inl (typedError_next rfl h)
  · rename_i b hb
    rcases require_next rfl h with h | ⟨hc, h⟩
    · exact .inl h
    · simp only [Bool.and_eq_true, decide_eq_true_eq] at hc
      exact .inr ⟨b, hb, hc.1, hc.2, respond_next.1 h⟩

theorem execBrd_next {buf idx : Nat} (h : execBrd buf idx s = .next t) :
    TurnedAway s t ∨ ∃ b v d, bufOfCode buf = some b ∧ idx < s.eng.readable b ∧
      (∀ x, memRead (s.eng.buf b) idx = some x → v = x.toNat) ∧ Answered s t s.eng v d := by
  rcases gate_next h with h | ⟨-, h⟩
  · exact .inl h
  split at h
  · exact .inl (typedError_next rfl h)
  · rename_i b hb
    rcases require_next rfl h with h | ⟨hc, h⟩
    · exact .inl h
    · obtain ⟨bs, d, hl, hv, h⟩ := readBytes_next h
      refine .inr ⟨b, (bs.headD 0).toNat, d, hb, of_decide_eq_true hc, fun x hx => ?_, respond_next.1 h⟩
      have := hv 0 x (by omega) (by simpa using hx)
      rw [List.headD_eq_head?_getD, List.head?_eq_getElem?, this]
      rfl

theorem execBlen_next {buf n : Nat} (h : execBlen buf n s = .next t) :
    TurnedAway s t ∨ (bufOfCode buf = some .A ∧ n ≤ 256 ∧ Answered s t { s.eng with lena := n } 0 s.draws) ∨
      (bufOfCode buf = some .B ∧ n ≤ 256 ∧ Answered s t { s.eng with lenb := n } 0 s.draws) := by
  rcases gate_next h with h | ⟨-, h⟩
  · exact .inl h
  split at h
  · rename_i hb
    rcases require_next rfl h with h | ⟨hc, h⟩
    · exact .inl h
    · exact .inr (.inl ⟨hb, of_decide_eq_true hc, respond_next.1 h⟩)
  · rename_i hb
    rcases require_next rfl h with h | ⟨hc, h⟩
    · exact .inl h
    · exact .inr (.inr ⟨hb, of_decide_eq_true hc, respond_next.1 h⟩)
  · exact .inl (typedError_next rfl h)

theorem execMrd_next {row col : Nat} (h : execMrd row col s = .next t) :
    TurnedAway s t ∨ (s.eng.version ≠ 0 ∧ row < s.eng.width ∧ col < s.eng.width ∧
      Answered s t s.eng (256 * (s.eng.tagAt row col).code + (s.eng.modAt row col).toNat) s.draws) := by
  rcases gate_next h with h | ⟨-, h⟩
  · exact .inl h
  rcases needSymbol_next h with h | ⟨hv, h⟩
  · exact .inl h
  rcases require_next rfl h with h | ⟨hc, h⟩
  · exact .inl h
  · exact .inr ⟨hv, (of_decide_eq_true hc).1, (of_decide_eq_true hc).2, respond_next.1 h⟩

/-! ## GF(256) scalar unit, format and version words -/

theorem gate_succeed_next {v : Nat} (h : gate (succeed v) s = .next t) :
    TurnedAway s t ∨ Answered s t s.eng v s.draws := by
  rcases gate_next h with h | ⟨-, h⟩
  · exact .inl h
  · exact .inr (respond_next.1 h)

theorem gate_require_succeed_next {c : Bool} {err : Err} {v : Nat} (he : err.typed = true)
    (h : gate (require c err (succeed v)) s = .next t) :
    TurnedAway s t ∨ (c = true ∧ Answered s t s.eng v s.draws) := by
  rcases gate_next h with h | ⟨-, h⟩
  · exact .inl h
  rcases require_next he h with h | ⟨hc, h⟩
  · exact .inl h
  · exact .inr ⟨hc, respond_next.1 h⟩

theorem execGfadd_next {a b : Byte} (h : execGfadd a b s = .next t) :
    TurnedAway s t ∨ Answered s t s.eng (gfadd a b).toNat s.draws := gate_succeed_next h

theorem execGfmul_next {a b : Byte} (h : execGfmul a b s = .next t) :
    TurnedAway s t ∨ Answered s t s.eng (gfmul a b).toNat s.draws := gate_succeed_next h

theorem execGfdiv_next {a b : Byte} (h : execGfdiv a b s = .next t) :
    TurnedAway s t ∨ (b ≠ 0 ∧ Answered s t s.eng (gfdiv a b).toNat s.draws) := by
  simpa using gate_require_succeed_next rfl h

theorem execGfexp_next {n : Nat} (h : execGfexp n s = .next t) :
    TurnedAway s t ∨ Answered s t s.eng (expTable n).toNat s.draws := gate_succeed_next h

theorem execGflog_next {n : Byte} (h : execGflog n s = .next t) :
    TurnedAway s t ∨ (n ≠ 0 ∧ Answered s t s.eng (logTable n) s.draws) := by
  simpa using gate_require_succeed_next rfl h

theorem execFmtword_next {lv : Level} {m : Nat} (h : execFmtword lv m s = .next t) :
    TurnedAway s t ∨ Answered s t s.eng (fmtword lv m).toNat s.draws := gate_succeed_next h

theorem execVerword_next {v : Nat} (h : execVerword v s = .next t) :
    TurnedAway s t ∨ Answered s t s.eng (verword v).toNat s.draws := gate_succeed_next h

/-! ## Polynomial unit -/

theorem execGenld_next {n : Nat} (h : execGenld n s = .next t) :
    TurnedAway s t ∨ (n ≤ gmax ∧
      Answered s t { s.eng with bufB := memFill s.eng.bufB (genTable n), lenb := n + 1 } (n + 1) s.draws) := by
  rcases gate_next h with h | ⟨-, h⟩
  · exact .inl h
  rcases require_next rfl h with h | ⟨hc, h⟩
  · exact .inl h
  · exact .inr ⟨of_decide_eq_true hc, respond_next.1 h⟩

theorem storeR_next {r : List Byte} (h : storeR r s = .next t) :
    Answered s t { s.eng with bufR := memFill s.eng.bufR r, lenr := r.length } r.length s.draws := respond_next.1 h

theorem execPmul_next (h : execPmul s = .next t) :
    TurnedAway s t ∨ ∃ p q d, p.length = s.eng.lena ∧ q.length = s.eng.lenb ∧ 1 ≤ s.eng.lena ∧ 1 ≤ s.eng.lenb ∧
      s.eng.lena + s.eng.lenb - 1 ≤ 256 ∧
      Answered s t { s.eng with bufR := memFill s.eng.bufR (polymul p q), lenr := (polymul p q).length }
        (polymul p q).length d := by
  rcases gate_next h with h | ⟨-, h⟩
  · exact .inl h
  rcases require_next rfl h with h | ⟨hl, h⟩
  · exact .inl h
  rcases require_next rfl h with h | ⟨hc, h⟩
  · exact .inl h
  obtain ⟨p, d1, hp, -, h⟩ := readBytes_next h
  obtain ⟨q, d2, hq, -, h⟩ := readBytes_next h
  have h := storeR_next h
  exact .inr ⟨p, q, d2, hp, hq, (of_decide_eq_true hl).1, (of_decide_eq_true hl).2, of_decide_eq_true hc, h⟩

theorem execPrem_next (h : execPrem s = .next t) :
    TurnedAway s t ∨ ∃ p q d, p.length = s.eng.lena ∧ q.length = s.eng.lenb ∧ 1 ≤ s.eng.lenb ∧ q.headD 0 ≠ 0 ∧
      Answered s t { s.eng with bufR := memFill s.eng.bufR (polyrem p q), lenr := (polyrem p q).length }
        (polyrem p q).length d := by
  rcases gate_next h with h | ⟨-, h⟩
  · exact .inl h
  rcases require_next rfl h with h | ⟨hl, h⟩
  · exact .inl h
  obtain ⟨lead, d0, -, -, h⟩ := readBytes_next h
  rcases require_next rfl h with h | ⟨hc, h⟩
  · exact .inl h.of_draws
  obtain ⟨p, d1, hp, -, h⟩ := readBytes_next h
  obtain ⟨rest, d2, hr, -, h⟩ := readBytes_next h
  have h := storeR_next h
  have hl := of_decide_eq_true hl
  refine .inr ⟨p, lead.headD 0 :: rest, d2, hp, ?_, hl, of_decide_eq_true hc, h⟩
  rw [List.length_cons, hr]; omega

/-! ## Reed-Solomon unit -/

theorem execRscfg_next {ndata nblk ecpb : Nat} (h : execRscfg ndata nblk ecpb s = .next t) :
    TurnedAway s t ∨ (1 ≤ nblk ∧ ecpb ≤ gmax ∧ nblk ≤ ndata ∧ ndata + ecpb * nblk ≤ 4096 ∧
      Answered s t { s.eng with ndata := ndata, nblk := nblk, ecpb := ecpb } (ndata + ecpb * nblk) s.draws) := by
  rcases gate_next h with h | ⟨-, h⟩
  · exact .inl h
  rcases require_next rfl h with h | ⟨h1, h⟩
  · exact .inl h
  rcases require_next rfl h with h | ⟨h2, h⟩
  · exact .inl h
  rcases require_next rfl h with h | ⟨h3, h⟩
  · exact .inl h
  rcases require_next rfl h with h | ⟨h4, h⟩
  · exact .inl h
  · exact .inr ⟨of_decide_eq_true h1, of_decide_eq_true h2, of_decide_eq_true h3, of_decide_eq_true h4,
      respond_next.1 h⟩

theorem execRsenc_next (h : execRsenc s = .next t) :
    TurnedAway s t ∨ ∃ data d, data.length = s.eng.ndata ∧ 1 ≤ s.eng.nblk ∧
      Answered s t
        { s.eng with
          bufO := memFill s.eng.bufO (rsStream data s.eng.ndata s.eng.ecpb s.eng.nblk),
          olen := s.eng.ndata + s.eng.ecpb * s.eng.nblk }
        (s.eng.ndata + s.eng.ecpb * s.eng.nblk) d := by
  rcases gate_next h with h | ⟨-, h⟩
  · exact .inl h
  rcases require_next rfl h with h | ⟨hl, h⟩
  · exact .inl h
  obtain ⟨data, d, hd, -, h⟩ := readBytes_next h
  exact .inr ⟨data, d, hd, of_decide_eq_true hl, respond_next.1 h⟩

/-! ## Placer -/

theorem place_next {ps : State → List Stamp} (h : place ps s = .next t) :
    TurnedAway s t ∨ (s.eng.version ≠ 0 ∧ Answered s t (s.eng.stampAll (ps s)) 0 s.draws) := by
  rcases gate_next h with h | ⟨-, h⟩
  · exact .inl h
  rcases needSymbol_next h with h | ⟨hv, h⟩
  · exact .inl h
  · exact .inr ⟨hv, respond_next.1 h⟩

theorem execCntnone_next (h : execCntnone s = .next t) :
    TurnedAway s t ∨ Answered s t s.eng (countFree s.eng.tag) s.draws := by
  rcases gate_next h with h | ⟨-, h⟩
  · exact .inl h
  rcases needSymbol_next h with h | ⟨-, h⟩
  · exact .inl h
  · exact .inr (respond_next.1 h)

theorem execAvail_next (h : execAvail s = .next t) :
    TurnedAway s t ∨ Answered s t s.eng (avail s.eng.version) s.draws := by
  rcases gate_next h with h | ⟨-, h⟩
  · exact .inl h
  rcases needSymbol_next h with h | ⟨-, h⟩
  · exact .inl h
  · exact .inr (respond_next.1 h)

/-! ## Walker -/

theorem execWkrst_next (h : execWkrst s = .next t) :
    TurnedAway s t ∨ (s.eng.version ≠ 0 ∧ Answered s t { s.eng with walk := Walker.start s.eng.width } 0 s.draws) := by
  rcases gate_next h with h | ⟨-, h⟩
  · exact .inl h
  rcases needSymbol_next h with h | ⟨hv, h⟩
  · exact .inl h
  · exact .inr ⟨hv, respond_next.1 h⟩

theorem execWkbit_next {b : Bool} (h : execWkbit b s = .next t) :
    TurnedAway s t ∨ ∃ e, s.eng.version ≠ 0 ∧ s.eng.fault = false ∧
      ((placeBit b s.eng = (e, true) ∧ Answered s t e (256 * e.walk.row + e.walk.col) s.draws) ∨
       (placeBit b s.eng = (e, false) ∧ Overflowed s t e s.draws)) := by
  rcases gate_next h with h | ⟨hf, h⟩
  · exact .inl h
  rcases needSymbol_next h with h | ⟨hv, h⟩
  · exact .inl h
  split at h
  · rename_i e he
    exact .inr ⟨e, hv, hf, .inl ⟨he, respond_next.1 h⟩⟩
  · rename_i e he
    exact .inr ⟨e, hv, hf, .inr ⟨he, respond_next.1 h⟩⟩

theorem execWkrun_next (h : execWkrun s = .next t) :
    TurnedAway s t ∨ ∃ bs e d, s.eng.version ≠ 0 ∧ s.eng.fault = false ∧ bs.length = s.eng.olen ∧
      (∀ i v, i < s.eng.olen → memRead s.eng.bufO i = some v → bs[i]? = some v) ∧
      ((placeBits (streamBits bs) s.eng = (e, true) ∧ Answered s t e (8 * s.eng.olen) d) ∨
       (placeBits (streamBits bs) s.eng = (e, false) ∧ Overflowed s t e d)) := by
  rcases gate_next h with h | ⟨hf, h⟩
  · exact .inl h
  rcases needSymbol_next h with h | ⟨hv, h⟩
  · exact .inl h
  obtain ⟨bs, d, hl, hw, h⟩ := readBytes_next h
  have hw : ∀ i v, i < s.eng.olen → memRead s.eng.bufO i = some v → bs[i]? = some v := by simpa using hw
  split at h
  · rename_i e he
    exact .inr ⟨bs, e, d, hv, hf, hl, hw, .inl ⟨he, respond_next.1 h⟩⟩
  · rename_i e he
    exact .inr ⟨bs, e, d, hv, hf, hl, hw, .inr ⟨he, respond_next.1 h⟩⟩

/-! ## Mask and penalty unit -/

theorem execMskapp_next {m : Nat} (h : execMskapp m s = .next t) :
    TurnedAway s t ∨ (s.eng.version ≠ 0 ∧ Answered s t (s.eng.maskApply m) 0 s.draws) := by
  rcases gate_next h with h | ⟨-, h⟩
  · exact .inl h
  rcases needSymbol_next h with h | ⟨hv, h⟩
  · exact .inl h
  · exact .inr ⟨hv, respond_next.1 h⟩

theorem execPenalty_next (h : execPenalty s = .next t) :
    TurnedAway s t ∨ (s.eng.version ≠ 0 ∧
      Answered s t (s.eng.setScores (scoresOf s.eng.mod)) (scoresOf s.eng.mod).total s.draws) := by
  rcases gate_next h with h | ⟨-, h⟩
  · exact .inl h
  rcases needSymbol_next h with h | ⟨hv, h⟩
  · exact .inl h
  · exact .inr ⟨hv, respond_next.1 h⟩

theorem execMsksel_next (h : execMsksel s = .next t) :
    TurnedAway s t ∨ (s.eng.version ≠ 0 ∧
      Answered s t (s.eng.commitMask s.eng.bestMask) s.eng.bestMask.1 s.draws) := by
  rcases gate_next h with h | ⟨-, h⟩
  · exact .inl h
  rcases needSymbol_next h with h | ⟨hv, h⟩
  · exact .inl h
  · simp only [succeed, respond_next] at h
    exact .inr ⟨hv, h⟩

end Sys2Proof.Machine
end

