-- ==== Sys2Proof/Laws/Polynomial.lean ====
section
/-! SUPPORT. Lengths of the results of the polynomial and Reed-Solomon routines (42_polynomial R144, R146, R147;
43_rs_bch R163 to R165). -/

namespace Sys2Proof.Machine

@[simp] theorem xorOnto_length (xs ys : List Byte) : (xorOnto xs ys).length = xs.length := by
  induction xs generalizing ys with
  | nil => cases ys <;> rfl
  | cons x xs ih => cases ys <;> simp [xorOnto, ih]

@[simp] theorem scale_length (f : Byte) (d : List Byte) : (scale f d).length = d.length := by simp [scale]

theorem polymul_length (p q : List Byte) (hp : p ≠ []) : (polymul p q).length = p.length + q.length - 1 := by
  induction p with
  | nil => exact absurd rfl hp
  | cons a p ih =>
    cases p with
    | nil => simp [polymul]
    | cons b p => simp [polymul]; omega

theorem eliminate_length (d : List Byte) (n : Nat) (w : List Byte) : (eliminate d n w).length = w.length - n := by
  induction n generalizing w with
  | zero => simp [eliminate]
  | succ n ih =>
    cases w with
    | nil => simp [eliminate]
    | cons x w => simp [eliminate, ih]

theorem padLeft_length (l : Nat) (p : List Byte) : (padLeft l p).length = max p.length (l - 1) := by
  simp [padLeft]; omega

theorem polyrem_length {p d : List Byte} (h : d ≠ []) : (polyrem p d).length = d.length - 1 := by
  have : 0 < d.length := List.length_pos_iff.2 h
  rw [polyrem, eliminate_length, padLeft_length]
  omega

theorem genTable_length {k : Nat} (h : k ≤ gmax) : (genTable k).length = k + 1 := by
  have : ∀ k < 31, (genTable k).length = k + 1 := by decide +kernel
  exact this k (by have h' : k ≤ 30 := h; omega)

theorem ecBlock_length {e : Nat} (h : e ≤ gmax) (blk : List Byte) : (ecBlock e blk).length = e := by
  have hl := genTable_length h
  rw [ecBlock, polyrem_length (by intro h'; rw [h'] at hl; simp at hl), hl]
  rfl

theorem column_length (blocks : List (List Byte)) (i : Nat) : (column blocks i).length = blocks.length := by
  simp [column]

/-- Columns one after the other, each of the same height. -/
theorem flatMap_column_length (blocks : List (List Byte)) (n : Nat) :
    ((List.range n).flatMap (column blocks)).length = n * blocks.length := by
  induction n with
  | zero => simp
  | succ n ih => rw [List.range_succ, List.flatMap_append, List.length_append, ih]; simp [column_length, Nat.succ_mul]

theorem rsStream_length (data : List Byte) (n e : Nat) {k : Nat} (h : 1 ≤ k) :
    (rsStream data n e k).length = n + e * k := by
  have h1 := Nat.div_add_mod n k
  have h2 : n % k < k := Nat.mod_lt _ h
  have h3 : k * (n / k) = n / k * k := Nat.mul_comm _ _
  simp only [rsStream, List.length_append, flatMap_column_length, column_length, List.length_drop, List.length_map,
    List.length_range]
  omega

end Sys2Proof.Machine
end

