-- ==== Sys2Proof/Laws/Walker.lean ====
section
/-! SUPPORT. The walker: what one transition does to the invariant and to the number of transitions made, and what the
search can answer (45_data_walker R231, R235, R236). -/

namespace Sys2Proof.Machine

variable {w : Nat} {k k' : Walker}

/-! ## Columns and pairs -/

theorem rightColumn_iff {c : Nat} : rightColumn c = true ↔ (6 < c ∧ c % 2 = 0) ∨ (c ≤ 6 ∧ c % 2 = 1) := by
  unfold rightColumn
  split <;> simp only [decide_eq_true_eq] <;> omega

theorem rightColumn_eq_false {c : Nat} : rightColumn c = false ↔ (6 < c ∧ c % 2 = 1) ∨ (c ≤ 6 ∧ c % 2 = 0) := by
  rw [← Bool.not_eq_true, rightColumn_iff]
  omega

theorem pairNumber_right {c : Nat} (h : rightColumn c = true) :
    pairNumber w c = if 6 < c then (w - 1 - c) / 2 else (w - 2 - c) / 2 := by simp [pairNumber, pairRight, h]

theorem pairNumber_left {c : Nat} (h : rightColumn c = false) :
    pairNumber w c = if 6 < c + 1 then (w - 2 - c) / 2 else (w - 3 - c) / 2 := by
  have h1 : w - 1 - (c + 1) = w - 2 - c := by omega
  have h2 : w - 2 - (c + 1) = w - 3 - c := by omega
  simp [pairNumber, pairRight, h, h1, h2]

/-- Stepping left inside a pair. -/
theorem stepLeft {c : Nat} (h : rightColumn c = true) :
    rightColumn (c - 1) = false ∧ c - 1 ≠ 6 ∧ pairNumber w (c - 1) = pairNumber w c := by
  have h0 := rightColumn_iff.1 h
  have hl : rightColumn (c - 1) = false := rightColumn_eq_false.2 (by omega)
  refine ⟨hl, by omega, ?_⟩
  rw [pairNumber_left hl, pairNumber_right h]
  split <;> split <;> omega

/-- Stepping right inside a pair. -/
theorem stepRight {c : Nat} (h : rightColumn c = false) (hc : c ≠ 6) :
    rightColumn (c + 1) = true ∧ c + 1 ≠ 6 ∧ pairNumber w (c + 1) = pairNumber w c := by
  have h0 := rightColumn_eq_false.1 h
  have hr : rightColumn (c + 1) = true := rightColumn_iff.2 (by omega)
  refine ⟨hr, by omega, ?_⟩
  rw [pairNumber_left h, pairNumber_right hr]
  split <;> omega

/-- The column a reversing step goes to: the right one of the next pair. -/
theorem stepPair {c : Nat} (hw : w % 2 = 1) (hw' : 9 ≤ w) (h : rightColumn c = false) (h0 : c ≠ 0) (hlt : c < w) :
    rightColumn (if c - 1 = 6 then 5 else c - 1) = true ∧ (if c - 1 = 6 then 5 else c - 1) ≠ 6 ∧
      (if c - 1 = 6 then 5 else c - 1) < w ∧
      pairNumber w (if c - 1 = 6 then 5 else c - 1) = pairNumber w c + 1 := by
  have hl := rightColumn_eq_false.1 h
  have hr : rightColumn (if c - 1 = 6 then 5 else c - 1) = true := rightColumn_iff.2 (by split <;> omega)
  refine ⟨hr, by split <;> omega, by split <;> omega, ?_⟩
  rw [pairNumber_left h, pairNumber_right hr]
  split <;> split <;> split <;> omega

/-- The number of pairs. -/
theorem pairNumber_lt {c : Nat} (hw : w % 2 = 1) (hw' : 9 ≤ w) (hc : c < w) :
    pairNumber w c < (w - 1) / 2 := by
  cases h : rightColumn c
  · have := rightColumn_eq_false.1 h
    rw [pairNumber_left h]; split <;> omega
  · have := rightColumn_iff.1 h
    rw [pairNumber_right h]; split <;> omega

/-! ## One transition -/

theorem start_inv (hw : 0 < w) : Walker.Inv w (Walker.start w) where
  row_lt := by simp only [Walker.start]; omega
  col_lt := by simp only [Walker.start]; omega
  start := fun _ => rfl
  not_six := by simp [Walker.start]
  climbing := by simp [Walker.start]
  atRight := by simp [Walker.start]
  atLeft := by simp [Walker.start]
  goesUp := by simp [Walker.start]
  turnsTop := by simp [Walker.start]
  goesDown := by simp [Walker.start]
  turnsDown := by simp [Walker.start]
  counted := by simp [Walker.start, walked]

theorem advance_cnt (h : advance w k = some k') : k'.cnt = k.cnt := by
  unfold advance at h
  split at h
  all_goals first
    | (simp only [Option.some.injEq] at h; rw [← h])
    | (split at h
       · cases h
       · simp only [Option.some.injEq] at h; rw [← h])

/-- One transition keeps the invariant of the walker and is one more transition made. -/
theorem advance_inv (hw : w % 2 = 1) (hw' : 9 ≤ w) (hk : Walker.Inv w k) (h : advance w k = some k') :
    Walker.Inv w k' ∧ walked w k' = walked w k + 1 := by
  obtain ⟨row, col, st, up, cnt⟩ := k
  obtain ⟨h1, h2, h3, h4, h5, h6, h7, h8, h9, h10, h11, h12⟩ := hk
  simp only at h1 h2 h3 h4 h5 h6 h7 h8 h9 h10 h11
  cases st
  · -- enter
    simp only [advance, Option.some.injEq] at h
    subst h
    have hr : rightColumn (w - 1) = true := rightColumn_iff.2 (by omega)
    have hp : pairNumber w (w - 1) = 0 := by rw [pairNumber_right hr]; split <;> omega
    have hwk : walked w ⟨w - 1, w - 1, .stepH, true, cnt⟩ = 1 := by simp [walked, hr, hp]
    have h0 : walked w ⟨row, col, .enter, up, cnt⟩ = 0 := rfl
    refine ⟨⟨by simp only; omega, by simp only; omega, by simp, by simp only; omega, by simp [hp], fun _ => hr,
      by simp, by simp, by simp, by simp, by simp, ?_⟩, ?_⟩
    · rw [hwk]; rw [h0] at h12; simp only at h12 ⊢; omega
    · rw [hwk, h0]
  · -- stepH
    simp only [advance, Option.some.injEq] at h
    subst h
    have hr := h6 rfl
    obtain ⟨l1, l2, l3⟩ := stepLeft (w := w) hr
    have hst : ∀ st', st' ≠ .enter → walked w ⟨row, col - 1, st', up, cnt⟩ = walked w ⟨row, col, .stepH, up, cnt⟩ + 1 := by
      intro st' hne
      cases st' <;> simp_all [walked]
    have h5' := h5 (by simp)
    cases up
    · by_cases hrow : row = w - 1
      · subst hrow; simp only [if_true, Bool.false_eq_true, if_false]
        have e := hst .revBottom (by simp)
        refine ⟨⟨by simp only; omega, by simp only; omega, by simp, fun _ => l2, fun _ => by rw [l3]; exact h5', by simp, fun _ _ => l1,
          by simp, by simp, by simp, by simp, ?_⟩, e⟩
        rw [e]; simp only at h12 ⊢; omega
      · simp only [hrow, Bool.false_eq_true, if_false]
        have e := hst .stepDown (by simp)
        refine ⟨⟨h1, by simp only; omega, by simp, fun _ => l2, fun _ => by rw [l3]; exact h5', by simp, fun _ _ => l1,
          by simp, by simp, fun _ => ⟨rfl, by simp only; omega⟩, by simp, ?_⟩, e⟩
        rw [e]; simp only at h12 ⊢; omega
    · by_cases hrow : row = 0
      · subst hrow; simp only [if_true]
        have e := hst .revTop (by simp)
        refine ⟨⟨h1, by simp only; omega, by simp, fun _ => l2, fun _ => by rw [l3]; exact h5', by simp, fun _ _ => l1,
          by simp, by simp, by simp, by simp, ?_⟩, e⟩
        rw [e]; simp only at h12 ⊢; omega
      · simp only [hrow, if_true, if_false]
        have e := hst .stepUp (by simp)
        refine ⟨⟨h1, by simp only; omega, by simp, fun _ => l2, fun _ => by rw [l3]; exact h5', by simp, fun _ _ => l1,
          fun _ => ⟨rfl, by simp only; omega⟩, by simp, by simp, by simp, ?_⟩, e⟩
        rw [e]; simp only at h12 ⊢; omega
  · -- stepUp
    simp only [advance, Option.some.injEq] at h
    subst h
    obtain ⟨rfl, hpos⟩ := h8 rfl
    have hl := h7 (by simp) (by simp)
    obtain ⟨r1, r2, r3⟩ := stepRight (w := w) hl (h4 (by simp))
    have e : walked w ⟨row - 1, col + 1, .stepH, true, cnt⟩ = walked w ⟨row, col, .stepUp, true, cnt⟩ + 1 := by
      simp only [walked, r1, r3, hl, if_true, Bool.false_eq_true, if_false]; omega
    have := rightColumn_eq_false.1 hl
    refine ⟨⟨by simp only; omega, by simp only; omega, by simp, fun _ => r2, fun _ => by rw [r3]; exact h5 (by simp), fun _ => r1,
      by simp, by simp, by simp, by simp, by simp, ?_⟩, e⟩
    rw [e]; simp only at h12 ⊢; omega
  · -- revTop
    simp only [advance] at h
    split at h
    · cases h
    · rename_i h0
      simp only [Option.some.injEq] at h
      subst h
      obtain ⟨rfl, rfl⟩ := h9 rfl
      have hl := h7 (by simp) (by simp)
      obtain ⟨r1, r2, r3, r4⟩ := stepPair hw hw' hl h0 h2
      generalize hc : (if col - 1 = 6 then 5 else col - 1) = c' at r1 r2 r3 r4
      have h5' := h5 (by simp)
      have e : walked w ⟨0, c', .stepH, false, cnt⟩ = walked w ⟨0, col, .revTop, true, cnt⟩ + 1 := by
        simp only [walked, r1, r4, hl, if_true, Bool.false_eq_true, if_false, Nat.mul_add, Nat.mul_one]; omega
      refine ⟨⟨h1, r3, by simp, fun _ => r2, fun _ => ?_, fun _ => r1, by simp, by simp, by simp, by simp, by simp, ?_⟩, e⟩
      · simp only [r4]
        have := of_decide_eq_true h5'.symm
        symm; rw [decide_eq_false_iff_not]; omega
      · rw [e]; simp only at h12 ⊢; omega
  · -- stepDown
    simp only [advance, Option.some.injEq] at h
    subst h
    obtain ⟨rfl, hpos⟩ := h10 rfl
    have hl := h7 (by simp) (by simp)
    obtain ⟨r1, r2, r3⟩ := stepRight (w := w) hl (h4 (by simp))
    have e : walked w ⟨row + 1, col + 1, .stepH, false, cnt⟩ = walked w ⟨row, col, .stepDown, false, cnt⟩ + 1 := by
      simp only [walked, r1, r3, hl, if_true, Bool.false_eq_true, if_false]; omega
    have := rightColumn_eq_false.1 hl
    refine ⟨⟨by simp only; omega, by simp only; omega, by simp, fun _ => r2, fun _ => by rw [r3]; exact h5 (by simp), fun _ => r1,
      by simp, by simp, by simp, by simp, by simp, ?_⟩, e⟩
    rw [e]; simp only at h12 ⊢; omega
  · -- revBottom
    simp only [advance] at h
    split at h
    · cases h
    · rename_i h0
      simp only [Option.some.injEq] at h
      subst h
      obtain ⟨rfl, rfl⟩ := h11 rfl
      have hl := h7 (by simp) (by simp)
      obtain ⟨r1, r2, r3, r4⟩ := stepPair hw hw' hl h0 h2
      generalize hc : (if col - 1 = 6 then 5 else col - 1) = c' at r1 r2 r3 r4
      have h5' := h5 (by simp)
      have e : walked w ⟨w - 1, c', .stepH, true, cnt⟩ = walked w ⟨w - 1, col, .revBottom, false, cnt⟩ + 1 := by
        simp only [walked, r1, r4, hl, if_true, Bool.false_eq_true, if_false, Nat.mul_add, Nat.mul_one]; omega
      refine ⟨⟨h1, r3, by simp, fun _ => r2, fun _ => ?_, fun _ => r1, by simp, by simp, by simp, by simp, by simp, ?_⟩, e⟩
      · simp only [r4]
        have := of_decide_eq_false h5'.symm
        symm; rw [decide_eq_true_eq]; omega
      · rw [e]; simp only at h12 ⊢; omega

/-- A walk makes at most W (W - 1) transitions (70_reset R381). -/
theorem walked_le (hw : w % 2 = 1) (hw' : 9 ≤ w) (hk : Walker.Inv w k) : walked w k ≤ w * (w - 1) := by
  by_cases hst : k.st = .enter
  · rw [hk.start hst]; exact Nat.zero_le _
  · have h1 := pairNumber_lt hw hw' hk.col_lt
    have h2 : walked w k = 2 * w * pairNumber w k.col + 2 * (if k.up = true then w - 1 - k.row else k.row)
      + (if rightColumn k.col = true then 1 else 2) := by
      unfold walked; split
      · exact absurd ‹_› hst
      · rfl
    have h3 : 2 * (if k.up = true then w - 1 - k.row else k.row)
      + (if rightColumn k.col = true then 1 else 2) ≤ 2 * w := by
      have := hk.row_lt
      split <;> split <;> omega
    have h4 : 2 * w * pairNumber w k.col + 2 * w ≤ w * (w - 1) := by
      have h5 : 2 * (pairNumber w k.col + 1) ≤ w - 1 := by omega
      calc 2 * w * pairNumber w k.col + 2 * w = w * (2 * (pairNumber w k.col + 1)) := by ring
        _ ≤ w * (w - 1) := Nat.mul_le_mul_left _ h5
    omega

/-! ## The search -/

variable {tag : Grid Tag}

/-- With more transitions allowed than a walk can make, the search lands on a free cell or exhausts the grid. -/
theorem seek_cases (hw : w % 2 = 1) (hw' : 9 ≤ w) (fuel : Nat) (hk : Walker.Inv w k)
    (hf : w * (w - 1) < walked w k + fuel) :
    (∃ k', seek w tag fuel k = (k', true) ∧ Lands w tag k k') ∨
    (∃ k', seek w tag fuel k = (k', false) ∧ Exhausts w tag k k') := by
  induction fuel generalizing k with
  | zero => have := walked_le hw hw' hk; omega
  | succ n ih =>
    simp only [seek]
    cases ha : advance w k with
    | none => exact .inr ⟨k, rfl, .here ha⟩
    | some k1 =>
      obtain ⟨hi, hn⟩ := advance_inv hw hw' hk ha
      by_cases hfree : isFree tag k1.row k1.col = true
      · exact .inl ⟨k1, by simp [hfree], .here ha hfree⟩
      · rw [Bool.not_eq_true] at hfree
        simp only [hfree, Bool.false_eq_true, if_false]
        rcases ih hi (by omega) with ⟨k', h1, h2⟩ | ⟨k', h1, h2⟩
        · exact .inl ⟨k', h1, .past ha hfree h2⟩
        · exact .inr ⟨k', h1, .past ha hfree h2⟩

theorem Lands.unique {k1 k2 : Walker} (h1 : Lands w tag k k1) (h2 : Lands w tag k k2) : k1 = k2 := by
  induction h1 with
  | here a f =>
    cases h2 with
    | here a' f' => rw [a] at a'; exact Option.some.inj a'
    | past a' t' _ => rw [a] at a'; rw [Option.some.inj a'] at f; simp [f] at t'
  | past a t _ ih =>
    cases h2 with
    | here a' f' => rw [a] at a'; rw [Option.some.inj a'] at t; simp [f'] at t
    | past a' _ m' => rw [a] at a'; exact ih (Option.some.inj a' ▸ m')

theorem Lands.not_exhausts {k1 k2 : Walker} (h1 : Lands w tag k k1) (h2 : Exhausts w tag k k2) : False := by
  induction h1 with
  | here a f =>
    cases h2 with
    | here a' => rw [a] at a'; cases a'
    | past a' t' _ => rw [a] at a'; rw [Option.some.inj a'] at f; simp [f] at t'
  | past a t _ ih =>
    cases h2 with
    | here a' => rw [a] at a'; cases a'
    | past a' _ m' => rw [a] at a'; exact ih (Option.some.inj a' ▸ m')

theorem Exhausts.unique {k1 k2 : Walker} (h1 : Exhausts w tag k k1) (h2 : Exhausts w tag k k2) : k1 = k2 := by
  induction h1 with
  | here a =>
    cases h2 with
    | here => rfl
    | past a' _ _ => rw [a] at a'; cases a'
  | past a t _ ih =>
    cases h2 with
    | here a' => rw [a] at a'; cases a'
    | past a' _ m' => rw [a] at a'; exact ih (Option.some.inj a' ▸ m')

/-- Where the search lands is a free cell, the walker keeps its invariant, and the count of bits is as before. -/
theorem Lands.inv (hw : w % 2 = 1) (hw' : 9 ≤ w) (hk : Walker.Inv w k) (h : Lands w tag k k') :
    Walker.Inv w k' ∧ walked w k < walked w k' ∧ k'.cnt = k.cnt ∧ isFree tag k'.row k'.col = true := by
  induction h with
  | here a f => have := advance_inv hw hw' hk a; exact ⟨this.1, by omega, advance_cnt a, f⟩
  | past a t _ ih =>
    have h1 := advance_inv hw hw' hk a
    have h2 := ih h1.1
    exact ⟨h2.1, by omega, by rw [h2.2.2.1, advance_cnt a], h2.2.2.2⟩

theorem Exhausts.inv (hw : w % 2 = 1) (hw' : 9 ≤ w) (hk : Walker.Inv w k) (h : Exhausts w tag k k') :
    Walker.Inv w k' ∧ k'.cnt = k.cnt ∧ advance w k' = none := by
  induction h with
  | here a => exact ⟨hk, rfl, a⟩
  | past a t _ ih =>
    have h2 := ih (advance_inv hw hw' hk a).1
    exact ⟨h2.1, by rw [h2.2.1, advance_cnt a], h2.2.2⟩

/-- The side of a Symbol is odd and at least 21. -/
theorem width_odd {e : Engine} (h : e.version ≠ 0) : e.width % 2 = 1 ∧ 21 ≤ e.width := by
  simp only [Engine.width, h, if_false, sideOf_eq]; omega

theorem walkFuel_enough (n : Nat) (hw : 0 < w) : w * (w - 1) < n + walkFuel w := by
  have : w * (w - 1) < w * w := Nat.mul_lt_mul_of_pos_left (by omega) hw
  unfold walkFuel; omega

/-- `placebit` under the invariant: it lands on a free cell and writes it, or exhausts the grid. -/
theorem placeBit_cases {e : Engine} (b : Bool) (hv : e.version ≠ 0) (hk : Walker.Inv e.width e.walk) :
    (∃ k', Lands e.width e.tag e.walk k' ∧
      placeBit b e = ({ e with mod := setCell e.mod k'.row k'.col b, walk := { k' with cnt := k'.cnt + 1 } }, true)) ∨
    (∃ k', Exhausts e.width e.tag e.walk k' ∧ placeBit b e = ({ e with walk := k' }, false)) := by
  obtain ⟨h1, h2⟩ := width_odd hv
  rcases seek_cases (tag := e.tag) h1 (by omega) (walkFuel e.width) hk (walkFuel_enough _ (by omega)) with
    ⟨k', h, hl⟩ | ⟨k', h, hl⟩
  · exact .inl ⟨k', hl, by simp only [placeBit, h]⟩
  · exact .inr ⟨k', hl, by simp only [placeBit, h]⟩

end Sys2Proof.Machine
end

