-- ==== Sys2Proof/Laws/Inv.lean ====
section
/-! SUPPORT. Which named updates of the engine keep its invariant, one lemma each, and the bounds of the penalties
(10_state R52). -/

namespace Sys2Proof.Machine

variable {e : Engine}

theorem width_newSymbol {v : Nat} (lv : Level) (h : 1 ≤ v) : (e.newSymbol v lv).width = sideOf v := by
  have : v ≠ 0 := by omega
  simp [Engine.width, Engine.newSymbol, this]

theorem width_le (h : e.version ≤ vmax) : e.width ≤ 177 := by
  have h' : e.version ≤ 40 := h
  simp only [Engine.width, sideOf_eq]; split <;> omega

/-- WCNT fits its 16 bits (10_state R42): 177 · 176 cells can be met (log 21). -/
theorem Engine.Inv.cnt_le (h : e.Inv) : e.walk.cnt ≤ 31152 := by
  by_cases hv : e.version = 0
  · rw [h.walk_idle hv]; exact Nat.zero_le _
  · have hk := h.walk_inv hv
    have hle := width_le h.version_le
    have hw : e.width = 17 + 4 * e.version := by simp [Engine.width, hv, sideOf_eq]
    have hc := Nat.le_trans hk.counted (walked_le (by omega) (by omega) hk)
    exact Nat.le_trans hc (Nat.mul_le_mul hle (by omega : e.width - 1 ≤ 176))

theorem buffers_same {e' : Engine} (hb : ∀ b, e'.buf b = e.buf b) (h : e.Inv) : ∀ b, e'.BufferOk b := fun b => by
  have := h.buffers b
  simp only [Engine.BufferOk, hb]
  exact this

theorem newSymbol_inv {v : Nat} (lv : Level) (h : e.Inv) (h1 : 1 ≤ v) (h2 : v ≤ vmax) : (e.newSymbol v lv).Inv := by
  have hw := width_newSymbol (e := e) lv h1
  have hv : v ≠ 0 := by omega
  exact { h with
    version_le := h2
    mask_lt := Nat.zero_lt_succ 7
    mod_square := by rw [hw]; exact blankGrid_square ..
    tag_square := by rw [hw]; exact blankGrid_square ..
    fault_sym := fun _ => hv
    buffers := buffers_same (fun b => by cases b <;> rfl) h
    walk_idle := fun h0 => absurd h0 hv
    walk_inv := fun _ => by rw [hw]; exact start_inv (by simp only [sideOf_eq]; omega)
    pen1_le := Nat.zero_le _
    pen2_le := Nat.zero_le _
    pen3_le := Nat.zero_le _
    pen4_le := Nat.zero_le _
    pent_eq := rfl }

/-- A buffer replaced by one in canonical form and within the capacity, with the written bytes of O and R kept. -/
theorem setBuf_inv {b : Buf} {m : Memory} (h : e.Inv) (hm : m.wf) (hc : m.within b.capacity)
    (ho : b = .O → ∀ i, i < e.olen → memRead m i ≠ none) (hr : b = .R → ∀ i, i < e.lenr → memRead m i ≠ none) :
    (e.setBuf b m).Inv := by
  have hb : ∀ b', (e.setBuf b m).BufferOk b' := fun b' => by
    by_cases hbb : b = b'
    · subst hbb
      have : (e.setBuf b m).buf b = m := by cases b <;> rfl
      exact ⟨by rw [this]; exact hm, by rw [this]; exact hc⟩
    · have : (e.setBuf b m).buf b' = e.buf b' := by cases b <;> cases b' <;> first | rfl | exact absurd rfl hbb
      have hk := h.buffers b'
      exact ⟨by rw [this]; exact hk.1, by rw [this]; exact hk.2⟩
  cases b
  · exact { h with buffers := hb }
  · exact { h with buffers := hb, o_written := ho rfl }
  · exact { h with buffers := hb }
  · exact { h with buffers := hb }
  · exact { h with buffers := hb, r_written := hr rfl }

theorem stampAll_inv (ps : List Stamp) (h : e.Inv) : (e.stampAll ps).Inv := by
  have hs := stampAll_square ps h.mod_square h.tag_square
  rw [stampAll_same]
  exact { h with mod_square := hs.1, tag_square := hs.2, buffers := buffers_same (fun b => by cases b <;> rfl) h }

theorem maskApply_inv (m : Nat) (h : e.Inv) : (e.maskApply m).Inv :=
  { h with mod_square := maskRows_square m 0 e.tag h.mod_square, buffers := buffers_same (fun b => by cases b <;> rfl) h }

/-! ## The walker -/

theorem placeBit_inv {b ok : Bool} {e' : Engine} (h : e.Inv) (hv : e.version ≠ 0) (hp : placeBit b e = (e', ok)) :
    e'.Inv ∧ SameButWalk e e' := by
  obtain ⟨h1, h2⟩ := width_odd hv
  have hk := h.walk_inv hv
  rcases placeBit_cases b hv hk with ⟨k', hl, hq⟩ | ⟨k', hl, hq⟩ <;> rw [hp] at hq <;> cases hq
  · obtain ⟨i1, i2, i3, -⟩ := hl.inv h1 (by omega) hk
    have i4 : Walker.Inv e.width { k' with cnt := k'.cnt + 1 } := by
      have := hk.counted
      exact { i1 with counted := by show k'.cnt + 1 ≤ walked e.width k'; omega,
                      start := fun hst => by
                        have hw0 : walked e.width k' = 0 := by
                          simp only at hst
                          unfold walked; rw [hst]
                        omega }
    exact ⟨{ h with
      mod_square := setCell_square h.mod_square .., buffers := buffers_same (fun b => by cases b <;> rfl) h,
      walk_idle := fun h0 => absurd h0 hv, walk_inv := fun _ => i4 }, rfl⟩
  · obtain ⟨i1, -, -⟩ := hl.inv h1 (by omega) hk
    exact ⟨{ h with
      buffers := buffers_same (fun b => by cases b <;> rfl) h,
      walk_idle := fun h0 => absurd h0 hv, walk_inv := fun _ => i1 }, rfl⟩

theorem SameButWalk.trans {e1 e2 e3 : Engine} (h1 : SameButWalk e1 e2) (h2 : SameButWalk e2 e3) : SameButWalk e1 e3 := by
  unfold SameButWalk at *
  rw [← h2, ← h1]

theorem placeBits_inv {bs : List Bool} {ok : Bool} {e' : Engine} (h : e.Inv) (hv : e.version ≠ 0)
    (hp : placeBits bs e = (e', ok)) : e'.Inv ∧ SameButWalk e e' := by
  induction bs generalizing e with
  | nil => cases hp; exact ⟨h, rfl⟩
  | cons b bs ih =>
    simp only [placeBits] at hp
    split at hp
    · rename_i e1 h1
      obtain ⟨i1, s1⟩ := placeBit_inv h hv h1
      have hv1 : e1.version ≠ 0 := by rw [← s1]; exact hv
      obtain ⟨i2, s2⟩ := ih i1 hv1 hp
      exact ⟨i2, s1.trans s2⟩
    · rename_i e1 h1
      cases hp
      exact placeBit_inv h hv h1

/-! ## The penalties -/

theorem runScore_le (n : Nat) : runScore n ≤ n - 2 := by unfold runScore; split <;> omega

theorem runsFrom_le (prev : Bool) (n : Nat) (line : List Bool) : runsFrom prev n line ≤ n + line.length - 2 := by
  induction line generalizing prev n with
  | nil => exact runScore_le n
  | cons b rest ih =>
    have hs := runScore_le n
    simp only [runsFrom, List.length_cons]
    split
    · have := ih prev (n + 1); omega
    · have := ih b 1; omega

theorem linePen1_le (line : List Bool) : linePen1 line ≤ line.length - 2 := by
  cases line with
  | nil => exact Nat.zero_le _
  | cons b rest => have := runsFrom_le b 1 rest; simp only [linePen1, List.length_cons]; omega

theorem blocksIn_le (r1 r2 : List Bool) : blocksIn r1 r2 ≤ r1.length - 1 := by
  induction r1 generalizing r2 with
  | nil => simp [blocksIn]
  | cons a r1 ih =>
    cases r1 with
    | nil => simp [blocksIn]
    | cons b t1 =>
      cases r2 with
      | nil => simp [blocksIn]
      | cons c r2 =>
        cases r2 with
        | nil => simp [blocksIn]
        | cons d t2 =>
          have := ih (d :: t2)
          simp only [blocksIn, List.length_cons] at this ⊢
          split <;> omega

theorem patternsIn_le (line : List Bool) : patternsIn line ≤ line.length - 10 := by
  induction line with
  | nil => exact Nat.zero_le _
  | cons b rest ih =>
    simp only [patternsIn, List.length_cons]
    by_cases hl : 10 ≤ rest.length
    · split <;> omega
    · have hc : (finderLike.isPrefixOf (b :: rest) || finderLike.reverse.isPrefixOf (b :: rest)) = false := by
        rw [Bool.eq_false_iff]
        intro h
        simp only [Bool.or_eq_true, List.isPrefixOf_iff_prefix] at h
        rcases h with h | h <;> have := h.length_le <;> simp [finderLike] at this <;> omega
      rw [hc]; simp only [Bool.false_eq_true, if_false]; omega

theorem sum_map_le {α : Type} (f : α → Nat) (c : Nat) (l : List α) (h : ∀ x ∈ l, f x ≤ c) :
    (l.map f).sum ≤ l.length * c := by
  induction l with
  | nil => simp
  | cons x l ih =>
    have h1 := h x List.mem_cons_self
    have h2 := ih fun y hy => h y (List.mem_cons_of_mem _ hy)
    simp only [List.map_cons, List.sum_cons, List.length_cons, Nat.succ_mul]
    omega

theorem zipWith_cons_length (row : List Bool) (acc : List (List Bool)) (n : Nat) (h : ∀ l ∈ acc, l.length = n) :
    ∀ l ∈ List.zipWith List.cons row acc, l.length = n + 1 := by
  induction row generalizing acc with
  | nil => simp
  | cons x row ih =>
    cases acc with
    | nil => simp
    | cons a acc =>
      intro l hl
      simp only [List.zipWith_cons_cons, List.mem_cons] at hl
      rcases hl with rfl | hl
      · simp [h a List.mem_cons_self]
      · exact ih acc (fun l hl => h l (List.mem_cons_of_mem _ hl)) l hl

/-- The columns of a square matrix: as many as its side, each of its length. -/
theorem columnsOf_square {w : Nat} {g : Grid Bool} (h : Square w g) :
    (columnsOf g).length = w ∧ ∀ l ∈ columnsOf g, l.length = w := by
  cases g with
  | nil => have h0 : w = 0 := h.1.symm; subst h0; simp [columnsOf]
  | cons row0 g0 =>
    have hrow0 : row0.length = w := h.2 row0 List.mem_cons_self
    have key : ∀ g : Grid Bool, (∀ row ∈ g, row.length = w) →
        (g.foldr (fun row acc => List.zipWith List.cons row acc) (List.replicate w [])).length = w ∧
        ∀ l ∈ g.foldr (fun row acc => List.zipWith List.cons row acc) (List.replicate w []), l.length = g.length := by
      intro g hg
      induction g with
      | nil => simp
      | cons r g ih =>
        have i := ih fun row hr => hg row (List.mem_cons_of_mem _ hr)
        refine ⟨?_, ?_⟩
        · simp [List.foldr_cons, i.1, hg r List.mem_cons_self]
        · exact zipWith_cons_length _ _ _ i.2
    have k := key (row0 :: g0) h.2
    have hl := h.1
    simp only [columnsOf, List.headD_cons, hrow0]
    exact ⟨k.1, fun l hl' => by rw [k.2 l hl', hl]⟩

theorem linesOf_square {w : Nat} {g : Grid Bool} (h : Square w g) :
    (linesOf g).length = 2 * w ∧ ∀ l ∈ linesOf g, l.length = w := by
  have hc := columnsOf_square h
  refine ⟨by simp [linesOf, h.1, hc.1]; omega, fun l hl => ?_⟩
  rcases List.mem_append.1 hl with hl | hl
  · exact h.2 l hl
  · exact hc.2 l hl

theorem blockCount_le {w : Nat} (g : Grid Bool) (h : ∀ row ∈ g, row.length = w) :
    blockCount g ≤ (g.length - 1) * (w - 1) := by
  induction g with
  | nil => simp [blockCount]
  | cons r1 g ih =>
    cases g with
    | nil => simp [blockCount]
    | cons r2 g =>
      have h1 := blocksIn_le r1 r2
      have h2 := ih fun row hr => h row (List.mem_cons_of_mem _ hr)
      rw [h r1 List.mem_cons_self] at h1
      simp only [blockCount, List.length_cons, Nat.add_sub_cancel] at h2 ⊢
      rw [Nat.succ_mul]
      omega

theorem darkCount_le (g : Grid Bool) : darkCount g ≤ cellCount g := by
  induction g with
  | nil => simp [darkCount, cellCount]
  | cons r g ih =>
    have := List.countP_le_length (p := fun b : Bool => b) (l := r)
    simp only [darkCount, cellCount, List.map_cons, List.sum_cons] at ih ⊢
    omega

/-- The penalty bounds of 10_state R52 for a grid of side at most 177. -/
theorem scores_bounds {w : Nat} {g : Grid Bool} (h : Square w g) (hw : w ≤ 177) :
    penRuns g ≤ 61950 ∧ penBlocks g ≤ 92928 ∧ penPatterns g ≤ 2364720 ∧ penRatio g ≤ 20 := by
  obtain ⟨hl, hm⟩ := linesOf_square h
  refine ⟨?_, ?_, ?_, ?_⟩
  · have := sum_map_le linePen1 175 (linesOf g) fun l hl => by
      have h1 := linePen1_le l; have h2 := hm l hl; omega
    unfold penRuns; omega
  · have h1 := blockCount_le g h.2
    rw [h.1] at h1
    have h2 : (w - 1) * (w - 1) ≤ 176 * 176 := Nat.mul_le_mul (by omega) (by omega)
    unfold penBlocks; omega
  · have := sum_map_le patternsIn 167 (linesOf g) fun l hl => by
      have h1 := patternsIn_le l; have h2 := hm l hl; omega
    unfold penPatterns; omega
  · have h1 := darkCount_le g
    have h2 : 20 * darkCount g / cellCount g ≤ 20 := by
      rcases Nat.eq_zero_or_pos (cellCount g) with h0 | h0
      · rw [h0]; simp
      · rw [Nat.div_le_iff_le_mul_add_pred h0]
        have := Nat.mul_le_mul_left 20 h1
        rw [Nat.mul_comm (cellCount g) 20]
        omega
    simp only [penRatio, absDiff]
    generalize 20 * darkCount g / cellCount g = x at h2 ⊢
    omega

theorem setScores_inv (h : e.Inv) {g : Grid Bool} (hg : Square e.width g) : (e.setScores (scoresOf g)).Inv := by
  obtain ⟨h1, h2, h3, h4⟩ := scores_bounds hg (width_le h.version_le)
  exact { h with
    buffers := buffers_same (fun b => by cases b <;> rfl) h
    pen1_le := h1
    pen2_le := h2
    pen3_le := h3
    pen4_le := h4
    pent_eq := rfl }

theorem candidate_inv (m : Nat) (h : e.Inv) : (e.candidate m).Inv := stampAll_inv _ (maskApply_inv m h)

end Sys2Proof.Machine
end

