-- ==== Sys2Proof/Laws/Mask.lean ====
section
/-! SUPPORT. What the selection among the eight masks answers (46_mask_penalty R276). -/

namespace Sys2Proof.Machine

/-- The scan of a list of pairs keeps the first of the lowest totals. -/
theorem foldl_better (f : Nat → Scores) (ms : List Nat) (b : Nat) :
    ∃ m, (ms.map fun m => (m, f m)).foldl better (some (b, f b)) = some (m, f m) ∧ (m = b ∨ m ∈ ms) ∧
      (f m).total ≤ (f b).total ∧ (m ≠ b → (f m).total < (f b).total) ∧
      (∀ x ∈ ms, (f m).total ≤ (f x).total) ∧
      (ms.Pairwise (fun x y => x < y) → m ≠ b → ∀ x ∈ ms, x < m → (f m).total < (f x).total) := by
  induction ms generalizing b with
  | nil => exact ⟨b, rfl, .inl rfl, Nat.le_refl _, fun h => absurd rfl h, by simp, by simp⟩
  | cons a ms ih =>
    by_cases hlt : (f a).total < (f b).total
    · obtain ⟨m, h1, h2, h3, h4, h5, h6⟩ := ih a
      refine ⟨m, by simpa [better, hlt] using h1, .inr (by rcases h2 with rfl | h2 <;> simp [*]), by omega,
        fun _ => by omega, ?_, ?_⟩
      · intro x hx
        rcases List.mem_cons.1 hx with rfl | hx
        · exact h3
        · exact h5 x hx
      · intro hp _ x hx hxm
        obtain ⟨p1, p2⟩ := List.pairwise_cons.1 hp
        rcases List.mem_cons.1 hx with rfl | hx
        · exact h4 (by omega)
        · by_cases hma : m = a
          · have := p1 x hx; omega
          · exact h6 p2 hma x hx hxm
    · obtain ⟨m, h1, h2, h3, h4, h5, h6⟩ := ih b
      refine ⟨m, by simpa [better, hlt] using h1, by rcases h2 with rfl | h2 <;> simp [*], h3, h4, ?_, ?_⟩
      · intro x hx
        rcases List.mem_cons.1 hx with rfl | hx
        · omega
        · exact h5 x hx
      · intro hp hmb x hx hxm
        obtain ⟨p1, p2⟩ := List.pairwise_cons.1 hp
        rcases List.mem_cons.1 hx with rfl | hx
        · have := h4 hmb; omega
        · exact h6 p2 hmb x hx hxm

/-- The winner: an id of the eight with its own scores, no other id scores lower, and no lower id scores as low. -/
theorem bestMask_spec (e : Engine) :
    e.bestMask.1 < 8 ∧ e.bestMask.2 = scoresOf (e.candidate e.bestMask.1).mod ∧
      ∀ m, m < 8 → e.bestMask.2.total ≤ (scoresOf (e.candidate m).mod).total ∧
        (m < e.bestMask.1 → e.bestMask.2.total < (scoresOf (e.candidate m).mod).total) := by
  have hr : List.range maskCount = 0 :: [1, 2, 3, 4, 5, 6, 7] := rfl
  obtain ⟨m, h1, h2, h3, h4, h5, h6⟩ := foldl_better (fun m => scoresOf (e.candidate m).mod) [1, 2, 3, 4, 5, 6, 7] 0
  have hb : e.bestMask = (m, scoresOf (e.candidate m).mod) := by
    simp only [Engine.bestMask, hr, List.map_cons, List.foldl_cons, better] at h1 ⊢
    rw [h1]; rfl
  rw [hb]
  refine ⟨by simp at h2; simp only; omega, rfl, fun x hx => ?_⟩
  rcases Nat.eq_zero_or_pos x with rfl | hx0
  · exact ⟨h3, fun h => h4 (by simp only at h; omega)⟩
  · have hm : x ∈ [1, 2, 3, 4, 5, 6, 7] := by simp; omega
    exact ⟨h5 x hm, fun h => h6 (by decide) (by simp only at h; omega) x hm h⟩

end Sys2Proof.Machine
end

