-- ==== Sys2Proof/Laws/PerInstr.lean ====
section
/-! SUPPORT. The family RoundTrip (LAWS.json): the word a command encodes to decodes to that command, one lemma per
constructor of Instr (30_encoding R81, R84, R85). -/

namespace Sys2Proof.Laws.RoundTrip

/-- A well-formed command is what the decoder reads from its own word. -/
def Statement (i : Instr) : Prop := WellFormed i = true → decode (encode i) = .instr i

theorem nop : Statement .nop := fun _ => rfl

theorem reset : Statement .reset := fun _ => rfl

theorem rdreg (n : Nat) : Statement (.rdreg n) := by
  intro h
  simp only [WellFormed, decide_eq_true_eq] at h
  simp only [encode, formatN]
  have hop : bits (BitVec.ofNat 32 (0x2 * 2 ^ 24 + n)) 31 24 = 0x2 := by
    rw [bits_ofNat (by omega)]; omega
  have f0 : bits (BitVec.ofNat 32 (0x2 * 2 ^ 24 + n)) 7 0 = n := by
    rw [bits_ofNat (by omega)]; omega
  simp only [decode, hop, f0]
  exact whenZero_of_zero (by simp (disch := omega) only [bits_ofNat]; omega)

theorem symnew (v : Nat) (lv : Level) : Statement (.symnew v lv) := by
  intro h
  simp only [WellFormed, decide_eq_true_eq] at h
  have h_lv := lv.ordinal_lt
  simp only [encode, formatSV]
  have hop : bits (BitVec.ofNat 32 (0x3 * 2 ^ 24 + v * 2 ^ 8 + lv.ordinal)) 31 24 = 0x3 := by
    rw [bits_ofNat (by omega)]; omega
  have f0 : bits (BitVec.ofNat 32 (0x3 * 2 ^ 24 + v * 2 ^ 8 + lv.ordinal)) 15 8 = v := by
    rw [bits_ofNat (by omega)]; omega
  have f1 : bits (BitVec.ofNat 32 (0x3 * 2 ^ 24 + v * 2 ^ 8 + lv.ordinal)) 1 0 = lv.ordinal := by
    rw [bits_ofNat (by omega)]; omega
  simp only [decode, hop, f0, f1, Level.ofOrdinal_ordinal]
  exact whenZero_of_zero (by simp (disch := omega) only [bits_ofNat]; omega)

theorem bwr (buf idx : Nat) (byte : Byte) : Statement (.bwr buf idx byte) := by
  intro h
  simp only [WellFormed, Bool.and_eq_true, decide_eq_true_eq] at h
  have h_byte := byte.isLt
  simp only [encode, formatBW]
  have hop : bits (BitVec.ofNat 32 (0x4 * 2 ^ 24 + buf * 2 ^ 20 + idx * 2 ^ 8 + byte.toNat)) 31 24 = 0x4 := by
    rw [bits_ofNat (by omega)]; omega
  have f0 : bits (BitVec.ofNat 32 (0x4 * 2 ^ 24 + buf * 2 ^ 20 + idx * 2 ^ 8 + byte.toNat)) 23 20 = buf := by
    rw [bits_ofNat (by omega)]; omega
  have f1 : bits (BitVec.ofNat 32 (0x4 * 2 ^ 24 + buf * 2 ^ 20 + idx * 2 ^ 8 + byte.toNat)) 19 8 = idx := by
    rw [bits_ofNat (by omega)]; omega
  have f2 : bits (BitVec.ofNat 32 (0x4 * 2 ^ 24 + buf * 2 ^ 20 + idx * 2 ^ 8 + byte.toNat)) 7 0 = byte.toNat := by
    rw [bits_ofNat (by omega)]; omega
  simp only [decode, hop, f0, f1, f2, byte_ofNat_toNat]

theorem brd (buf idx : Nat) : Statement (.brd buf idx) := by
  intro h
  simp only [WellFormed, Bool.and_eq_true, decide_eq_true_eq] at h
  simp only [encode, formatBW]
  have hop : bits (BitVec.ofNat 32 (0x5 * 2 ^ 24 + buf * 2 ^ 20 + idx * 2 ^ 8 + 0)) 31 24 = 0x5 := by
    rw [bits_ofNat (by omega)]; omega
  have f0 : bits (BitVec.ofNat 32 (0x5 * 2 ^ 24 + buf * 2 ^ 20 + idx * 2 ^ 8 + 0)) 23 20 = buf := by
    rw [bits_ofNat (by omega)]; omega
  have f1 : bits (BitVec.ofNat 32 (0x5 * 2 ^ 24 + buf * 2 ^ 20 + idx * 2 ^ 8 + 0)) 19 8 = idx := by
    rw [bits_ofNat (by omega)]; omega
  simp only [decode, hop, f0, f1]
  exact whenZero_of_zero (by simp (disch := omega) only [bits_ofNat]; omega)

theorem blen (buf n : Nat) : Statement (.blen buf n) := by
  intro h
  simp only [WellFormed, Bool.and_eq_true, decide_eq_true_eq] at h
  simp only [encode, formatBW]
  have hop : bits (BitVec.ofNat 32 (0x6 * 2 ^ 24 + buf * 2 ^ 20 + n * 2 ^ 8 + 0)) 31 24 = 0x6 := by
    rw [bits_ofNat (by omega)]; omega
  have f0 : bits (BitVec.ofNat 32 (0x6 * 2 ^ 24 + buf * 2 ^ 20 + n * 2 ^ 8 + 0)) 23 20 = buf := by
    rw [bits_ofNat (by omega)]; omega
  have f1 : bits (BitVec.ofNat 32 (0x6 * 2 ^ 24 + buf * 2 ^ 20 + n * 2 ^ 8 + 0)) 19 8 = n := by
    rw [bits_ofNat (by omega)]; omega
  simp only [decode, hop, f0, f1]
  exact whenZero_of_zero (by simp (disch := omega) only [bits_ofNat]; omega)

theorem mrd (row col : Nat) : Statement (.mrd row col) := by
  intro h
  simp only [WellFormed, Bool.and_eq_true, decide_eq_true_eq] at h
  simp only [encode, formatAB]
  have hop : bits (BitVec.ofNat 32 (0x7 * 2 ^ 24 + row * 2 ^ 8 + col)) 31 24 = 0x7 := by
    rw [bits_ofNat (by omega)]; omega
  have f0 : bits (BitVec.ofNat 32 (0x7 * 2 ^ 24 + row * 2 ^ 8 + col)) 15 8 = row := by
    rw [bits_ofNat (by omega)]; omega
  have f1 : bits (BitVec.ofNat 32 (0x7 * 2 ^ 24 + row * 2 ^ 8 + col)) 7 0 = col := by
    rw [bits_ofNat (by omega)]; omega
  simp only [decode, hop, f0, f1]
  exact whenZero_of_zero (by simp (disch := omega) only [bits_ofNat]; omega)

theorem gfadd (a b : Byte) : Statement (.gfadd a b) := by
  intro _
  have h_a := a.isLt
  have h_b := b.isLt
  simp only [encode, formatAB]
  have hop : bits (BitVec.ofNat 32 (0x10 * 2 ^ 24 + a.toNat * 2 ^ 8 + b.toNat)) 31 24 = 0x10 := by
    rw [bits_ofNat (by omega)]; omega
  have f0 : bits (BitVec.ofNat 32 (0x10 * 2 ^ 24 + a.toNat * 2 ^ 8 + b.toNat)) 15 8 = a.toNat := by
    rw [bits_ofNat (by omega)]; omega
  have f1 : bits (BitVec.ofNat 32 (0x10 * 2 ^ 24 + a.toNat * 2 ^ 8 + b.toNat)) 7 0 = b.toNat := by
    rw [bits_ofNat (by omega)]; omega
  simp only [decode, hop, f0, f1, byte_ofNat_toNat]
  exact whenZero_of_zero (by simp (disch := omega) only [bits_ofNat]; omega)

theorem gfmul (a b : Byte) : Statement (.gfmul a b) := by
  intro _
  have h_a := a.isLt
  have h_b := b.isLt
  simp only [encode, formatAB]
  have hop : bits (BitVec.ofNat 32 (0x11 * 2 ^ 24 + a.toNat * 2 ^ 8 + b.toNat)) 31 24 = 0x11 := by
    rw [bits_ofNat (by omega)]; omega
  have f0 : bits (BitVec.ofNat 32 (0x11 * 2 ^ 24 + a.toNat * 2 ^ 8 + b.toNat)) 15 8 = a.toNat := by
    rw [bits_ofNat (by omega)]; omega
  have f1 : bits (BitVec.ofNat 32 (0x11 * 2 ^ 24 + a.toNat * 2 ^ 8 + b.toNat)) 7 0 = b.toNat := by
    rw [bits_ofNat (by omega)]; omega
  simp only [decode, hop, f0, f1, byte_ofNat_toNat]
  exact whenZero_of_zero (by simp (disch := omega) only [bits_ofNat]; omega)

theorem gfdiv (a b : Byte) : Statement (.gfdiv a b) := by
  intro _
  have h_a := a.isLt
  have h_b := b.isLt
  simp only [encode, formatAB]
  have hop : bits (BitVec.ofNat 32 (0x12 * 2 ^ 24 + a.toNat * 2 ^ 8 + b.toNat)) 31 24 = 0x12 := by
    rw [bits_ofNat (by omega)]; omega
  have f0 : bits (BitVec.ofNat 32 (0x12 * 2 ^ 24 + a.toNat * 2 ^ 8 + b.toNat)) 15 8 = a.toNat := by
    rw [bits_ofNat (by omega)]; omega
  have f1 : bits (BitVec.ofNat 32 (0x12 * 2 ^ 24 + a.toNat * 2 ^ 8 + b.toNat)) 7 0 = b.toNat := by
    rw [bits_ofNat (by omega)]; omega
  simp only [decode, hop, f0, f1, byte_ofNat_toNat]
  exact whenZero_of_zero (by simp (disch := omega) only [bits_ofNat]; omega)

theorem gfexp (n : Nat) : Statement (.gfexp n) := by
  intro h
  simp only [WellFormed, decide_eq_true_eq] at h
  simp only [encode, formatN]
  have hop : bits (BitVec.ofNat 32 (0x13 * 2 ^ 24 + n)) 31 24 = 0x13 := by
    rw [bits_ofNat (by omega)]; omega
  have f0 : bits (BitVec.ofNat 32 (0x13 * 2 ^ 24 + n)) 7 0 = n := by
    rw [bits_ofNat (by omega)]; omega
  simp only [decode, hop, f0]
  exact whenZero_of_zero (by simp (disch := omega) only [bits_ofNat]; omega)

theorem gflog (n : Byte) : Statement (.gflog n) := by
  intro _
  have h_n := n.isLt
  simp only [encode, formatN]
  have hop : bits (BitVec.ofNat 32 (0x14 * 2 ^ 24 + n.toNat)) 31 24 = 0x14 := by
    rw [bits_ofNat (by omega)]; omega
  have f0 : bits (BitVec.ofNat 32 (0x14 * 2 ^ 24 + n.toNat)) 7 0 = n.toNat := by
    rw [bits_ofNat (by omega)]; omega
  simp only [decode, hop, f0, byte_ofNat_toNat]
  exact whenZero_of_zero (by simp (disch := omega) only [bits_ofNat]; omega)

theorem genld (n : Nat) : Statement (.genld n) := by
  intro h
  simp only [WellFormed, decide_eq_true_eq] at h
  simp only [encode, formatN]
  have hop : bits (BitVec.ofNat 32 (0x20 * 2 ^ 24 + n)) 31 24 = 0x20 := by
    rw [bits_ofNat (by omega)]; omega
  have f0 : bits (BitVec.ofNat 32 (0x20 * 2 ^ 24 + n)) 7 0 = n := by
    rw [bits_ofNat (by omega)]; omega
  simp only [decode, hop, f0]
  exact whenZero_of_zero (by simp (disch := omega) only [bits_ofNat]; omega)

theorem pmul : Statement .pmul := fun _ => rfl

theorem prem : Statement .prem := fun _ => rfl

theorem rscfg (ndata nblk ecpb : Nat) : Statement (.rscfg ndata nblk ecpb) := by
  intro h
  simp only [WellFormed, Bool.and_eq_true, decide_eq_true_eq] at h
  simp only [encode, formatRS]
  have hop : bits (BitVec.ofNat 32 (0x30 * 2 ^ 24 + ndata * 2 ^ 12 + nblk * 2 ^ 5 + ecpb)) 31 24 = 0x30 := by
    rw [bits_ofNat (by omega)]; omega
  have f0 : bits (BitVec.ofNat 32 (0x30 * 2 ^ 24 + ndata * 2 ^ 12 + nblk * 2 ^ 5 + ecpb)) 23 12 = ndata := by
    rw [bits_ofNat (by omega)]; omega
  have f1 : bits (BitVec.ofNat 32 (0x30 * 2 ^ 24 + ndata * 2 ^ 12 + nblk * 2 ^ 5 + ecpb)) 11 5 = nblk := by
    rw [bits_ofNat (by omega)]; omega
  have f2 : bits (BitVec.ofNat 32 (0x30 * 2 ^ 24 + ndata * 2 ^ 12 + nblk * 2 ^ 5 + ecpb)) 4 0 = ecpb := by
    rw [bits_ofNat (by omega)]; omega
  simp only [decode, hop, f0, f1, f2]

theorem rsenc : Statement .rsenc := fun _ => rfl

theorem fmtword (lv : Level) (m : Nat) : Statement (.fmtword lv m) := by
  intro h
  simp only [WellFormed, decide_eq_true_eq] at h
  have h_lv := lv.ordinal_lt
  simp only [encode, formatFW]
  have hop : bits (BitVec.ofNat 32 (0x32 * 2 ^ 24 + lv.ordinal * 2 ^ 8 + m)) 31 24 = 0x32 := by
    rw [bits_ofNat (by omega)]; omega
  have f0 : bits (BitVec.ofNat 32 (0x32 * 2 ^ 24 + lv.ordinal * 2 ^ 8 + m)) 9 8 = lv.ordinal := by
    rw [bits_ofNat (by omega)]; omega
  have f1 : bits (BitVec.ofNat 32 (0x32 * 2 ^ 24 + lv.ordinal * 2 ^ 8 + m)) 2 0 = m := by
    rw [bits_ofNat (by omega)]; omega
  simp only [decode, hop, f0, f1, Level.ofOrdinal_ordinal]
  exact whenZero_of_zero (by simp (disch := omega) only [bits_ofNat]; omega)

theorem verword (v : Nat) : Statement (.verword v) := by
  intro h
  simp only [WellFormed, decide_eq_true_eq] at h
  simp only [encode, formatN]
  have hop : bits (BitVec.ofNat 32 (0x33 * 2 ^ 24 + v)) 31 24 = 0x33 := by
    rw [bits_ofNat (by omega)]; omega
  have f0 : bits (BitVec.ofNat 32 (0x33 * 2 ^ 24 + v)) 5 0 = v := by
    rw [bits_ofNat (by omega)]; omega
  simp only [decode, hop, f0]
  exact whenZero_of_zero (by simp (disch := omega) only [bits_ofNat]; omega)

theorem plfind : Statement .plfind := fun _ => rfl

theorem pltime : Statement .pltime := fun _ => rfl

theorem plalign : Statement .plalign := fun _ => rfl

theorem plfmt (m : Nat) : Statement (.plfmt m) := by
  intro h
  simp only [WellFormed, decide_eq_true_eq] at h
  simp only [encode, formatN]
  have hop : bits (BitVec.ofNat 32 (0x43 * 2 ^ 24 + m)) 31 24 = 0x43 := by
    rw [bits_ofNat (by omega)]; omega
  have f0 : bits (BitVec.ofNat 32 (0x43 * 2 ^ 24 + m)) 2 0 = m := by
    rw [bits_ofNat (by omega)]; omega
  simp only [decode, hop, f0]
  exact whenZero_of_zero (by simp (disch := omega) only [bits_ofNat]; omega)

theorem plver : Statement .plver := fun _ => rfl

theorem pldark : Statement .pldark := fun _ => rfl

theorem plall : Statement .plall := fun _ => rfl

theorem cntnone : Statement .cntnone := fun _ => rfl

theorem avail : Statement .avail := fun _ => rfl

theorem wkrst : Statement .wkrst := fun _ => rfl

theorem wkbit (b : Bool) : Statement (.wkbit b) := fun _ => by cases b <;> rfl

theorem wkrun : Statement .wkrun := fun _ => rfl

theorem mskapp (m : Nat) : Statement (.mskapp m) := by
  intro h
  simp only [WellFormed, decide_eq_true_eq] at h
  simp only [encode, formatN]
  have hop : bits (BitVec.ofNat 32 (0x60 * 2 ^ 24 + m)) 31 24 = 0x60 := by
    rw [bits_ofNat (by omega)]; omega
  have f0 : bits (BitVec.ofNat 32 (0x60 * 2 ^ 24 + m)) 2 0 = m := by
    rw [bits_ofNat (by omega)]; omega
  simp only [decode, hop, f0]
  exact whenZero_of_zero (by simp (disch := omega) only [bits_ofNat]; omega)

theorem penalty : Statement .penalty := fun _ => rfl

theorem msksel : Statement .msksel := fun _ => rfl

end Sys2Proof.Laws.RoundTrip
end

