-- ==== Sys2Proof/Tests/Slice0.lean ====
section
/-! SUPPORT. Tests of the model: ill-formed terms, words written out bit by bit, single steps with the values the spec
prints, and for each statement with hypotheses a concrete state that meets them. -/

set_option Elab.async false

open Sys2Proof Sys2Proof.Machine

namespace Sys2Proof.Tests

/-! ## The configuration agrees with the types (00_scope R11) -/

theorem test_config_widths : Word = BitVec fixedParams.commandBits ∧ Word = BitVec fixedParams.valBits ∧
    (∀ x : Err, x.code.toNat < 2 ^ fixedParams.errBits) := ⟨rfl, rfl, fun x => x.code.isLt⟩

theorem test_config_tags : (List.range fixedParams.tags).map some =
    ([.free, .finder, .timing, .alignment, .format, .version, .dark] : List Tag).map (fun t => some t.code) := by decide

/-! ## WellFormed refuses an operand beyond its field -/

theorem test_wellFormed_refuses_rdreg : WellFormed (.rdreg 256) = false := by decide

theorem test_wellFormed_refuses_symnew : WellFormed (.symnew 256 .L) = false := by decide

theorem test_wellFormed_refuses_bwr_buf : WellFormed (.bwr 16 0 0) = false := by decide

theorem test_wellFormed_refuses_bwr_idx : WellFormed (.bwr 0 4096 0) = false := by decide

theorem test_wellFormed_refuses_brd_buf : WellFormed (.brd 16 0) = false := by decide

theorem test_wellFormed_refuses_brd_idx : WellFormed (.brd 0 4096) = false := by decide

theorem test_wellFormed_refuses_blen_buf : WellFormed (.blen 16 0) = false := by decide

theorem test_wellFormed_refuses_blen_n : WellFormed (.blen 2 4096) = false := by decide

theorem test_wellFormed_refuses_mrd_row : WellFormed (.mrd 256 0) = false := by decide

theorem test_wellFormed_refuses_mrd_col : WellFormed (.mrd 0 256) = false := by decide

theorem test_wellFormed_refuses_gfexp : WellFormed (.gfexp 256) = false := by decide

theorem test_wellFormed_refuses_genld : WellFormed (.genld 256) = false := by decide

theorem test_wellFormed_refuses_rscfg_ndata : WellFormed (.rscfg 4096 1 0) = false := by decide

theorem test_wellFormed_refuses_rscfg_nblk : WellFormed (.rscfg 200 128 0) = false := by decide

theorem test_wellFormed_refuses_rscfg_ecpb : WellFormed (.rscfg 1 1 32) = false := by decide

theorem test_wellFormed_refuses_fmtword : WellFormed (.fmtword .L 8) = false := by decide

theorem test_wellFormed_refuses_verword : WellFormed (.verword 64) = false := by decide

theorem test_wellFormed_refuses_plfmt : WellFormed (.plfmt 8) = false := by decide

theorem test_wellFormed_refuses_mskapp : WellFormed (.mskapp 8) = false := by decide

theorem test_wellFormed_accepts : WellFormed (.bwr 15 4095 255) = true ∧ WellFormed (.symnew 0 .H) = true := by decide


/-! ## Decoding, each word written out bit by bit from the layouts of 30_encoding R81 -/

theorem test_decode_nop : decode 0b00000000_000000000000000000000000 = .instr (.nop) := by decide +kernel

theorem test_decode_reset : decode 0b00000001_000000000000000000000000 = .instr (.reset) := by decide +kernel

theorem test_decode_rdreg : decode 0b00000010_0000000000000000_00010101 = .instr (.rdreg 21) := by decide +kernel

theorem test_decode_symnew : decode 0b00000011_00000000_00101000_000000_10 = .instr (.symnew 40 .Q) := by decide +kernel

theorem test_decode_bwr : decode 0b00000100_0011_101010111100_01011110 = .instr (.bwr 3 0xABC 0x5E) := by decide +kernel

theorem test_decode_brd : decode 0b00000101_0100_111111111110_00000000 = .instr (.brd 4 0xFFE) := by decide +kernel

theorem test_decode_blen : decode 0b00000110_0010_000100000000_00000000 = .instr (.blen 2 256) := by decide +kernel

theorem test_decode_mrd : decode 0b00000111_00000000_00000101_10110000 = .instr (.mrd 5 176) := by decide +kernel

theorem test_decode_gfadd : decode 0b00010000_00000000_01010011_11001010 = .instr (.gfadd 83 202) := by decide +kernel

theorem test_decode_gfmul : decode 0b00010001_00000000_00000010_10000000 = .instr (.gfmul 2 128) := by decide +kernel

theorem test_decode_gfdiv : decode 0b00010010_00000000_00011101_00000010 = .instr (.gfdiv 29 2) := by decide +kernel

theorem test_decode_gfexp : decode 0b00010011_0000000000000000_11111111 = .instr (.gfexp 255) := by decide +kernel

theorem test_decode_gflog : decode 0b00010100_0000000000000000_00011101 = .instr (.gflog 29) := by decide +kernel

theorem test_decode_genld : decode 0b00100000_0000000000000000_00011110 = .instr (.genld 30) := by decide +kernel

theorem test_decode_pmul : decode 0b00100001_000000000000000000000000 = .instr (.pmul) := by decide +kernel

theorem test_decode_prem : decode 0b00100010_000000000000000000000000 = .instr (.prem) := by decide +kernel

theorem test_decode_rscfg : decode 0b00110000_101110001100_1010001_11110 = .instr (.rscfg 2956 81 30) := by decide +kernel

theorem test_decode_rsenc : decode 0b00110001_000000000000000000000000 = .instr (.rsenc) := by decide +kernel

theorem test_decode_fmtword : decode 0b00110010_00000000000000_11_00000_110 = .instr (.fmtword .H 6) := by decide +kernel

theorem test_decode_verword : decode 0b00110011_000000000000000000_101001 = .instr (.verword 41) := by decide +kernel

theorem test_decode_plfind : decode 0b01000000_000000000000000000000000 = .instr (.plfind) := by decide +kernel

theorem test_decode_pltime : decode 0b01000001_000000000000000000000000 = .instr (.pltime) := by decide +kernel

theorem test_decode_plalign : decode 0b01000010_000000000000000000000000 = .instr (.plalign) := by decide +kernel

theorem test_decode_plfmt : decode 0b01000011_000000000000000000000_101 = .instr (.plfmt 5) := by decide +kernel

theorem test_decode_plver : decode 0b01000100_000000000000000000000000 = .instr (.plver) := by decide +kernel

theorem test_decode_pldark : decode 0b01000101_000000000000000000000000 = .instr (.pldark) := by decide +kernel

theorem test_decode_plall : decode 0b01000110_000000000000000000000000 = .instr (.plall) := by decide +kernel

theorem test_decode_cntnone : decode 0b01000111_000000000000000000000000 = .instr (.cntnone) := by decide +kernel

theorem test_decode_avail : decode 0b01001000_000000000000000000000000 = .instr (.avail) := by decide +kernel

theorem test_decode_wkrst : decode 0b01010000_000000000000000000000000 = .instr (.wkrst) := by decide +kernel

theorem test_decode_wkbit : decode 0b01010001_00000000000000000000000_1 = .instr (.wkbit true) := by decide +kernel

theorem test_decode_wkrun : decode 0b01010010_000000000000000000000000 = .instr (.wkrun) := by decide +kernel

theorem test_decode_mskapp : decode 0b01100000_000000000000000000000_100 = .instr (.mskapp 4) := by decide +kernel

theorem test_decode_penalty : decode 0b01100001_000000000000000000000000 = .instr (.penalty) := by decide +kernel

theorem test_decode_msksel : decode 0b01100010_000000000000000000000000 = .instr (.msksel) := by decide +kernel

theorem test_illegal_nop_mbz : decode 0x00000001 = .illegal (.mustBeZero 0) := by decide +kernel

theorem test_illegal_reset_mbz : decode 0x01000100 = .illegal (.mustBeZero 1) := by decide +kernel

theorem test_illegal_rdreg_mbz : decode 0x02000100 = .illegal (.mustBeZero 2) := by decide +kernel

theorem test_illegal_symnew_mbz : decode 0x03000104 = .illegal (.mustBeZero 3) := by decide +kernel

theorem test_illegal_brd_mbz : decode 0x05000001 = .illegal (.mustBeZero 5) := by decide +kernel

theorem test_illegal_blen_mbz : decode 0x06200580 = .illegal (.mustBeZero 6) := by decide +kernel

theorem test_illegal_mrd_mbz : decode 0x07010000 = .illegal (.mustBeZero 7) := by decide +kernel

theorem test_illegal_fmtword_mbz : decode 0x32000408 = .illegal (.mustBeZero 0x32) := by decide +kernel

theorem test_illegal_verword_mbz : decode 0x33000040 = .illegal (.mustBeZero 0x33) := by decide +kernel

theorem test_illegal_wkbit_mbz : decode 0x51000002 = .illegal (.mustBeZero 0x51) := by decide +kernel

theorem test_illegal_mskapp_mbz : decode 0x60000008 = .illegal (.mustBeZero 0x60) := by decide +kernel

theorem test_illegal_op08 : decode 0x08000000 = .illegal (.unassignedOpcode 8) := by decide +kernel

theorem test_illegal_op49 : decode 0x49000000 = .illegal (.unassignedOpcode 0x49) := by decide +kernel

theorem test_illegal_opFF : decode 0xFF000000 = .illegal (.unassignedOpcode 255) := by decide +kernel

/-! ## Small states -/

/-- The engine after SYMNEW on the reset engine. -/
def blank (v : Nat) (lv : Level) : Engine := Engine.reset.newSymbol v lv

/-- A machine with this engine, nothing presented. -/
def withEngine (e : Engine) : State := { State.reset with eng := e }

/-- A machine with a blank Symbol of version 1. -/
def sym1 : State := withEngine (blank 1 .L)

/-- The same with every pattern stamped. -/
def placed1 : State := withEngine ((blank 1 .L).stampAll (allStamps .document 1 .L 0))

/-- A blank Symbol of version 1 with the walker at the end of its walk. -/
def ended1 : State := withEngine { sym1.eng with walk := ⟨20, 0, .revBottom, false, 0⟩ }

/-- A faulted machine. -/
def faulted1 : State := withEngine { placed1.eng with fault := true, fcode := 8 }

/-- Polynomials [1, 1] in A and [1, 2] in B. -/
def polys : State :=
  withEngine { Engine.reset with bufA := [(0, 1), (1, 1)], lena := 2, bufB := [(0, 1), (1, 2)], lenb := 2 }

/-- A machine that refuses unwritten bytes, and one that draws them. -/
def refusing (e : Engine) : State := { withEngine e with cfg := { align := .document, unwritten := .refuse } }

def drawing (e : Engine) : State := { withEngine e with cfg := { align := .document, unwritten := .anyValue } }

/-- The response (err code, val) of a next state. -/
def reply (r : Result) : Option (Nat × Nat) :=
  match r with
  | .next t => t.resp.map fun x => (x.err.code.toNat, x.val.toNat)
  | .fault _ => none
  | .refused _ => none

/-- The buffer whose unwritten byte stopped the command. -/
def refusedFor (r : Result) : Option Buf :=
  match r with
  | .refused (.unwrittenByte b) => some b
  | .refused (.notModelled _) => none
  | .next _ => none
  | .fault _ => none

/-- The engine of a next state, the reset engine otherwise. -/
def engineOf (r : Result) : Engine :=
  match r with
  | .next t => t.eng
  | .fault _ => Engine.reset
  | .refused _ => Engine.reset

/-- What MRD answers of a cell. -/
def cellValue (e : Engine) (r c : Nat) : Nat := 256 * (e.tagAt r c).code + (e.modAt r c).toNat

/-! ## One step each, expected values from the examples of the rules and from 95_test_vectors -/

theorem test_nop : reply (exec .nop faulted1) = some (0, 0) := by decide +kernel

theorem test_reset_clears_the_fault : engineOf (exec .reset faulted1) = Engine.reset := by decide +kernel

theorem test_rdreg_id_and_walker : reply (exec (.rdreg 0) .reset) = some (0, 0x51524745) ∧
    reply (exec (.rdreg 15) .reset) = some (0, 0x100) := by decide +kernel

theorem test_rdreg_status_faulted : reply (exec (.rdreg 1) faulted1) = some (0, 0x803) ∧
    reply (exec (.rdreg 22) faulted1) = some (2, 0) := by decide +kernel

theorem test_symnew : reply (exec (.symnew 2 .M) .reset) = some (0, 25) := by decide +kernel

theorem test_symnew_range : reply (exec (.symnew 0 .L) .reset) = some (2, 0) ∧
    reply (exec (.symnew 41 .L) .reset) = some (2, 0) := by decide +kernel

theorem test_bwr_stores : memRead (engineOf (exec (.bwr 0 4095 0x41) .reset)).bufD 4095 = some 0x41 ∧
    memRead (engineOf (exec (.bwr 3 255 7) polys)).bufB 1 = some 2 := by decide +kernel

theorem test_bwr_range : reply (exec (.bwr 2 256 1) .reset) = some (2, 0) ∧
    reply (exec (.bwr 1 0 1) .reset) = some (2, 0) := by decide +kernel

theorem test_brd_written : reply (exec (.brd 3 1) polys) = some (0, 2) ∧
    reply (exec (.brd 1 0) polys) = some (2, 0) := by decide +kernel

/-- An unwritten byte: no meaning under the default of P_UNWRITTEN, an answer under the other value (20_memory R66). -/
theorem test_brd_unwritten_refused : refusedFor (exec (.brd 0 0) .reset) = some .D := by decide +kernel

theorem test_brd_unwritten_drawn : refusedFor (exec (.brd 0 0) (drawing Engine.reset)) = none := by decide +kernel

theorem test_blen : (engineOf (exec (.blen 2 5) polys)).lena = 5 ∧ (engineOf (exec (.blen 3 256) polys)).lenb = 256 := by
  decide +kernel

theorem test_blen_range : reply (exec (.blen 2 257) .reset) = some (2, 0) ∧
    reply (exec (.blen 0 5) .reset) = some (2, 0) := by decide +kernel

theorem test_mrd : reply (exec (.mrd 0 0) placed1) = some (0, 0x101) ∧
    reply (exec (.mrd 13 8) placed1) = some (0, 0x601) := by decide +kernel

theorem test_mrd_nosym_before_range : reply (exec (.mrd 200 200) .reset) = some (3, 0) ∧
    reply (exec (.mrd 21 0) sym1) = some (2, 0) := by decide +kernel

theorem test_gfadd : reply (exec (.gfadd 0x53 0xCA) .reset) = some (0, 0x99) := by decide +kernel

theorem test_gfmul : reply (exec (.gfmul 0x53 0xCA) .reset) = some (0, 0x8F) ∧
    reply (exec (.gfmul 0 77) .reset) = some (0, 0) := by decide +kernel

theorem test_gfdiv : reply (exec (.gfdiv 1 2) .reset) = some (0, 142) ∧
    reply (exec (.gfdiv 5 0) .reset) = some (4, 0) := by decide +kernel

theorem test_gfexp : reply (exec (.gfexp 25) .reset) = some (0, 3) ∧
    reply (exec (.gfexp 255) .reset) = some (0, 1) := by decide +kernel

theorem test_gflog : reply (exec (.gflog 29) .reset) = some (0, 8) ∧
    reply (exec (.gflog 0) .reset) = some (4, 0) := by decide +kernel

theorem test_genld : (engineOf (exec (.genld 2) .reset)).bufB = [(0, 1), (1, 3), (2, 2)] ∧
    reply (exec (.genld 31) .reset) = some (2, 0) := by decide +kernel

theorem test_pmul : (engineOf (exec .pmul polys)).bufR = [(0, 1), (1, 3), (2, 2)] ∧
    reply (exec .pmul .reset) = some (5, 0) := by decide +kernel

/-- The worked steps of 42_polynomial R148: [1, 2, 3, 0, 0] by GEN[2] leaves [4, 4]. -/
theorem test_prem : (engineOf (exec .prem (withEngine { Engine.reset with
      bufA := [(0, 1), (1, 2), (2, 3), (3, 0), (4, 0)], lena := 5,
      bufB := [(0, 1), (1, 3), (2, 2)], lenb := 3 }))).bufR = [(0, 4), (1, 4)] := by decide +kernel

theorem test_prem_len_before_divzero : reply (exec .prem .reset) = some (5, 0) ∧
    reply (exec .prem (withEngine { Engine.reset with bufB := [(0, 0)], lenb := 1 })) = some (4, 0) := by decide +kernel

theorem test_rscfg : reply (exec (.rscfg 62 4 18) .reset) = some (0, 134) ∧
    reply (exec (.rscfg 10 1 31) .reset) = some (6, 0) := by decide +kernel

/-- The 28 data codewords of V1. -/
def vectorOne : List Byte :=
  [0x41, 0x76, 0x87, 0x47, 0x47, 0x07, 0x33, 0xA2, 0xF2, 0xF7, 0x77, 0x77, 0x72, 0xE7] ++
  [0x17, 0x26, 0x36, 0xF6, 0x46, 0x52, 0xE6, 0x36, 0xF6, 0xD2, 0xF0, 0xEC, 0x11, 0xEC]

/-- V1, the source's known vector, as RSENC computes it. -/
theorem test_rsenc_known_vector : ((engineOf (exec .rsenc (withEngine { Engine.reset with
      bufD := cellsFrom 0 vectorOne, ndata := 28, nblk := 1, ecpb := 16 }))).bufO.drop 28).map (fun x => x.2) =
    [52, 61, 242, 187, 29, 7, 216, 249, 103, 87, 95, 69, 188, 134, 57, 20] := by decide +kernel

/-- V10: an uneven split puts the longer block's last codeword after the even columns. -/
theorem test_stream_uneven : rsStream [1, 2, 3, 4, 5] 5 0 2 = [1, 3, 2, 4, 5] := by decide +kernel

theorem test_fmtword : reply (exec (.fmtword .M 5) .reset) = some (0, 0x40CE) ∧
    reply (exec (.fmtword .Q 0) .reset) = some (0, 0x355F) := by decide +kernel

theorem test_verword : reply (exec (.verword 7) .reset) = some (0, 0x07C94) ∧
    reply (exec (.verword 63) .reset) = some (0, 0x3FB85) := by decide +kernel

theorem test_plfind : cellValue (engineOf (exec .plfind sym1)) 0 13 = 0x100 ∧
    cellValue (engineOf (exec .plfind sym1)) 14 0 = 0x101 := by decide +kernel

theorem test_pltime : cellValue (engineOf (exec .pltime sym1)) 6 9 = 0x200 ∧
    cellValue (engineOf (exec .pltime sym1)) 12 6 = 0x201 := by decide +kernel

theorem test_plalign : cellValue (engineOf (exec .plalign (withEngine (blank 2 .L)))) 17 18 = 0x300 ∧
    cellValue (engineOf (exec .plalign (withEngine (blank 2 .L)))) 16 16 = 0x301 := by decide +kernel

theorem test_plfmt : cellValue (engineOf (exec (.plfmt 5) (withEngine (blank 1 .M)))) 1 8 = 0x401 ∧
    cellValue (engineOf (exec (.plfmt 5) (withEngine (blank 1 .M)))) 8 20 = 0x400 := by decide +kernel

theorem test_plver : cellValue (engineOf (exec .plver (withEngine (blank 7 .L)))) 4 36 = 0x501 ∧
    cellValue (engineOf (exec .plver (withEngine (blank 7 .L)))) 36 0 = 0x501 := by decide +kernel

theorem test_pldark : cellValue (engineOf (exec .pldark sym1)) 13 8 = 0x601 := by decide +kernel

theorem test_plall : engineOf (exec .plall sym1) = placed1.eng := by decide +kernel

theorem test_cntnone : reply (exec .cntnone sym1) = some (0, 441) ∧ reply (exec .cntnone placed1) = some (0, 208) := by
  decide +kernel

theorem test_avail : reply (exec .avail (withEngine (blank 2 .M))) = some (0, 359) ∧
    reply (exec .avail .reset) = some (3, 0) := by decide +kernel

theorem test_wkrst : (engineOf (exec .wkrst ended1)).walk = ⟨20, 20, .enter, true, 0⟩ := by decide +kernel

theorem test_wkbit : reply (exec (.wkbit true) placed1) = some (0, 0x1414) ∧
    cellValue (engineOf (exec (.wkbit true) placed1)) 20 20 = 1 := by decide +kernel

/-- 45_data_walker R244: from bit 207 at (12, 0) the walk goes over finder cells to (20, 0) and faults. -/
theorem test_wkbit_overflow :
    engineOf (exec (.wkbit true) (withEngine { placed1.eng with walk := ⟨12, 0, .stepDown, false, 208⟩ })) =
      { placed1.eng with walk := ⟨20, 0, .revBottom, false, 208⟩, fault := true, fcode := 8 } := by decide +kernel

/-- 45_data_walker R244: the first codeword runs from (20, 20) up to (17, 19), most significant bit first. -/
theorem test_wkrun :
    (([(20, 20), (20, 19), (19, 20), (19, 19), (18, 20), (18, 19), (17, 20), (17, 19)] : List (Nat × Nat)).map
      fun p => cellValue (engineOf (exec .wkrun (withEngine { placed1.eng with bufO := [(0, 0x41)], olen := 1 }))) p.1 p.2)
      = [0, 1, 0, 0, 0, 0, 0, 1] := by decide +kernel

theorem test_mskapp : cellValue (engineOf (exec (.mskapp 0) placed1)) 20 20 = 1 ∧
    cellValue (engineOf (exec (.mskapp 0) placed1)) 0 0 = 0x101 := by decide +kernel

theorem test_penalty_blank : reply (exec .penalty sym1) = some (0, 2018) := by decide +kernel

theorem test_penalty_placed : reply (exec .penalty placed1) = some (0, 1584) := by decide +kernel

/-- 46_mask_penalty R278. -/
theorem test_penalty_vectors : scoresOf [[true, true, true, true, true]] = ⟨3, 0, 0, 20⟩ ∧
    scoresOf [[true, true], [true, true]] = ⟨0, 3, 0, 20⟩ ∧ scoresOf [[true]] = ⟨0, 0, 0, 20⟩ ∧
    penPatterns [[false, false, false, false, true, false, true, true, true, false, true, false, false, false, false]] = 80 := by
  decide +kernel

theorem test_msksel : reply (exec .msksel placed1) = some (0, 0) := by decide +kernel

/-- 60_exceptions R327: decoding before the fault gate, the gate before the Symbol check. -/
theorem test_priority : reply (step (presentWord 0x00000001 faulted1)) = some (1, 0) ∧
    reply (step (presentWord 0x40000000 faulted1)) = some (7, 0) ∧
    reply (step (presentWord 0x40000000 .reset)) = some (3, 0) := by decide +kernel

theorem test_hardware_reset : engineOf (step { faulted1 with input := [.hardReset] }) = Engine.reset := by decide +kernel

theorem test_fetch_word : reply (step (State.reset.withFetchWord 32 0x02000000)) = some (0, 0x51524745) := by
  decide +kernel

/-! ## The hypotheses of the statements are met: for each statement a concrete state and operands, boundaries included -/

theorem ready_sym1 : sym1.Ready := ⟨rfl, by decide⟩
theorem ready_placed1 : placed1.Ready := ⟨rfl, by decide +kernel⟩
theorem ready_ended1 : ended1.Ready := ⟨rfl, by decide⟩

theorem grids_sym1 : sym1.eng.GridsOk := ⟨by decide +kernel, by decide +kernel⟩

/-- A blank Symbol of version 1 meets the invariant. -/
theorem inv_sym1 : sym1.Inv where
  version_le := by decide
  mask_lt := by decide
  mod_square := by decide +kernel
  tag_square := by decide +kernel
  fcode_eq := rfl
  fault_sym := fun h => by cases h
  buffers := fun b => by cases b <;> exact ⟨.nil, fun _ h => by cases h⟩
  o_written := fun i hi => absurd hi (Nat.not_lt_zero i)
  r_written := fun i hi => absurd hi (Nat.not_lt_zero i)
  olen_le := by decide
  lena_le := by decide
  lenb_le := by decide
  lenr_le := by decide
  ndata_le := by decide
  nblk_le := by decide
  ecpb_le := by decide
  blocks := by decide
  stream_le := by decide
  walk_idle := fun h => by cases h
  walk_inv := fun _ => start_inv (by decide)
  pen1_le := by decide
  pen2_le := by decide
  pen3_le := by decide
  pen4_le := by decide
  pent_eq := rfl

theorem inv_placed1 : placed1.Inv := stampAll_inv _ inv_sym1

theorem grids_placed1 : placed1.eng.GridsOk := ⟨inv_placed1.mod_square, inv_placed1.tag_square⟩

/-- The end of the walk is a place a walk can come to. -/
theorem inv_ended1 : ended1.Inv :=
  { inv_sym1 with
    buffers := buffers_same (fun b => by cases b <;> rfl) inv_sym1
    walk_idle := fun h => by cases h
    walk_inv := fun _ =>
      { row_lt := by decide +kernel
        col_lt := by decide +kernel
        start := fun h => by cases h
        not_six := fun _ => by decide
        climbing := fun _ => by decide +kernel
        atRight := fun h => by cases h
        atLeft := fun _ _ => by decide
        goesUp := fun h => by cases h
        turnsTop := fun h => by cases h
        goesDown := fun h => by cases h
        turnsDown := fun _ => ⟨rfl, by decide +kernel⟩
        counted := by decide +kernel } }

theorem witness_ResetLeavesTheSpecValues :
    ({ faulted1 with input := [.hardReset, .command 0] } : State).input = .hardReset :: [.command 0] := rfl

theorem witness_StepRunsTheDecodedCommand :
    ({ sym1 with input := [.command 0x02000015] } : State).input = .command 0x02000015 :: [] ∧
    decode 0x02000015 = .instr (.rdreg 21) ∧ sym1.input = [] := ⟨rfl, by decide +kernel, rfl⟩

theorem witness_OpcodeTableDecides :
    ("FMTWORD", 0x32000000, 0xFFFFFCF8) ∈ opcodeTable ∧ (0x32000307 : Word) &&& 0xFFFFFCF8 = 0x32000000 ∧
    decode 0x32000307 = .instr (.fmtword .H 7) := by decide +kernel

theorem witness_IllegalWordsAnswerIllegal :
    (∀ a ∈ opcodeTable, (0x00000001 : Word) &&& a.2.2 ≠ a.2.1) ∧ (∀ a ∈ opcodeTable, (0xFF000000 : Word) &&& a.2.2 ≠ a.2.1) := by
  decide +kernel

theorem witness_DecodeOfEncode : WellFormed (.bwr 15 4095 255) = true ∧ WellFormed (.rscfg 4095 127 31) = true ∧
    WellFormed (.verword 63) = true := by decide

theorem witness_EncodeOfDecode : decode 0x04FFFFFF = .instr (.bwr 15 4095 255) := by decide +kernel

theorem witness_RdregReadsTheRegister : (registerList placed1.eng)[21]? = some 0 ∧ (registerList sym1.eng)[5]? = some 21 ∧
    21 < 22 := by decide +kernel

theorem witness_StatusFields : sym1.Inv := inv_sym1

theorem witness_SymnewStartsASymbol : sym1.eng.fault = false ∧ 1 ≤ 1 ∧ 1 ≤ 40 ∧ 40 ≤ 40 ∧ (0 = 0 ∨ 40 < 0) ∧ (41 = 0 ∨ 40 < 41) := by
  decide +kernel

theorem witness_BwrWritesOneByte : polys.eng.fault = false ∧ 4095 ≤ 4095 ∧ 255 ≤ 255 ∧
    (∀ p ∈ [(1, 0), (4, 0), (15, 0), (2, 256), (3, 4095)], p.1 = 1 ∨ 3 < p.1 ∨ (2 ≤ p.1 ∧ p.1 ≤ 3 ∧ 255 < p.2)) := by
  decide +kernel

/-- The five clauses: the encoding at its largest fields, a written byte at the last readable index, unwritten bytes under
both parameters, and the two ranges. -/
theorem witness_BrdReadsOneByte : 15 < 16 ∧ 4095 < 4096 ∧ polys.eng.fault = false ∧
    (3, Buf.B, 256) ∈ readLimits polys.eng ∧ memRead (polys.eng.buf .B) 1 = some 2 ∧
    (3, Buf.B, 256) ∈ readLimits (drawing polys.eng).eng ∧ memRead ((drawing polys.eng).eng.buf .B) 255 = none ∧
    (drawing polys.eng).eng.fault = false ∧ (drawing polys.eng).cfg.unwritten = .anyValue ∧
    (0, Buf.D, 4096) ∈ readLimits (refusing Engine.reset).eng ∧ memRead ((refusing Engine.reset).eng.buf .D) 4095 = none ∧
    (refusing Engine.reset).cfg.unwritten = .refuse ∧ 4 < 5 ∧ (1, Buf.O, 0) ∈ readLimits polys.eng ∧ 0 ≤ 0 := by
  decide +kernel

theorem witness_BlenSetsTheLength : polys.eng.fault = false ∧ 256 ≤ 256 ∧ (4 ≠ 2 ∧ 4 ≠ 3) ∧ 256 < 257 := by decide +kernel

theorem witness_MrdReadsTheCell : sym1.Ready ∧ sym1.eng.GridsOk ∧ 20 < sym1.eng.width ∧ sym1.eng.width ≤ 21 ∧
    State.reset.eng.fault = false ∧ State.reset.eng.version = 0 :=
  ⟨ready_sym1, grids_sym1, by decide +kernel, by decide +kernel, rfl, rfl⟩

theorem witness_GfaddGfexpGflog : State.reset.eng.fault = false ∧ 255 ≤ 255 ∧ 254 ≤ 254 ∧ (142 : Byte).toNat = doublings 254 ∧
    (1 : Byte).toNat = doublings 0 ∧ (255 : Byte) ≠ 0 := by decide +kernel

theorem witness_GfmulGfdivFieldLaws : State.reset.eng.fault = false ∧ (255 : Byte) ≠ 0 ∧ (1 : Byte) ≠ 0 := by decide +kernel

theorem witness_GenldLoadsTheGenerator : State.reset.eng.fault = false ∧ 30 ≤ 30 ∧ 0 ≤ 30 ∧ 30 < 31 := by decide +kernel

theorem witness_PolymulCoefficients : ([1] : List Byte) ≠ [] ∧ ([1, 2] : List Byte) ≠ [] ∧ 1 < 1 + 2 - 1 := by decide

theorem witness_PolyremIsTheRemainder : (∃ a, ([5, 0] : List Byte).head? = some a ∧ a ≠ 0) ∧
    ([] : List Byte).length < ([5, 0] : List Byte).length ∧ ([5, 0] : List Byte).length ≤ ([7, 7] : List Byte).length ∧
    ([0] : List Byte).length = ([5, 0] : List Byte).length - 1 := ⟨⟨5, rfl, by decide⟩, by decide, by decide, by decide⟩

theorem witness_PolyremOnBits : ([true, false, true] : List Bool).head? = some true ∧
    ([true, false, true] : List Bool).length ≤ ([false, true, true] : List Bool).length := by decide

/-- Written operands; a length of 256 in all; unwritten operands under both parameters; each bad length. -/
theorem witness_PmulStoresTheProduct : polys.eng.fault = false ∧ ([1, 1] : List Byte) ≠ [] ∧
    polys.eng.lena = ([1, 1] : List Byte).length ∧ polys.eng.lenb = ([1, 2] : List Byte).length ∧
    Holds polys.eng .A 0 [1, 1] ∧ Holds polys.eng .B 0 [1, 2] ∧
    1 ≤ (drawing { polys.eng with lena := 256, lenb := 1 }).eng.lenb ∧ 256 + 1 - 1 ≤ 256 ∧
    (drawing { polys.eng with lena := 256, lenb := 1 }).cfg.unwritten = .anyValue ∧
    (refusing { polys.eng with lena := 256, lenb := 1 }).cfg.unwritten = .refuse ∧
    memRead (refusing { polys.eng with lena := 256, lenb := 1 }).eng.bufA 255 = none ∧
    State.reset.eng.lena = 0 ∧ 256 < 256 + 2 - 1 := by
  refine ⟨rfl, by decide, rfl, rfl, ?_, ?_, by decide, by decide, rfl, rfl, by decide +kernel, rfl, by decide⟩ <;>
    (intro i _; rcases i with _ | _ | i <;> rfl)

/-- Written operands; LENB = 0; B[0] = 0; B[0] unwritten under both parameters. -/
theorem witness_PremStoresTheRemainder : polys.eng.fault = false ∧ (∃ a, ([1, 2] : List Byte).head? = some a ∧ a ≠ 0) ∧
    polys.eng.lena = ([1, 1] : List Byte).length ∧ polys.eng.lenb = ([1, 2] : List Byte).length ∧
    Holds polys.eng .A 0 [1, 1] ∧ Holds polys.eng .B 0 [1, 2] ∧ State.reset.eng.lenb = 0 ∧
    memRead (withEngine { polys.eng with bufB := [(0, 0)] }).eng.bufB 0 = some 0 ∧
    memRead (drawing { polys.eng with bufB := [] }).eng.bufB 0 = none ∧
    (drawing { polys.eng with bufB := [] }).cfg.unwritten = .anyValue ∧
    memRead polys.eng.bufB 0 ≠ some 0 ∧
    (refusing { polys.eng with lena := 3 }).cfg.unwritten = .refuse ∧
    memRead (refusing { polys.eng with lena := 3 }).eng.bufA 2 = none := by
  refine ⟨rfl, ⟨1, rfl, by decide⟩, rfl, rfl, ?_, ?_, rfl, rfl, rfl, rfl, by decide +kernel, rfl, rfl⟩ <;>
    (intro i _; rcases i with _ | _ | i <;> rfl)

theorem witness_RscfgStoresTheTriple : State.reset.eng.fault = false ∧ 1 ≤ 127 ∧ 30 ≤ 30 ∧ 127 ≤ 286 ∧ 286 + 30 * 127 ≤ 4096 ∧
    (0 = 0 ∨ 30 < 0 ∨ 5 < 0 ∨ 4096 < 5 + 0 * 0) ∧ (30 < 31) ∧ (3 < 4) ∧ 4096 < 287 + 30 * 127 := by decide +kernel

theorem witness_StreamEntries : ([1, 2, 3, 4, 5] : List Byte).length = 5 ∧ 1 ≤ 2 ∧ 2 ≤ 5 ∧ 30 ≤ 30 ∧ 1 < 5 / 2 ∧ 1 < 2 ∧
    2 - 5 % 2 ≤ 1 ∧ 29 < 30 := by decide

/-- The state of a configured Reed-Solomon unit with its one data codeword written, and the same with two. -/
theorem witness_RsencStoresTheStream :
    Holds (withEngine { Engine.reset with bufD := [(0, 9)], ndata := 1, nblk := 1, ecpb := 2 }).eng .D 0 [9] ∧
    1 ≤ (withEngine { Engine.reset with bufD := [(0, 9)], ndata := 1, nblk := 1, ecpb := 2 }).eng.nblk ∧
    (withEngine { Engine.reset with bufD := [(0, 9)], ndata := 1, nblk := 1, ecpb := 2 }).eng.ndata = ([9] : List Byte).length ∧
    State.reset.eng.nblk = 0 ∧
    1 ≤ (drawing { Engine.reset with ndata := 2, nblk := 1, ecpb := 2 }).eng.nblk ∧
    (drawing { Engine.reset with ndata := 2, nblk := 1, ecpb := 2 }).cfg.unwritten = .anyValue ∧
    (refusing { Engine.reset with bufD := [(0, 9)], ndata := 2, nblk := 1, ecpb := 2 }).cfg.unwritten = .refuse ∧
    memRead (refusing { Engine.reset with bufD := [(0, 9)], ndata := 2, nblk := 1, ecpb := 2 }).eng.bufD 1 = none := by
  refine ⟨?_, by decide, rfl, rfl, by decide, rfl, rfl, rfl⟩
  intro i hi
  rcases i with _ | i
  · rfl
  · simp at hi

theorem witness_CodewordsVanishAtTheRoots : 30 ≤ 30 ∧ 29 < 30 := by decide

theorem witness_FormatAndVersionWords : 7 < 8 ∧ 63 < 64 ∧ State.reset.eng.fault = false ∧ 7 ≤ 40 ∧ 40 ≤ 40 := by decide +kernel

theorem witness_SymbolCheck : mnemonicOf (.mrd 200 200) ∈ symbolCommands ∧ mnemonicOf .wkrun ∈ symbolCommands ∧
    State.reset.eng.fault = false ∧ State.reset.eng.version = 0 := by decide +kernel

/-- One cell for each clause: in each finder area, in none, on and off the timing patterns, at the dark module and beside
it. -/
theorem witness_FinderTimingAndDarkCells : sym1.Ready ∧ sym1.eng.GridsOk ∧ finderCentre 21 7 7 = some (3, 3) ∧
    finderCentre 21 0 13 = some (3, 17) ∧ finderCentre 21 13 7 = some (17, 3) ∧ finderCentre 21 8 8 = none ∧
    OnTiming 21 6 8 ∧ OnTiming 21 12 6 ∧ ¬ OnTiming 21 6 13 ∧ 20 < sym1.eng.width ∧ (13, 7) ≠ (4 * sym1.eng.version + 9, 8) :=
  ⟨ready_sym1, grids_sym1, by decide, by decide, by decide, by decide, by unfold OnTiming; decide, by unfold OnTiming; decide,
    by unfold OnTiming; decide, by decide +kernel, by decide +kernel⟩

/-- A blank Symbol of version 7 and one of version 2. -/
theorem ready_blank (v : Nat) (lv : Level) (h : 1 ≤ v) : (withEngine (blank v lv)).Ready ∧ (withEngine (blank v lv)).eng.GridsOk := by
  have hw : (withEngine (blank v lv)).eng.width = sideOf v := width_newSymbol lv h
  refine ⟨⟨rfl, ?_⟩, ?_, ?_⟩
  · show v ≠ 0; omega
  · rw [hw]; exact blankGrid_square ..
  · rw [hw]; exact blankGrid_square ..

theorem witness_FormatAndVersionCells : sym1.Ready ∧ sym1.eng.GridsOk ∧ sym1.eng.version < 7 ∧
    (withEngine (blank 7 .L)).Ready ∧ (withEngine (blank 7 .L)).eng.GridsOk ∧ 7 ≤ (withEngine (blank 7 .L)).eng.version ∧
    (withEngine (blank 40 .L)).eng.version ≤ 40 ∧ (withEngine (blank 40 .L)).Ready ∧ (withEngine (blank 40 .L)).eng.GridsOk ∧
    formatCells1[14]? = some (8, 0) ∧ (formatCells2 21)[0]? = some (8, 20) ∧ (20, 20) ∉ formatCells1 ∧ (20, 20) ∉ formatCells2 21 :=
  ⟨ready_sym1, grids_sym1, by decide, (ready_blank 7 .L (by decide)).1, (ready_blank 7 .L (by decide)).2, by decide, by decide,
    (ready_blank 40 .L (by decide)).1, (ready_blank 40 .L (by decide)).2, by decide, by decide, by decide, by decide⟩

/-- Version 2: the one centre, its corner cell, and a cell of no pattern; version 36 under `standard`. -/
theorem witness_AlignmentCells : (withEngine (blank 2 .L)).Ready ∧ (withEngine (blank 2 .L)).eng.GridsOk ∧
    IsCentre .document 2 18 18 ∧ absDiff 16 18 ≤ 2 ∧ absDiff 20 18 ≤ 2 ∧ IsCentre .standard 36 6 24 ∧
    (∀ r c, IsCentre .document 1 r c → ¬ (absDiff 0 r ≤ 2 ∧ absDiff 0 c ≤ 2)) :=
  ⟨(ready_blank 2 .L (by decide)).1, (ready_blank 2 .L (by decide)).2, ⟨by decide, by decide, by decide, by decide, by decide⟩,
    by decide, by decide, ⟨by decide, by decide, by decide, by decide, by decide⟩,
    fun r c h => by simp [IsCentre, coordinateRow, documentRows] at h⟩

theorem witness_PlallIsTheSixCommands : sym1.Ready := ready_sym1

theorem witness_PlacementsAreIdempotent : mnemonicOf .plver ∈ ["PLFIND", "PLTIME", "PLALIGN", "PLFMT", "PLVER", "PLDARK", "PLALL"] ∧
    sym1.eng.GridsOk ∧ ∃ t, exec .plver sym1 = .next t := ⟨by decide, grids_sym1, _, rfl⟩

theorem witness_CntnoneAndAvail : sym1.Ready ∧ sym1.eng.GridsOk ∧ (withEngine (blank 40 .H)).Ready ∧
    (withEngine (blank 40 .H)).eng.version ≤ 40 := ⟨ready_sym1, grids_sym1, (ready_blank 40 .H (by decide)).1, by decide⟩

theorem witness_NoneCountInvariant : State.reset.eng.fault = false ∧ 1 ≤ 1 ∧ 1 ≤ 40 ∧ 40 ≤ 40 := ⟨rfl, by decide⟩

theorem witness_WalkerResetAndTransitions : ended1.Ready ∧ 0 < 20 ∧ 0 < 21 - 1 := ⟨ready_ended1, by decide⟩

theorem witness_WkbitPlacesOneBit : placed1.Ready ∧ placed1.Inv ∧
    Lands placed1.eng.width placed1.eng.tag placed1.eng.walk ⟨20, 20, .stepH, true, 0⟩ ∧
    ended1.Ready ∧ ended1.Inv ∧ Exhausts ended1.eng.width ended1.eng.tag ended1.eng.walk ended1.eng.walk :=
  ⟨ready_placed1, inv_placed1, .here (by decide +kernel) (by decide +kernel), ready_ended1, inv_ended1, .here (by decide +kernel)⟩

theorem witness_WalkVisitsEveryCellOnce : 1 ≤ 1 ∧ 40 ≤ 40 ∧ 419 < 21 * 20 := by decide

/-- A blank Symbol of version 1, its walker at the start, and the stream `vs` in O. -/
def streamed (vs : List Byte) : State := withEngine { sym1.eng with bufO := cellsFrom 0 vs, olen := vs.length }

theorem ready_streamed (vs : List Byte) : (streamed vs).Ready := ⟨rfl, by show 1 ≠ 0; decide⟩

theorem start_streamed (vs : List Byte) : (streamed vs).eng.walk = Walker.start (streamed vs).eng.width := rfl

theorem holds_streamed (vs : List Byte) : Holds (streamed vs).eng .O 0 vs := fun i hi => by
  have h := memRead_cellsFrom_append vs 0 i []
  rw [List.append_nil, if_pos ⟨Nat.zero_le i, by omega⟩] at h
  simpa [streamed, withEngine, Engine.buf] using h

theorem inv_streamed (vs : List Byte) (h : vs.length ≤ 4096) : (streamed vs).Inv :=
  { inv_sym1 with
    buffers := fun b => by
      cases b
      case O => exact ⟨cellsFrom_wf vs 0, fun x hx => by have := (mem_cellsFrom hx).2; show x.1 < 4096; omega⟩
      case D => exact inv_sym1.buffers .D
      case A => exact inv_sym1.buffers .A
      case B => exact inv_sym1.buffers .B
      case R => exact inv_sym1.buffers .R
    o_written := fun i hi => by
      have hr := holds_streamed vs i hi
      rw [Nat.zero_add, List.getElem?_eq_getElem hi] at hr
      show memRead ((streamed vs).eng.buf .O) i ≠ none
      rw [hr]
      exact Option.some_ne_none _
    olen_le := h }

/-- 53 codewords, 424 bits: more than the 420 free cells of a blank Symbol of version 1. -/
def overlong : List Byte := List.replicate 53 0x41

/-- Both outcomes: a stream of one codeword, which fits, and one of 53, which does not. -/
theorem witness_WkrunFollowsTheOrder :
    ((streamed [0x41]).Ready ∧ (streamed [0x41]).Inv ∧
      (streamed [0x41]).eng.walk = Walker.start (streamed [0x41]).eng.width ∧
      (streamed [0x41]).eng.olen = ([0x41] : List Byte).length ∧ Holds (streamed [0x41]).eng .O 0 [0x41] ∧
      8 * ([0x41] : List Byte).length ≤ (walkOrder (streamed [0x41]).eng.width (streamed [0x41]).eng.tag).length) ∧
    (streamed overlong).Ready ∧ (streamed overlong).Inv ∧
      (streamed overlong).eng.walk = Walker.start (streamed overlong).eng.width ∧
      (streamed overlong).eng.olen = overlong.length ∧ Holds (streamed overlong).eng .O 0 overlong ∧
      (walkOrder (streamed overlong).eng.width (streamed overlong).eng.tag)[419]? = some (20, 0) ∧
      (walkOrder (streamed overlong).eng.width (streamed overlong).eng.tag).length < 8 * overlong.length :=
  ⟨⟨ready_streamed _, inv_streamed _ (by decide), start_streamed _, rfl, holds_streamed _, by decide +kernel⟩,
    ready_streamed _, inv_streamed _ (by decide), start_streamed _, rfl, holds_streamed _, by decide +kernel,
    by decide +kernel⟩

/-- The stream that fits and the one that does not. -/
theorem witness_WkrunIsTheWkbits : ∀ vs ∈ [[0x41], overlong], (streamed vs).Ready ∧ (streamed vs).Inv ∧
    (streamed vs).eng.olen = vs.length ∧ Holds (streamed vs).eng .O 0 vs := fun vs hvs =>
  ⟨ready_streamed vs, inv_streamed vs (by
    rcases List.mem_cons.1 hvs with rfl | h
    · decide
    · rw [List.mem_singleton.1 h]; decide), rfl, holds_streamed vs⟩

theorem witness_WalkIgnoresTheBits : (∃ t, exec (.wkbit true) ended1 = .next t) ∧
    ∃ u, exec (.wkbit false) { ended1 with eng := { ended1.eng with mod := [] } } = .next u := ⟨⟨_, rfl⟩, ⟨_, rfl⟩⟩

theorem witness_MskappInvertsFreeCells : placed1.Ready ∧ placed1.eng.GridsOk ∧ 7 < 8 ∧ placed1.eng.cellIs 20 20 false .free ∧
    placed1.eng.cellIs 0 0 true .finder :=
  ⟨ready_placed1, grids_placed1, by decide, ⟨by decide +kernel, by decide +kernel⟩, ⟨by decide +kernel, by decide +kernel⟩⟩

theorem witness_MasksAreInvolutionsThatCommute : ∃ t u, exec (.mskapp 3) sym1 = .next t ∧ exec (.mskapp 3) t = .next u :=
  ⟨_, _, rfl, rfl⟩

theorem witness_PenaltyRulesByIndex : 1 ≤ 1 ∧ IsMatrix 1 1 [[true]] ∧ IsMatrix 2 3 [[true, true, true], [true, true, true]] := by
  unfold IsMatrix; decide

theorem witness_PenaltySetsTheRegisters : placed1.Ready := ready_placed1

theorem witness_MskselPicksTheFirstLowest : placed1.Ready ∧ 7 < 8 := ⟨ready_placed1, by decide⟩

theorem witness_MskselCells : placed1.Ready ∧ placed1.eng.GridsOk ∧ (20, 20) ∉ formatCells1 ∧
    (20, 20) ∉ formatCells2 placed1.eng.width ∧ placed1.eng.cellIs 20 20 false .free ∧ placed1.eng.cellIs 0 0 true .finder :=
  ⟨ready_placed1, grids_placed1, by decide, by decide +kernel, ⟨by decide +kernel, by decide +kernel⟩, ⟨by decide +kernel, by decide +kernel⟩⟩

theorem witness_MskselDependsOnTheSymbolOnly : sym1.Ready ∧ ended1.Ready ∧ ended1.eng.version = sym1.eng.version ∧
    ended1.eng.ecl = sym1.eng.ecl ∧ ended1.eng.mod = sym1.eng.mod ∧ ended1.eng.tag = sym1.eng.tag ∧ ended1 ≠ sym1 :=
  ⟨ready_sym1, ready_ended1, rfl, rfl, rfl, rfl, fun h => by
    have : ended1.eng.walk = sym1.eng.walk := by rw [h]
    exact absurd this (by decide +kernel)⟩

theorem witness_FaultGate : faulted1.eng.fault = true ∧ mnemonicOf (.symnew 1 .L) ∉ ["NOP", "RESET", "RDREG"] := by decide +kernel

theorem witness_TypedErrorsChangeNothing : ∃ t r, exec .plall .reset = .next t ∧ t.resp = some r ∧ r.err.typed = true :=
  ⟨_, _, rfl, rfl, rfl⟩

theorem witness_OverflowLatches : ∃ t r, exec (.wkbit true) ended1 = .next t ∧ t.resp = some r ∧ r.err = .overflow :=
  ⟨{ ended1 with eng := { ended1.eng with fault := true, fcode := 8 }, resp := some { err := .overflow, val := 0 } }, _,
    by rfl, rfl, rfl⟩

/-- Both resets, another command, and no input. -/
theorem witness_FaultLeftOnlyByReset : faulted1.eng.fault = true ∧
    ({ faulted1 with input := [.hardReset] } : State).input.head? = some .hardReset ∧
    (presentWord 0x01000000 faulted1).eng.fault = true ∧
    (presentWord 0x01000000 faulted1).input.head? = some (.command 0x01000000) ∧
    (presentWord 0x46000000 faulted1).eng.fault = true ∧ (presentWord 0x46000000 faulted1).input.head? ≠ some .hardReset ∧
    (presentWord 0x46000000 faulted1).input.head? ≠ some (.command 0x01000000) ∧ faulted1.input.head? ≠ some .hardReset ∧
    faulted1.input.head? ≠ some (.command 0x01000000) :=
  ⟨rfl, rfl, rfl, rfl, rfl, by decide, by decide, by decide, by decide⟩

theorem witness_ErrorMatrix : ∃ t r, exec .rsenc .reset = .next t ∧ t.resp = some r ∧ r.err = .cfg := ⟨_, _, rfl, rfl, rfl⟩

theorem witness_WritersOfEachRegister : ∃ t, exec (.blen 2 256) .reset = .next t ∧ t.eng.lena ≠ State.reset.eng.lena :=
  ⟨_, rfl, by decide⟩

theorem witness_ReservedCellsStayReserved : (∃ t, exec (.mskapp 0) placed1 = .next t) ∧ cellAt placed1.eng.tag 0 0 = some .finder ∧
    Tag.finder ≠ .free ∧ mnemonicOf (.mskapp 0) ∈ ["WKBIT", "WKRUN", "MSKAPP"] ∧ mnemonicOf (.mskapp 0) ∉ ["SYMNEW", "RESET"] :=
  ⟨⟨_, rfl⟩, by decide +kernel, by decide, by decide, by decide⟩

theorem witness_StepKeepsInv : ended1.Inv ∧ ∃ t, step ended1 = .next t := ⟨inv_ended1, _, rfl⟩

end Sys2Proof.Tests
end

section
/-! PROOFS of 00_scope. What a step does with each kind of input, the answers of RDREG and MRD as whole next states, and
the two statements about reset and stepping assembled from them. -/

namespace Sys2Proof.Machine

variable {s : State} {rest : List HostInput}

/-! ## A step, one equation per kind of input -/

theorem step_of_no_input (h : s.input = []) : step s = .next s := by
  simp only [step, takeInput, h, idle]

theorem step_of_hardReset (h : s.input = .hardReset :: rest) : step s = hardReset { s with input := rest } := by
  simp only [step, takeInput, h]

theorem step_of_command {w : Word} {i : Instr} (h : s.input = .command w :: rest) (hw : decode w = .instr i) :
    step s = exec i { s with input := rest } := by
  simp only [step, takeInput, h, hw]

theorem step_presentWord {w : Word} {i : Instr} (s : State) (hw : decode w = .instr i) :
    step (presentWord w s) = exec i s :=
  step_of_command (presentWord_input w s) hw

/-! ## Responses as whole next states -/

theorem succeed_eq_answer (v : Nat) (s : State) : succeed v s = .next (s.answer .ok v s.eng) := rfl

theorem typedError_eq_answer (err : Err) (s : State) : typedError err s = .next (s.answer err 0 s.eng) := rfl

/-! ## RDREG and MRD -/

/-- RDREG of a register that exists answers it, faulted or not (40_config R103). -/
theorem exec_rdreg_of_le {n : Nat} (h : n ≤ lastReg) (s : State) :
    exec (.rdreg n) s = .next (s.answer .ok (s.eng.reg n) s.eng) := by
  have hreq : execRdreg n s = succeed (s.eng.reg n) s := by rw [execRdreg, decide_eq_true h, require_true]
  exact hreq.trans (succeed_eq_answer _ s)

/-- The Symbol check of MRD comes before its range check (40_config R108, 60_exceptions R327). -/
theorem exec_mrd_of_no_symbol (hf : s.eng.fault = false) (hv : s.eng.version = 0) (row col : Nat) :
    exec (.mrd row col) s = .next (s.answer .noSym 0 s.eng) := by
  have hchk : execMrd row col s = typedError .noSym s := by rw [execMrd, gate_serving hf, needSymbol_none hv]
  exact hchk.trans (typedError_eq_answer _ s)

/-! ## The reset engine -/

/-- The table of 10_state R50: only ID and WST/WUP read as other than 0. -/
theorem reg_reset : ∀ n, n < 22 →
    Engine.reset.reg n = if n = 0 then 0x51524745 else if n = 15 then 256 else 0 := by decide

theorem buf_reset (b : Buf) : Engine.reset.buf b = [] := by cases b <;> rfl

theorem memRead_buf_reset (b : Buf) (i : Nat) : memRead (Engine.reset.buf b) i = none := by
  rw [buf_reset, memRead]

/-! ## The statements -/

/-- Settles O1: RDREG reads the table of R50, MRD stops at the Symbol check, and the hardware reset is `resetEngine`. -/
theorem resetLeavesTheSpecValues : Obligations.ResetLeavesTheSpecValues := by
  refine ⟨fun n hn => ?registers, ⟨rfl, rfl⟩, memRead_buf_reset, exec_mrd_of_no_symbol rfl rfl,
    fun s rest hs => ?hardware, ⟨rfl, rfl⟩, config_toFixedParams⟩
  case registers =>
    rw [← reg_reset n hn]
    exact exec_rdreg_of_le (Nat.le_of_lt_succ hn) State.reset
  case hardware =>
    exact ⟨_, step_of_hardReset hs, rfl, rfl⟩

/-- Settles O2: one equation of `step` for each clause. -/
theorem stepRunsTheDecodedCommand : Obligations.StepRunsTheDecodedCommand :=
  ⟨fun _ _ _ _ => step_of_command, fun s _ _ => step_presentWord s, fun _ => step_of_no_input⟩

end Sys2Proof.Machine
end

section
/-! PROOFS of 10_state. What a command that answers does to the engine, said once as a relation (`Effect`): it changes
nothing, or it has one of the effects listed there. The writers of each register (R25 to R43), the reserved
cells (R36 b, c) and the invariant follow from it by cases. -/

namespace Sys2Proof.Machine

variable {i : Instr} {s t : State}

/-! ## The patterns reserve their cells -/

/-- No stamp of the list has the tag none. -/
def Reserves (ps : List Stamp) : Prop := ∀ p ∈ ps, p.tag ≠ .free

theorem Reserves.append {ps qs : List Stamp} (hp : Reserves ps) (hq : Reserves qs) : Reserves (ps ++ qs) :=
  List.forall_mem_append.2 ⟨hp, hq⟩

theorem Reserves.flatMap {α : Type} {f : α → List Stamp} (h : ∀ x, Reserves (f x)) (l : List α) :
    Reserves (l.flatMap f) := fun p hp => by
  obtain ⟨x, -, hx⟩ := List.mem_flatMap.1 hp
  exact h x p hx

theorem finderAt_reserves (r0 c0 cr cc : Nat) : Reserves (finderAt r0 c0 cr cc) :=
  List.forall_mem_map.2 fun _ _ => nofun

theorem finderStamps_reserves (w : Nat) : Reserves (finderStamps w) :=
  ((finderAt_reserves _ _ _ _).append (finderAt_reserves _ _ _ _)).append (finderAt_reserves _ _ _ _)

theorem timingStamps_reserves (w : Nat) : Reserves (timingStamps w) :=
  Reserves.flatMap (fun _ => by simp [Reserves]) _

theorem alignAt_reserves (r c : Nat) : Reserves (alignAt r c) :=
  List.forall_mem_map.2 fun _ _ => nofun

theorem alignStamps_reserves (a : AlignTable) (v : Nat) : Reserves (alignStamps a v) :=
  Reserves.flatMap (fun q : Nat × Nat => alignAt_reserves q.1 q.2) _

theorem formatStamps_reserves (w : Nat) (word : BitVec 15) : Reserves (formatStamps w word) :=
  Reserves.flatMap (fun _ => by simp [Reserves]) _

theorem versionStamps_reserves (v : Nat) : Reserves (versionStamps v) := by
  unfold versionStamps
  split
  · exact nofun
  · exact Reserves.flatMap (fun _ => by simp [Reserves]) _

theorem darkStamps_reserves (v : Nat) : Reserves (darkStamps v) := by
  simp [Reserves, darkStamps]

theorem allStamps_reserves (a : AlignTable) (v : Nat) (lv : Level) (m : Nat) : Reserves (allStamps a v lv m) :=
  (((((finderStamps_reserves _).append (timingStamps_reserves _)).append (alignStamps_reserves _ _)).append
    (formatStamps_reserves _ _)).append (versionStamps_reserves _)).append (darkStamps_reserves _)

theorem lastStamp_mem {ps : List Stamp} {r c : Nat} {p : Stamp} (h : lastStamp ps r c = some p) : p ∈ ps := by
  induction ps with
  | nil => cases h
  | cons q ps ih =>
    simp only [lastStamp] at h
    split at h
    next q' hq =>
      cases h
      exact List.mem_cons_of_mem _ (ih hq)
    next =>
      split at h
      · cases h; exact List.mem_cons_self
      · cases h

theorem stampAll_keeps_reserved {e : Engine} {ps : List Stamp} (hp : Reserves ps) {r c : Nat}
    (h : ∃ tg, cellAt e.tag r c = some tg ∧ tg ≠ .free) :
    ∃ tg, cellAt (e.stampAll ps).tag r c = some tg ∧ tg ≠ .free := by
  obtain ⟨tg, htg, hne⟩ := h
  rw [cellAt_tag_stampAll, htg]
  cases hl : lastStamp ps r c with
  | none => exact ⟨tg, rfl, hne⟩
  | some p => exact ⟨p.tag, rfl, hp p (lastStamp_mem hl)⟩

/-! ## The walker writes MOD and its own registers, and MOD on free cells only -/

theorem seek_lands_on_free {w fuel : Nat} {tag : Grid Tag} {k k' : Walker} (h : seek w tag fuel k = (k', true)) :
    isFree tag k'.row k'.col = true := by
  induction fuel generalizing k with
  | zero => cases h
  | succ n ih =>
    simp only [seek] at h
    split at h
    · cases h
    · split at h
      · cases h; assumption
      · exact ih h

/-- `e'` is `e` but for the walker registers and the modules of free cells. -/
def WalkWrites (e e' : Engine) : Prop :=
  SameButWalk e e' ∧ ∀ r c, isFree e.tag r c = false → cellAt e'.mod r c = cellAt e.mod r c

theorem WalkWrites.trans {e1 e2 e3 : Engine} (h1 : WalkWrites e1 e2) (h2 : WalkWrites e2 e3) : WalkWrites e1 e3 := by
  obtain ⟨s1, m1⟩ := h1
  obtain ⟨s2, m2⟩ := h2
  have htag : e2.tag = e1.tag := by rw [← s1]
  exact ⟨s1.trans s2, fun r c hr => (m2 r c (htag ▸ hr)).trans (m1 r c hr)⟩

theorem placeBit_walkWrites (b : Bool) (e : Engine) : WalkWrites e (placeBit b e).1 := by
  unfold placeBit
  split
  next k hk =>
    refine ⟨rfl, fun r c hr => ?_⟩
    have hne : ¬ (k.row = r ∧ k.col = c) := by
      rintro ⟨rfl, rfl⟩
      rw [seek_lands_on_free hk] at hr
      cases hr
    rw [cellAt_setCell, if_neg hne]
  next => exact ⟨rfl, fun _ _ _ => rfl⟩

theorem placeBits_walkWrites (bs : List Bool) (e : Engine) : WalkWrites e (placeBits bs e).1 := by
  induction bs generalizing e with
  | nil => exact ⟨rfl, fun _ _ _ => rfl⟩
  | cons b bs ih =>
    have h1 := placeBit_walkWrites b e
    simp only [placeBits]
    split
    next e1 he => rw [he] at h1; exact h1.trans (ih e1)
    next e1 he => rw [he] at h1; exact h1

theorem placeBits_singleton (b : Bool) (e : Engine) : placeBits [b] e = placeBit b e := by
  simp only [placeBits]
  split <;> simp [*]

/-! ## What a command can do to the engine -/

/-- The commands of 44_pattern_placer that stamp. -/
def placementCommands : List String := ["PLFIND", "PLTIME", "PLALIGN", "PLFMT", "PLVER", "PLDARK", "PLALL"]

/-- The commands that move the walker over the free cells. -/
def walkCommands : List String := ["WKBIT", "WKRUN"]

theorem mem_walkCommands {n : String} : n ∈ walkCommands ↔ n = "WKBIT" ∨ n = "WKRUN" := by simp [walkCommands]

/-- `Effect i e e'`: the command `i` passed its checks on the engine `e` and left it as `e'`, with what later proofs use of
those checks. Which stamps a placement command makes and which bits a walk places are left open. -/
inductive Effect : Instr → Engine → Engine → Prop where
  | reset {e} : Effect .reset e Engine.reset
  | symnew {e v lv} (h1 : 1 ≤ v) (hv : v ≤ vmax) : Effect (.symnew v lv) e (e.newSymbol v lv)
  | bwr {e buf idx byte b} (hb : hostWritable b = true) (hi : idx < b.capacity) :
      Effect (.bwr buf idx byte) e (e.setBuf b (memWrite (e.buf b) idx byte))
  | blenA {e buf n} (hn : n ≤ 256) : Effect (.blen buf n) e { e with lena := n }
  | blenB {e buf n} (hn : n ≤ 256) : Effect (.blen buf n) e { e with lenb := n }
  | genld {e n} (hn : n ≤ gmax) :
      Effect (.genld n) e { e with bufB := memFill e.bufB (genTable n), lenb := n + 1 }
  | pmul {e p q} (hp : p.length = e.lena) (hq : q.length = e.lenb) (ha : 1 ≤ e.lena) (hb : 1 ≤ e.lenb)
      (hc : e.lena + e.lenb - 1 ≤ 256) :
      Effect .pmul e { e with bufR := memFill e.bufR (polymul p q), lenr := (polymul p q).length }
  | prem {e p q} (hp : p.length = e.lena) (hq : q.length = e.lenb) (hb : 1 ≤ e.lenb) (h0 : q.headD 0 ≠ 0) :
      Effect .prem e { e with bufR := memFill e.bufR (polyrem p q), lenr := (polyrem p q).length }
  | rscfg {e ndata nblk ecpb} (h1 : 1 ≤ nblk) (he : ecpb ≤ gmax) (hb : nblk ≤ ndata)
      (hc : ndata + ecpb * nblk ≤ 4096) :
      Effect (.rscfg ndata nblk ecpb) e { e with ndata := ndata, nblk := nblk, ecpb := ecpb }
  | rsenc {e data} (hd : data.length = e.ndata) (h1 : 1 ≤ e.nblk) :
      Effect .rsenc e { e with
        bufO := memFill e.bufO (rsStream data e.ndata e.ecpb e.nblk), olen := e.ndata + e.ecpb * e.nblk }
  | stamps {i e ps} (hi : mnemonicOf i ∈ placementCommands) (hv : e.version ≠ 0) (hp : Reserves ps) :
      Effect i e (e.stampAll ps)
  | wkrst {e} (hv : e.version ≠ 0) : Effect .wkrst e { e with walk := Walker.start e.width }
  | placed {i e bs e'} (hi : mnemonicOf i ∈ walkCommands) (hv : e.version ≠ 0)
      (hp : placeBits bs e = (e', true)) : Effect i e e'
  | overflow {i e bs e'} (hi : mnemonicOf i ∈ walkCommands) (hv : e.version ≠ 0)
      (hp : placeBits bs e = (e', false)) : Effect i e { e' with fault := true, fcode := 8 }
  | mskapp {e m} (hv : e.version ≠ 0) : Effect (.mskapp m) e (e.maskApply m)
  | penalty {e} (hv : e.version ≠ 0) : Effect .penalty e (e.setScores (scoresOf e.mod))
  | msksel {e} (hv : e.version ≠ 0) : Effect .msksel e (e.commitMask e.bestMask)

theorem effect_of_place {ps : State → List Stamp} (hi : mnemonicOf i ∈ placementCommands) (hp : Reserves (ps s))
    (h : place ps s = .next t) : t.eng = s.eng ∨ Effect i s.eng t.eng :=
  (place_next h).imp TurnedAway.eng fun ⟨hv, h⟩ => h.eng ▸ .stamps hi hv hp

/-- A command that answers leaves the engine as it is or writes what its rule says. -/
theorem exec_effect (h : exec i s = .next t) : t.eng = s.eng ∨ Effect i s.eng t.eng := by
  cases i with
  | nop => exact .inl (execNop_next h).eng
  | reset => exact .inr ((execReset_next h).eng ▸ .reset)
  | rdreg n => exact .inl ((execRdreg_next h).elim TurnedAway.eng fun ⟨_, h⟩ => h.eng)
  | symnew v lv => exact (execSymnew_next h).imp TurnedAway.eng fun ⟨h1, hv, h⟩ => h.eng ▸ .symnew h1 hv
  | bwr buf idx byte => exact (execBwr_next h).imp TurnedAway.eng fun ⟨_, _, hb, hi, h⟩ => h.eng ▸ .bwr hb hi
  | brd buf idx => exact .inl ((execBrd_next h).elim TurnedAway.eng fun ⟨_, _, _, _, _, _, h⟩ => h.eng)
  | blen buf n =>
    rcases execBlen_next h with h | ⟨-, hn, h⟩ | ⟨-, hn, h⟩
    · exact .inl h.eng
    · exact .inr (h.eng ▸ .blenA hn)
    · exact .inr (h.eng ▸ .blenB hn)
  | mrd row col => exact .inl ((execMrd_next h).elim TurnedAway.eng fun ⟨_, _, _, h⟩ => h.eng)
  | gfadd a b => exact .inl ((execGfadd_next h).elim TurnedAway.eng Answered.eng)
  | gfmul a b => exact .inl ((execGfmul_next h).elim TurnedAway.eng Answered.eng)
  | gfdiv a b => exact .inl ((execGfdiv_next h).elim TurnedAway.eng fun ⟨_, h⟩ => h.eng)
  | gfexp n => exact .inl ((execGfexp_next h).elim TurnedAway.eng Answered.eng)
  | gflog n => exact .inl ((execGflog_next h).elim TurnedAway.eng fun ⟨_, h⟩ => h.eng)
  | genld n => exact (execGenld_next h).imp TurnedAway.eng fun ⟨hn, h⟩ => h.eng ▸ .genld hn
  | pmul =>
    exact (execPmul_next h).imp TurnedAway.eng fun ⟨_, _, _, hp, hq, ha, hb, hc, h⟩ => h.eng ▸ .pmul hp hq ha hb hc
  | prem => exact (execPrem_next h).imp TurnedAway.eng fun ⟨_, _, _, hp, hq, hb, h0, h⟩ => h.eng ▸ .prem hp hq hb h0
  | rscfg ndata nblk ecpb =>
    exact (execRscfg_next h).imp TurnedAway.eng fun ⟨h1, he, hb, hc, h⟩ => h.eng ▸ .rscfg h1 he hb hc
  | rsenc => exact (execRsenc_next h).imp TurnedAway.eng fun ⟨_, _, hd, h1, h⟩ => h.eng ▸ .rsenc hd h1
  | fmtword lv m => exact .inl ((execFmtword_next h).elim TurnedAway.eng Answered.eng)
  | verword v => exact .inl ((execVerword_next h).elim TurnedAway.eng Answered.eng)
  | plfind => exact effect_of_place (by decide) (finderStamps_reserves _) h
  | pltime => exact effect_of_place (by decide) (timingStamps_reserves _) h
  | plalign => exact effect_of_place (by decide) (alignStamps_reserves _ _) h
  | plfmt m => exact effect_of_place (by simp [mnemonicOf, placementCommands]) (formatStamps_reserves _ _) h
  | plver => exact effect_of_place (by decide) (versionStamps_reserves _) h
  | pldark => exact effect_of_place (by decide) (darkStamps_reserves _) h
  | plall => exact effect_of_place (by decide) (allStamps_reserves _ _ _ _) h
  | cntnone => exact .inl ((execCntnone_next h).elim TurnedAway.eng Answered.eng)
  | avail => exact .inl ((execAvail_next h).elim TurnedAway.eng Answered.eng)
  | wkrst => exact (execWkrst_next h).imp TurnedAway.eng fun ⟨hv, h⟩ => h.eng ▸ .wkrst hv
  | wkbit b =>
    have hi : mnemonicOf (.wkbit b) ∈ walkCommands := List.mem_cons_self
    rcases execWkbit_next h with h | ⟨e, hv, -, ⟨hp, h⟩ | ⟨hp, h⟩⟩
    · exact .inl h.eng
    · exact .inr (h.eng ▸ .placed hi hv ((placeBits_singleton b _).trans hp))
    · exact .inr (h.eng ▸ .overflow hi hv ((placeBits_singleton b _).trans hp))
  | wkrun =>
    have hi : mnemonicOf .wkrun ∈ walkCommands := by decide
    rcases execWkrun_next h with h | ⟨bs, e, d, hv, -, -, -, ⟨hp, h⟩ | ⟨hp, h⟩⟩
    · exact .inl h.eng
    · exact .inr (h.eng ▸ .placed hi hv hp)
    · exact .inr (h.eng ▸ .overflow hi hv hp)
  | mskapp m => exact (execMskapp_next h).imp TurnedAway.eng fun ⟨hv, h⟩ => h.eng ▸ .mskapp hv
  | penalty => exact (execPenalty_next h).imp TurnedAway.eng fun ⟨hv, h⟩ => h.eng ▸ .penalty hv
  | msksel => exact (execMsksel_next h).imp TurnedAway.eng fun ⟨hv, h⟩ => h.eng ▸ .msksel hv

/-! ## The writers of each register (R25 to R43, 20_memory R70) -/

theorem placeBits_eq {bs : List Bool} {ok : Bool} {e e' : Engine} (h : placeBits bs e = (e', ok)) :
    e' = { e with mod := e'.mod, walk := e'.walk } := by
  have hw := (placeBits_walkWrites bs e).1
  rw [h] at hw
  exact hw.symm

/-- Settles O57: the engine is as it was, or the command has one of the effects, each with its own fields. -/
theorem writersOfEachRegister : Obligations.WritersOfEachRegister := by
  intro i s t h
  rcases exec_effect h with h | h
  · simp [h]
  generalize s.eng = e, t.eng = e' at *
  cases h with
  | @bwr _ buf idx byte b hb => cases b <;> simp [mnemonicOf, hostWritable, Engine.setBuf] at hb ⊢
  | stamps hi =>
    simp only [placementCommands, List.mem_cons, List.not_mem_nil, or_false] at hi
    rcases hi with hi | hi | hi | hi | hi | hi | hi <;> simp [hi]
  | placed hi _ hp =>
    rw [placeBits_eq hp]
    rcases mem_walkCommands.1 hi with hi | hi <;> simp [hi]
  | overflow hi _ hp =>
    rw [placeBits_eq hp]
    rcases mem_walkCommands.1 hi with hi | hi <;> simp [hi]
  | _ => simp [mnemonicOf]

/-! ## Reserved cells stay reserved (R36 b, c) -/

theorem isFree_eq_false_of_reserved {tag : Grid Tag} {r c : Nat} {tg : Tag} (h : cellAt tag r c = some tg)
    (hne : tg ≠ .free) : isFree tag r c = false := by
  rw [isFree, h]
  cases tg with
  | free => exact absurd rfl hne
  | _ => rfl

theorem placeBits_tag {bs : List Bool} {ok : Bool} {e e' : Engine} (h : placeBits bs e = (e', ok)) :
    e'.tag = e.tag := by
  rw [placeBits_eq h]

theorem placeBits_cellAt {bs : List Bool} {ok : Bool} {e e' : Engine} (h : placeBits bs e = (e', ok)) {r c : Nat}
    (hr : isFree e.tag r c = false) : cellAt e'.mod r c = cellAt e.mod r c := by
  have hw := (placeBits_walkWrites bs e).2 r c hr
  rwa [h] at hw

theorem maskApply_cellAt {e : Engine} {r c : Nat} (m : Nat) (hr : cellAt e.tag r c ≠ some .free) :
    cellAt (e.maskApply m).mod r c = cellAt e.mod r c := by
  simp [maskRows_cellAt, hr]

/-- R36 b: the walker and the mask write no tag and no module of a reserved cell. -/
theorem walk_and_mask_keep_reserved {e e' : Engine} (h : Effect i e e')
    (hi : mnemonicOf i ∈ ["WKBIT", "WKRUN", "MSKAPP"]) {r c : Nat} {tg : Tag} (htg : cellAt e.tag r c = some tg)
    (hne : tg ≠ .free) : e'.tag = e.tag ∧ cellAt e'.mod r c = cellAt e.mod r c := by
  have hr : isFree e.tag r c = false := isFree_eq_false_of_reserved htg hne
  cases h with
  | placed _ _ hp => exact ⟨placeBits_tag hp, placeBits_cellAt hp hr⟩
  | overflow _ _ hp =>
    have htag := placeBits_tag hp
    have hmod := placeBits_cellAt hp hr
    exact ⟨htag, hmod⟩
  | mskapp => exact ⟨rfl, maskApply_cellAt _ (by simpa [htg] using hne)⟩
  | stamps hs =>
    have hdisjoint : ∀ n ∈ ["WKBIT", "WKRUN", "MSKAPP"], n ∉ placementCommands := by decide
    exact absurd hs (hdisjoint _ hi)
  | _ => simp [mnemonicOf] at hi

/-- R36 c: a reserved cell is made free by SYMNEW and RESET only. -/
theorem reserved_stays_reserved {e e' : Engine} (h : Effect i e e') (hi : mnemonicOf i ∉ ["SYMNEW", "RESET"])
    {r c : Nat} (hr : ∃ tg, cellAt e.tag r c = some tg ∧ tg ≠ .free) :
    ∃ tg, cellAt e'.tag r c = some tg ∧ tg ≠ .free := by
  cases h with
  | reset => simp [mnemonicOf] at hi
  | symnew => simp [mnemonicOf] at hi
  | bwr => rw [setBuf_tag]; exact hr
  | stamps _ _ hp => exact stampAll_keeps_reserved hp hr
  | placed _ _ hp => rw [placeBits_tag hp]; exact hr
  | overflow _ _ hp => rw [← placeBits_tag hp] at hr; exact hr
  | msksel =>
    rw [commitMask_tag]
    exact stampAll_keeps_reserved (e := e.maskApply _) (formatStamps_reserves _ _) hr
  | _ => exact hr

/-- Settles O58, by the two halves of R36 over `Effect`. -/
theorem reservedCellsStayReserved : Obligations.ReservedCellsStayReserved := by
  intro i s t h r c tg htg hne
  rcases exec_effect h with h | h
  · rw [h]; exact ⟨fun _ => ⟨rfl, rfl⟩, fun _ => ⟨tg, htg, hne⟩⟩
  · exact ⟨fun hi => walk_and_mask_keep_reserved h hi htg hne, fun hi => reserved_stays_reserved h hi ⟨tg, htg, hne⟩⟩

/-! ## The invariant -/

theorem reset_inv : Engine.reset.Inv where
  version_le := by decide
  mask_lt := by decide
  mod_square := ⟨rfl, nofun⟩
  tag_square := ⟨rfl, nofun⟩
  fcode_eq := rfl
  fault_sym := nofun
  buffers := fun b => by rw [Engine.BufferOk, buf_reset]; exact ⟨.nil, nofun⟩
  o_written := nofun
  r_written := nofun
  olen_le := by decide
  lena_le := by decide
  lenb_le := by decide
  lenr_le := by decide
  ndata_le := by decide
  nblk_le := by decide
  ecpb_le := by decide
  blocks := by decide
  stream_le := by decide
  walk_idle := fun _ => rfl
  walk_inv := fun h => absurd rfl h
  pen1_le := by decide
  pen2_le := by decide
  pen3_le := by decide
  pen4_le := by decide
  pent_eq := rfl

/-- Settles O59: with VERSION = 0 the empty grids are square and the walker is idle. -/
theorem invAtReset : Obligations.InvAtReset := reset_inv

/-! One lemma per update of `Effect` that Laws/Inv.lean does not cover. -/

theorem memFill_written {m : Memory} {vs : List Byte} {j : Nat} (h : j < vs.length) :
    memRead (memFill m vs) j ≠ none := by
  rw [memRead_memFill, if_pos h, List.getElem?_eq_getElem h]
  exact Option.some_ne_none _

theorem memFill_keeps_written {m : Memory} {vs : List Byte} {n : Nat} (h : ∀ j, j < n → memRead m j ≠ none) :
    ∀ j, j < n → memRead (memFill m vs) j ≠ none := fun j hj => by
  by_cases hv : j < vs.length
  · exact memFill_written hv
  · rw [memRead_memFill, if_neg hv]; exact h j hj

/-- A fill of at most the capacity of a buffer keeps the invariant. -/
theorem fillBuf_inv {e : Engine} {b : Buf} {vs : List Byte} (h : e.Inv) (hv : vs.length ≤ b.capacity) :
    (e.setBuf b (memFill (e.buf b) vs)).Inv := by
  obtain ⟨hwf, hin⟩ := h.buffers b
  refine setBuf_inv h (memFill_wf vs hwf) (memFill_within hin hv) ?_ ?_
  · rintro rfl; exact memFill_keeps_written h.o_written
  · rintro rfl; exact memFill_keeps_written h.r_written

theorem setLena_inv {e : Engine} {n : Nat} (h : e.Inv) (hn : n ≤ 256) : ({ e with lena := n } : Engine).Inv :=
  { h with lena_le := hn, buffers := buffers_same (fun b => by cases b <;> rfl) h }

theorem setLenb_inv {e : Engine} {n : Nat} (h : e.Inv) (hn : n ≤ 256) : ({ e with lenb := n } : Engine).Inv :=
  { h with lenb_le := hn, buffers := buffers_same (fun b => by cases b <;> rfl) h }

theorem genld_inv {e : Engine} {n : Nat} (h : e.Inv) (hn : n ≤ gmax) :
    ({ e with bufB := memFill e.bufB (genTable n), lenb := n + 1 } : Engine).Inv := by
  have hn' : n + 1 ≤ 256 := Nat.le_trans (Nat.succ_le_succ hn) (by decide)
  exact setLenb_inv (fillBuf_inv (b := .B) h ((genTable_length hn).trans_le hn')) hn'

theorem storeR_inv {e : Engine} {vs : List Byte} (h : e.Inv) (hv : vs.length ≤ 256) :
    ({ e with bufR := memFill e.bufR vs, lenr := vs.length } : Engine).Inv :=
  have hf : (e.setBuf .R (memFill e.bufR vs)).Inv := fillBuf_inv (b := .R) h hv
  { hf with
    r_written := fun _ hj => memFill_written hj, lenr_le := hv
    buffers := buffers_same (fun b => by cases b <;> rfl) hf }

theorem storeO_inv {e : Engine} {vs : List Byte} {n : Nat} (h : e.Inv) (hl : vs.length = n) (hn : n ≤ 4096) :
    ({ e with bufO := memFill e.bufO vs, olen := n } : Engine).Inv :=
  have hf : (e.setBuf .O (memFill e.bufO vs)).Inv := fillBuf_inv (b := .O) h (hl.trans_le hn)
  { hf with
    o_written := fun _ hj => memFill_written (hl ▸ hj), olen_le := hn
    buffers := buffers_same (fun b => by cases b <;> rfl) hf }

theorem bwr_inv {e : Engine} {b : Buf} {idx : Nat} {byte : Byte} (h : e.Inv) (hb : hostWritable b = true)
    (hi : idx < b.capacity) : (e.setBuf b (memWrite (e.buf b) idx byte)).Inv := by
  obtain ⟨hwf, hin⟩ := h.buffers b
  refine setBuf_inv h (memWrite_wf idx byte hwf) (memWrite_within byte hin hi) ?_ ?_
  · rintro rfl; cases hb
  · rintro rfl; cases hb

theorem wkrst_inv {e : Engine} (h : e.Inv) (hv : e.version ≠ 0) :
    ({ e with walk := Walker.start e.width } : Engine).Inv :=
  { h with
    walk_idle := fun h0 => absurd h0 hv
    walk_inv := fun _ => start_inv (Nat.lt_of_lt_of_le (by decide) (width_odd hv).2)
    buffers := buffers_same (fun b => by cases b <;> rfl) h }

theorem setFault_inv {e : Engine} (h : e.Inv) (hv : e.version ≠ 0) :
    ({ e with fault := true, fcode := 8 } : Engine).Inv :=
  { h with fcode_eq := rfl, fault_sym := fun _ => hv, buffers := buffers_same (fun b => by cases b <;> rfl) h }

theorem setMask_inv {e : Engine} {m : Nat} (h : e.Inv) (hm : m < 8) : ({ e with mask := m } : Engine).Inv :=
  { h with mask_lt := hm, buffers := buffers_same (fun b => by cases b <;> rfl) h }

theorem commitMask_inv {e : Engine} (h : e.Inv) : (e.commitMask e.bestMask).Inv := by
  obtain ⟨hlt, hscores, -⟩ := bestMask_spec e
  have hc := candidate_inv e.bestMask.1 h
  rw [Engine.commitMask, hscores]
  exact setMask_inv (setScores_inv hc hc.mod_square) hlt

/-- The two numbers of RSCFG whose bounds no check of the command gives: they are the widths of their fields
(30_encoding R81). -/
def ConfigFits (i : Instr) : Prop := ∀ ndata nblk ecpb, i = .rscfg ndata nblk ecpb → ndata ≤ 4095 ∧ nblk ≤ 127

/-- What a command writes keeps the invariant. -/
theorem effect_keeps_inv {e e' : Engine} (hi : ConfigFits i) (h : e.Inv) (he : Effect i e e') : e'.Inv := by
  cases he with
  | reset => exact reset_inv
  | symnew h1 hv => exact newSymbol_inv _ h h1 hv
  | bwr hb hidx => exact bwr_inv h hb hidx
  | blenA hn => exact setLena_inv h hn
  | blenB hn => exact setLenb_inv h hn
  | genld hn => exact genld_inv h hn
  | @pmul _ p q hp hq ha hb hc =>
    have hne : p ≠ [] := List.ne_nil_of_length_pos (by omega)
    exact storeR_inv h (by rw [polymul_length p q hne, hp, hq]; exact hc)
  | @prem _ p q hp hq hb h0 =>
    have hne : q ≠ [] := List.ne_nil_of_length_pos (by omega)
    have := h.lenb_le
    exact storeR_inv h (by rw [polyrem_length hne]; omega)
  | rscfg h1 hecpb hb hc =>
    obtain ⟨hn, hk⟩ := hi _ _ _ rfl
    exact { h with
      ndata_le := hn, nblk_le := hk, ecpb_le := hecpb, blocks := hb, stream_le := hc
      buffers := buffers_same (fun b => by cases b <;> rfl) h }
  | rsenc hd h1 => exact storeO_inv h (rsStream_length _ _ _ h1) h.stream_le
  | stamps => exact stampAll_inv _ h
  | wkrst hv => exact wkrst_inv h hv
  | placed _ hv hp => exact (placeBits_inv h hv hp).1
  | overflow _ hv hp => exact setFault_inv (placeBits_inv h hv hp).1 (by rw [placeBits_eq hp]; exact hv)
  | mskapp => exact maskApply_inv _ h
  | penalty => exact setScores_inv h h.mod_square
  | msksel => exact commitMask_inv h

/-! ## Decoding RSCFG -/

theorem whenZero_eq_instr {op z : Nat} {i j : Instr} : whenZero op z i = .instr j ↔ z = 0 ∧ i = j :=
  ⟨whenZero_instr, fun ⟨hz, hij⟩ => hij ▸ whenZero_of_zero hz⟩

/-- RSCFG is decoded from one row of the table only (30_encoding R84). -/
theorem decode_rscfg {w : Word} {ndata nblk ecpb : Nat} (h : decode w = .instr (.rscfg ndata nblk ecpb)) :
    bits w 23 12 = ndata ∧ bits w 11 5 = nblk ∧ bits w 4 0 = ecpb := by
  unfold decode at h
  split at h <;> simp only [whenZero_eq_instr, Decoded.instr.injEq, Instr.rscfg.injEq, reduceCtorEq, and_false] at h
  exact h

theorem decode_configFits {w : Word} (h : decode w = .instr i) : ConfigFits i := by
  rintro ndata nblk ecpb rfl
  obtain ⟨rfl, rfl, -⟩ := decode_rscfg h
  exact ⟨Nat.le_of_lt_succ (Nat.mod_lt _ (by decide)), Nat.le_of_lt_succ (Nat.mod_lt _ (by decide))⟩

/-! ## What a step can do to the engine -/

theorem step_of_illegal {w : Word} {err : DecodeError} {rest : List HostInput} (h : s.input = .command w :: rest)
    (hw : decode w = .illegal err) : step s = answerIllegal { s with input := rest } := by
  simp only [step, takeInput, h, hw]

/-- What a step does to the engine: nothing, a reset, or the effect of the command it decodes. -/
theorem step_effect (h : step s = .next t) :
    t.eng = s.eng ∨ t.eng = Engine.reset ∨ ∃ w i, decode w = .instr i ∧ Effect i s.eng t.eng := by
  cases hs : s.input with
  | nil =>
    rw [step_of_no_input hs] at h
    cases h; exact .inl rfl
  | cons x rest =>
    cases x with
    | hardReset =>
      rw [step_of_hardReset hs] at h
      cases h; exact .inr (.inl rfl)
    | command w =>
      cases hw : decode w with
      | instr i =>
        rw [step_of_command hs hw] at h
        exact (exec_effect h).imp_right fun he => .inr ⟨w, i, hw, he⟩
      | illegal err =>
        rw [step_of_illegal hs hw] at h
        cases h; exact .inl rfl

/-- Settles O60: each effect of a step keeps the invariant, and reset has it. -/
theorem stepKeepsInv : Obligations.StepKeepsInv := by
  intro s t hs h
  unfold State.Inv at hs ⊢
  rcases step_effect h with h | h | ⟨w, i, hw, he⟩
  · rw [h]; exact hs
  · rw [h]; exact reset_inv
  · exact effect_keeps_inv (decode_configFits hw) hs he

/-! ## STATUS (R25) -/

/-- The bits of STATUS: FAULT at 0, SYM at 1, FCODE at 15:8, the rest 0. -/
theorem testBit_status (e : Engine) (j : Nat) :
    e.status.testBit j =
      if j = 0 then e.fault else if j = 1 then decide (e.version ≠ 0) else decide (8 ≤ j) && e.fcode.getLsbD (j - 8) := by
  have hlow : 2 ^ 1 * e.sym.toNat + e.fault.toNat < 2 ^ 8 := by
    have := e.fault.toNat_le; have := e.sym.toNat_le; omega
  have hst : e.status = 2 ^ 8 * e.fcode.toNat + (2 ^ 1 * e.sym.toNat + e.fault.toNat) := by
    unfold Engine.status; omega
  rw [hst, Nat.testBit_two_pow_mul_add _ hlow, Nat.testBit_two_pow_mul_add _ e.fault.toNat_lt,
    Nat.testBit_bool_toNat, Nat.testBit_bool_toNat, BitVec.testBit_toNat, Engine.sym]
  rcases j with _ | _ | j
  · simp
  · simp
  · by_cases h8 : j + 2 < 8
    · have h6 : ¬ 6 ≤ j := by omega
      simp [h8, h6]
    · simp [h8, Nat.le_of_not_lt h8]

/-- Settles O10: the word of RDREG 1 has the bits of `status`. -/
theorem statusFields : Obligations.StatusFields := by
  intro s
  have hbit : ∀ j, j < 32 → (zext32 (s.eng.reg 1)).getLsbD j = s.eng.status.testBit j := fun j hj => by
    rw [zext32, BitVec.getLsbD_ofNat, decide_eq_true hj, Bool.true_and, Engine.reg]
  refine ⟨zext32 (s.eng.reg 1), exec_rdreg_of_le (by decide) s, ?fault, ?sym, fun j hj => ?fcode,
    fun j h2 h32 hj => ?rest, fun h => h.fcode_eq⟩
  case fault => rw [hbit 0 (by decide), testBit_status, if_pos rfl]
  case sym => rw [hbit 1 (by decide), testBit_status, if_neg (by decide), if_pos rfl]
  case fcode =>
    rw [hbit (8 + j) (by omega), testBit_status, if_neg (by omega), if_neg (by omega)]
    simp
  case rest =>
    rw [hbit j h32, testBit_status, if_neg (by omega), if_neg (by omega)]
    by_cases h8 : 8 ≤ j
    · rw [BitVec.getLsbD_of_ge s.eng.fcode (j - 8) (by omega), Bool.and_false]
    · rw [decide_eq_false h8, Bool.false_and]

/-! ## SYMNEW (R51, 40_config R104) -/

theorem exec_symnew_of_range {v : Nat} (hf : s.eng.fault = false) (h1 : 1 ≤ v) (hv : v ≤ vmax) (lv : Level) :
    exec (.symnew v lv) s = .next (s.answer .ok (sideOf v) (s.eng.newSymbol v lv)) := by
  have hchk : execSymnew v lv s = succeed (sideOf v) { s with eng := s.eng.newSymbol v lv } := by
    rw [execSymnew, gate_serving hf, decide_eq_true ⟨h1, hv⟩, require_true]
  exact hchk

theorem exec_symnew_out_of_range {v : Nat} (hf : s.eng.fault = false) (hv : ¬ (1 ≤ v ∧ v ≤ vmax)) (lv : Level) :
    exec (.symnew v lv) s = .next (s.answer .range 0 s.eng) := by
  have hchk : execSymnew v lv s = typedError .range s := by
    rw [execSymnew, gate_serving hf, decide_eq_false hv, require_false]
  exact hchk.trans (typedError_eq_answer _ s)

/-- Settles O11: the word by the round trip of SYMNEW, the cells by `cellAt_blankGrid`, each answer by the check of the
version. -/
theorem symnewStartsASymbol : Obligations.SymnewStartsASymbol := by
  refine ⟨fun v lv hv => ?word, fun s v lv hf h1 hv => ?new, fun s v lv hf hv => ?range⟩
  case word => exact Laws.RoundTrip.symnew v lv (decide_eq_true hv)
  case new =>
    refine ⟨blankGrid (17 + 4 * v) false, blankGrid (17 + 4 * v) .free, blankGrid_square .., blankGrid_square ..,
      fun r c hr hc => ?cells, ?answer⟩
    case cells => simp [cellAt_blankGrid, hr, hc]
    case answer =>
      have hstart : Walker.start (sideOf v) = ⟨16 + 4 * v, 16 + 4 * v, .enter, true, 0⟩ := by
        simp only [Walker.start, sideOf_eq, Walker.mk.injEq, and_true]; omega
      rw [exec_symnew_of_range hf h1 hv, Engine.newSymbol, hstart, sideOf_eq]
  case range =>
    have hv' : ¬ (1 ≤ v ∧ v ≤ 40) := by omega
    exact exec_symnew_out_of_range hf hv' lv

end Sys2Proof.Machine
end

section
/-! PROOFS of 30_encoding. A word is the sum of its fields, so a legal word is the word of the command it decodes to; a row
of R84 is an opcode and the must-be-zero fields of a format (`opcodeOf`, `mbzOf`), and masking a word compares exactly
those. -/

namespace Sys2Proof.Machine

variable {w : Word}

/-! ## The word of a well-formed command -/

/-- Settles O6: the round trip of each constructor (Laws/PerInstr). -/
theorem decodeOfEncode : Obligations.DecodeOfEncode := by
  intro i
  cases i with
  | nop => exact Laws.RoundTrip.nop
  | reset => exact Laws.RoundTrip.reset
  | rdreg n => exact Laws.RoundTrip.rdreg n
  | symnew v l => exact Laws.RoundTrip.symnew v l
  | bwr buf idx byte => exact Laws.RoundTrip.bwr buf idx byte
  | brd buf idx => exact Laws.RoundTrip.brd buf idx
  | blen buf n => exact Laws.RoundTrip.blen buf n
  | mrd row col => exact Laws.RoundTrip.mrd row col
  | gfadd a b => exact Laws.RoundTrip.gfadd a b
  | gfmul a b => exact Laws.RoundTrip.gfmul a b
  | gfdiv a b => exact Laws.RoundTrip.gfdiv a b
  | gfexp n => exact Laws.RoundTrip.gfexp n
  | gflog n => exact Laws.RoundTrip.gflog n
  | genld n => exact Laws.RoundTrip.genld n
  | pmul => exact Laws.RoundTrip.pmul
  | prem => exact Laws.RoundTrip.prem
  | rscfg ndata nblk ecpb => exact Laws.RoundTrip.rscfg ndata nblk ecpb
  | rsenc => exact Laws.RoundTrip.rsenc
  | fmtword l m => exact Laws.RoundTrip.fmtword l m
  | verword v => exact Laws.RoundTrip.verword v
  | plfind => exact Laws.RoundTrip.plfind
  | pltime => exact Laws.RoundTrip.pltime
  | plalign => exact Laws.RoundTrip.plalign
  | plfmt m => exact Laws.RoundTrip.plfmt m
  | plver => exact Laws.RoundTrip.plver
  | pldark => exact Laws.RoundTrip.pldark
  | plall => exact Laws.RoundTrip.plall
  | cntnone => exact Laws.RoundTrip.cntnone
  | avail => exact Laws.RoundTrip.avail
  | wkrst => exact Laws.RoundTrip.wkrst
  | wkbit b => exact Laws.RoundTrip.wkbit b
  | wkrun => exact Laws.RoundTrip.wkrun
  | mskapp m => exact Laws.RoundTrip.mskapp m
  | penalty => exact Laws.RoundTrip.penalty
  | msksel => exact Laws.RoundTrip.msksel

/-! ## The fields of a word (R80 to R82) -/

theorem bits_lt (w : Word) (hi lo : Nat) : bits w hi lo < 2 ^ (hi + 1 - lo) := Nat.mod_lt _ (Nat.two_pow_pos _)

/-- Two adjacent fields put together. -/
theorem bits_split {hi mid lo : Nat} (hm : mid ≤ hi) (hl : lo ≤ mid + 1) (w : Word) :
    bits w hi lo = bits w hi (mid + 1) * 2 ^ (mid + 1 - lo) + bits w mid lo := by
  obtain ⟨a, ha⟩ := Nat.exists_eq_add_of_le hl
  obtain ⟨b, rfl⟩ := Nat.exists_eq_add_of_le hm
  have hwidth : mid + b + 1 - lo = a + b := by omega
  have htop : mid + b + 1 - (mid + 1) = b := by omega
  have hlow : mid + 1 - lo = a := by omega
  rw [bits, bits, bits, hwidth, htop, hlow, ha, pow_add, pow_add, ← Nat.div_div_eq_div_mul, Nat.mod_mul, Nat.mul_comm,
    Nat.add_comm]

/-- The opcode byte and the 24 bits of the operands. -/
theorem toNat_eq_opcode_operands (w : Word) : w.toNat = bits w 31 24 * 2 ^ 24 + bits w 23 0 := by
  have := w.isLt
  simp only [bits]
  omega

theorem word_eq {op x : Nat} (hop : bits w 31 24 = op) (hx : bits w 23 0 = x) :
    BitVec.ofNat 32 (op * 2 ^ 24 + x) = w := by
  rw [← hop, ← hx, ← toNat_eq_opcode_operands, BitVec.ofNat_toNat, BitVec.setWidth_eq]

/-! What a field holds as an operand. -/

theorem bits_lt_of_le {hi lo b : Nat} (h : 2 ^ (hi + 1 - lo) ≤ b) : bits w hi lo < b := (bits_lt w hi lo).trans_le h

theorem byte_of_bits_toNat {hi lo : Nat} (h : 2 ^ (hi + 1 - lo) ≤ 2 ^ 8) :
    (BitVec.ofNat 8 (bits w hi lo)).toNat = bits w hi lo := by
  rw [BitVec.toNat_ofNat, Nat.mod_eq_of_lt (bits_lt_of_le h)]

theorem ordinal_of_bits {hi lo : Nat} (h : 2 ^ (hi + 1 - lo) ≤ 4) :
    (Level.ofOrdinal (bits w hi lo)).ordinal = bits w hi lo :=
  Level.ordinal_ofOrdinal (bits_lt_of_le h)

theorem bit_toNat (w : Word) : (decide (bits w 0 0 = 1)).toNat = bits w 0 0 := by
  have h : bits w 0 0 < 2 := bits_lt w 0 0
  interval_cases bits w 0 0 <;> rfl

/-! ## One lemma per layout: a word whose must-be-zero bits are 0 is the word of its fields (R81) -/

section Layouts

variable {op : Nat} (hop : bits w 31 24 = op)
include hop

theorem formatZ_of_fields (hz : bits w 23 0 = 0) : formatZ op = w := by
  rw [formatZ, ← word_eq hop hz, Nat.add_zero]

/-- N8, V6, M3 and B1: the number ends at bit `k`. -/
theorem formatN_of_fields {k : Nat} (hk : k ≤ 23) (hz : bits w 23 (k + 1) = 0) : formatN op (bits w k 0) = w :=
  word_eq hop (by rw [bits_split hk (Nat.zero_le _), hz, Nat.zero_mul, Nat.zero_add])

theorem formatAB_of_fields (hz : bits w 23 16 = 0) : formatAB op (bits w 15 8) (bits w 7 0) = w := by
  rw [formatAB, Nat.add_assoc]
  refine word_eq hop ?_
  simp only [bits] at hz ⊢
  omega

theorem formatAB_of_bytes (hz : bits w 23 16 = 0) :
    formatAB op (BitVec.ofNat 8 (bits w 15 8)).toNat (BitVec.ofNat 8 (bits w 7 0)).toNat = w := by
  rw [byte_of_bits_toNat (by decide), byte_of_bits_toNat (by decide)]
  exact formatAB_of_fields hop hz

theorem formatN_of_byte (hz : bits w 23 8 = 0) : formatN op (BitVec.ofNat 8 (bits w 7 0)).toNat = w := by
  rw [byte_of_bits_toNat (by decide)]
  exact formatN_of_fields hop (by decide) hz

theorem formatN_of_bit (hz : bits w 23 1 = 0) : formatN op (decide (bits w 0 0 = 1)).toNat = w := by
  rw [bit_toNat]
  exact formatN_of_fields hop (by decide) hz

theorem formatSV_of_fields (hz : bits w 23 16 + bits w 7 2 = 0) :
    formatSV op (bits w 15 8) (Level.ofOrdinal (bits w 1 0)).ordinal = w := by
  rw [ordinal_of_bits (by decide), formatSV, Nat.add_assoc]
  refine word_eq hop ?_
  simp only [bits] at hz ⊢
  omega

theorem formatFW_of_fields (hz : bits w 23 10 + bits w 7 3 = 0) :
    formatFW op (Level.ofOrdinal (bits w 9 8)).ordinal (bits w 2 0) = w := by
  rw [ordinal_of_bits (by decide), formatFW, Nat.add_assoc]
  refine word_eq hop ?_
  simp only [bits] at hz ⊢
  omega

/-- BW; BR is the same layout with the byte 0. -/
theorem formatBW_of_fields : formatBW op (bits w 23 20) (bits w 19 8) (bits w 7 0) = w := by
  rw [formatBW, Nat.add_assoc, Nat.add_assoc]
  refine word_eq hop ?_
  simp only [bits]
  omega

theorem formatBW_of_byte : formatBW op (bits w 23 20) (bits w 19 8) (BitVec.ofNat 8 (bits w 7 0)).toNat = w := by
  rw [byte_of_bits_toNat (by decide)]
  exact formatBW_of_fields hop

theorem formatBR_of_fields (hz : bits w 7 0 = 0) : formatBW op (bits w 23 20) (bits w 19 8) 0 = w := by
  rw [← hz]
  exact formatBW_of_fields hop

theorem formatRS_of_fields : formatRS op (bits w 23 12) (bits w 11 5) (bits w 4 0) = w := by
  rw [formatRS, Nat.add_assoc, Nat.add_assoc]
  refine word_eq hop ?_
  simp only [bits]
  omega

end Layouts

/-! ## The command a word decodes to -/

theorem wellFormed_of_decode {i : Instr} (h : decode w = .instr i) : WellFormed i = true := by
  unfold decode at h
  split at h
  case h_36 => cases h
  -- BWR and RSCFG have no must-be-zero bits.
  case h_5 | h_17 => cases h; simp [WellFormed, bits_lt_of_le]
  all_goals obtain ⟨-, rfl⟩ := whenZero_instr h; simp [WellFormed, bits_lt_of_le]

theorem encode_of_whenZero {op z : Nat} {i j : Instr} (hj : z = 0 → encode j = w) (h : whenZero op z j = .instr i) :
    encode i = w := by
  obtain ⟨hz, rfl⟩ := whenZero_instr h
  exact hj hz

/-- Row by row of the decoder: the command's word is that of its format, filled with the fields of `w`. -/
theorem encode_of_decode {i : Instr} (h : decode w = .instr i) : encode i = w := by
  unfold decode at h
  split at h
  next hop => exact encode_of_whenZero (formatZ_of_fields hop) h
  next hop => exact encode_of_whenZero (formatZ_of_fields hop) h
  next hop => exact encode_of_whenZero (formatN_of_fields hop (by decide)) h
  next hop => exact encode_of_whenZero (formatSV_of_fields hop) h
  next hop => cases h; exact formatBW_of_byte hop
  next hop => exact encode_of_whenZero (formatBR_of_fields hop) h
  next hop => exact encode_of_whenZero (formatBR_of_fields hop) h
  next hop => exact encode_of_whenZero (formatAB_of_fields hop) h
  next hop => exact encode_of_whenZero (formatAB_of_bytes hop) h
  next hop => exact encode_of_whenZero (formatAB_of_bytes hop) h
  next hop => exact encode_of_whenZero (formatAB_of_bytes hop) h
  next hop => exact encode_of_whenZero (formatN_of_fields hop (by decide)) h
  next hop => exact encode_of_whenZero (formatN_of_byte hop) h
  next hop => exact encode_of_whenZero (formatN_of_fields hop (by decide)) h
  next hop => exact encode_of_whenZero (formatZ_of_fields hop) h
  next hop => exact encode_of_whenZero (formatZ_of_fields hop) h
  next hop => cases h; exact formatRS_of_fields hop
  next hop => exact encode_of_whenZero (formatZ_of_fields hop) h
  next hop => exact encode_of_whenZero (formatFW_of_fields hop) h
  next hop => exact encode_of_whenZero (formatN_of_fields hop (by decide)) h
  next hop => exact encode_of_whenZero (formatZ_of_fields hop) h
  next hop => exact encode_of_whenZero (formatZ_of_fields hop) h
  next hop => exact encode_of_whenZero (formatZ_of_fields hop) h
  next hop => exact encode_of_whenZero (formatN_of_fields hop (by decide)) h
  next hop => exact encode_of_whenZero (formatZ_of_fields hop) h
  next hop => exact encode_of_whenZero (formatZ_of_fields hop) h
  next hop => exact encode_of_whenZero (formatZ_of_fields hop) h
  next hop => exact encode_of_whenZero (formatZ_of_fields hop) h
  next hop => exact encode_of_whenZero (formatZ_of_fields hop) h
  next hop => exact encode_of_whenZero (formatZ_of_fields hop) h
  next hop => exact encode_of_whenZero (formatN_of_bit hop) h
  next hop => exact encode_of_whenZero (formatZ_of_fields hop) h
  next hop => exact encode_of_whenZero (formatN_of_fields hop (by decide)) h
  next hop => exact encode_of_whenZero (formatZ_of_fields hop) h
  next hop => exact encode_of_whenZero (formatZ_of_fields hop) h
  next => cases h

/-- Settles O7: a field of the decoder is an operand of the format, and an operand taken from a field fits it. -/
theorem encodeOfDecode : Obligations.EncodeOfDecode := fun _ _ h => ⟨encode_of_decode h, wellFormed_of_decode h⟩

/-! ## A row of the table as an opcode and the must-be-zero fields of a format -/

/-- Bits 31:24 of a command's word (R84). -/
def opcodeOf (i : Instr) : Nat :=
  match i with
  | .nop => 0x00
  | .reset => 0x01
  | .rdreg _ => 0x02
  | .symnew _ _ => 0x03
  | .bwr _ _ _ => 0x04
  | .brd _ _ => 0x05
  | .blen _ _ => 0x06
  | .mrd _ _ => 0x07
  | .gfadd _ _ => 0x10
  | .gfmul _ _ => 0x11
  | .gfdiv _ _ => 0x12
  | .gfexp _ => 0x13
  | .gflog _ => 0x14
  | .genld _ => 0x20
  | .pmul => 0x21
  | .prem => 0x22
  | .rscfg _ _ _ => 0x30
  | .rsenc => 0x31
  | .fmtword _ _ => 0x32
  | .verword _ => 0x33
  | .plfind => 0x40
  | .pltime => 0x41
  | .plalign => 0x42
  | .plfmt _ => 0x43
  | .plver => 0x44
  | .pldark => 0x45
  | .plall => 0x46
  | .cntnone => 0x47
  | .avail => 0x48
  | .wkrst => 0x50
  | .wkbit _ => 0x51
  | .wkrun => 0x52
  | .mskapp _ => 0x60
  | .penalty => 0x61
  | .msksel => 0x62

/-- The must-be-zero fields of a command's format, each by its highest and lowest bit (R81). -/
def mbzOf (i : Instr) : List (Nat × Nat) :=
  match i with
  | .bwr _ _ _ | .rscfg _ _ _ => []
  | .brd _ _ | .blen _ _ => [(7, 0)]
  | .rdreg _ | .gfexp _ | .gflog _ | .genld _ => [(23, 8)]
  | .verword _ => [(23, 6)]
  | .plfmt _ | .mskapp _ => [(23, 3)]
  | .wkbit _ => [(23, 1)]
  | .mrd _ _ | .gfadd _ _ | .gfmul _ _ | .gfdiv _ _ => [(23, 16)]
  | .symnew _ _ => [(23, 16), (7, 2)]
  | .fmtword _ _ => [(23, 10), (7, 3)]
  | _ => [(23, 0)]

/-- The word that is 1 in the bits `r.1` down to `r.2` and 0 elsewhere. -/
def fieldMask (r : Nat × Nat) : Word := BitVec.ofNat 32 (2 ^ (r.1 + 1) - 2 ^ r.2)

/-- The mask of an opcode and a list of must-be-zero fields. -/
def rowMask (rs : List (Nat × Nat)) : Word := rs.foldr (fun r k => fieldMask r ||| k) (fieldMask (31, 24))

/-- The row of R84 a command belongs to. -/
def rowOf (i : Instr) : String × Word × Word := (mnemonicOf i, formatZ (opcodeOf i), rowMask (mbzOf i))

/-- One command of each row, in the order of the table. -/
def rowCommands : List Instr :=
  [.nop, .reset, .rdreg 0, .symnew 0 .L, .bwr 0 0 0, .brd 0 0, .blen 0 0, .mrd 0 0, .gfadd 0 0, .gfmul 0 0, .gfdiv 0 0,
   .gfexp 0, .gflog 0, .genld 0, .pmul, .prem, .rscfg 0 0 0, .rsenc, .fmtword .L 0, .verword 0, .plfind, .pltime, .plalign,
   .plfmt 0, .plver, .pldark, .plall, .cntnone, .avail, .wkrst, .wkbit false, .wkrun, .mskapp 0, .penalty, .msksel]

theorem opcodeTable_eq : opcodeTable = rowCommands.map rowOf := by decide

theorem eq_of_mnemonic_eq : ∀ a ∈ opcodeTable, ∀ b ∈ opcodeTable, a.1 = b.1 → a = b := by decide

theorem exists_rowOf_eq {a : String × Word × Word} (h : a ∈ opcodeTable) : ∃ i, rowOf i = a := by
  rw [opcodeTable_eq] at h
  obtain ⟨i, -, hi⟩ := List.mem_map.mp h
  exact ⟨i, hi⟩

/-- The row of a command does not depend on its operands. -/
theorem rowOf_mem (i : Instr) : rowOf i ∈ opcodeTable := by
  rw [opcodeTable_eq]
  cases i <;> simp [rowCommands, rowOf, mnemonicOf, opcodeOf, mbzOf]

/-! ## Masking a word reads its fields -/

theorem and_fieldMask_toNat {hi lo : Nat} (hl : lo ≤ hi) (hh : hi < 32) (w : Word) :
    (w &&& fieldMask (hi, lo)).toNat = bits w hi lo * 2 ^ lo := by
  obtain ⟨n, hn⟩ : ∃ n, hi + 1 = lo + n := Nat.exists_eq_add_of_le (Nat.le_succ_of_le hl)
  have hmask : 2 ^ (hi + 1) - 2 ^ lo = (2 ^ n - 1) * 2 ^ lo := by
    rw [hn, pow_add, Nat.sub_mul, one_mul, Nat.mul_comm]
  have hfits : 2 ^ (hi + 1) - 2 ^ lo < 2 ^ 32 :=
    (Nat.sub_lt (Nat.two_pow_pos _) (Nat.two_pow_pos _)).trans_le (Nat.pow_le_pow_right (by decide) hh)
  rw [BitVec.toNat_and, fieldMask, BitVec.toNat_ofNat, Nat.mod_eq_of_lt hfits, hmask, bits, hn, Nat.add_sub_cancel_left]
  refine Nat.eq_of_testBit_eq fun j => ?_
  by_cases hj : lo ≤ j <;> simp [Nat.testBit_mul_two_pow, Nat.testBit_div_two_pow, hj, Bool.and_comm]

theorem and_fieldMask_eq {hi lo v : Nat} (hl : lo ≤ hi) (hh : hi < 32) (hv : v < 2 ^ (hi + 1 - lo)) :
    w &&& fieldMask (hi, lo) = BitVec.ofNat 32 (v * 2 ^ lo) ↔ bits w hi lo = v := by
  have hfits : v * 2 ^ lo < 2 ^ 32 := calc
    v * 2 ^ lo < 2 ^ (hi + 1 - lo) * 2 ^ lo := Nat.mul_lt_mul_of_pos_right hv (Nat.two_pow_pos _)
    _ = 2 ^ (hi + 1) := by rw [← pow_add, Nat.sub_add_cancel (Nat.le_succ_of_le hl)]
    _ ≤ 2 ^ 32 := Nat.pow_le_pow_right (by decide) hh
  rw [← BitVec.toNat_inj, and_fieldMask_toNat hl hh, BitVec.toNat_ofNat, Nat.mod_eq_of_lt hfits]
  exact Nat.mul_left_inj (Nat.two_pow_pos lo).ne'

theorem and_fieldMask_eq_zero {r : Nat × Nat} (hl : r.2 ≤ r.1) (hh : r.1 < 32) :
    w &&& fieldMask r = 0 ↔ bits w r.1 r.2 = 0 := by
  rw [← and_fieldMask_eq hl hh (Nat.two_pow_pos _), Nat.zero_mul]
  rfl

/-- The operand bits of a word of format Z are 0. -/
theorem bits_formatZ {hi lo : Nat} (hl : lo ≤ hi) (hh : hi ≤ 23) {op : Nat} (hop : op < 256) :
    bits (formatZ op) hi lo = 0 := by
  have hfields : op * 2 ^ 24 = op * 2 ^ (23 - hi) * 2 ^ (hi + 1 - lo) * 2 ^ lo := by
    rw [Nat.mul_assoc, Nat.mul_assoc, ← pow_add, ← pow_add]
    congr 2
    omega
  rw [formatZ, bits_ofNat (by omega), hfields, Nat.mul_div_cancel _ (Nat.two_pow_pos lo), Nat.mul_mod_left]

/-- A mask of two parts, where the match is 0 in the first. -/
theorem and_or_eq_iff {f k m : Word} (hm : m &&& f = 0) : w &&& (f ||| k) = m ↔ w &&& f = 0 ∧ w &&& k = m := by
  rw [BitVec.and_or_distrib_left]
  constructor
  · intro h
    have hf : w &&& f = 0#32 := calc
      w &&& f = (w &&& f ||| w &&& k) &&& f := by
        ext j hj
        cases hw : w[j] <;> cases hb : f[j] <;> simp [hw, hb]
      _ = 0 := by rw [h, hm]
    exact ⟨hf, by rwa [hf, BitVec.zero_or] at h⟩
  · rintro ⟨hf, hk⟩
    exact (congrArg₂ (· ||| ·) hf hk).trans BitVec.zero_or

/-- A word is masked to an opcode exactly when that is its opcode and its must-be-zero fields are 0. -/
theorem and_rowMask_eq_iff {op : Nat} {rs : List (Nat × Nat)} (hop : op < 256)
    (hrs : ∀ r ∈ rs, r.2 ≤ r.1 ∧ r.1 ≤ 23) :
    w &&& rowMask rs = formatZ op ↔ (∀ r ∈ rs, bits w r.1 r.2 = 0) ∧ bits w 31 24 = op := by
  induction rs with
  | nil =>
    rw [and_iff_right (List.forall_mem_nil _)]
    exact and_fieldMask_eq (by decide) (by decide) hop
  | cons r rs ih =>
    obtain ⟨⟨hl, hh⟩, hrs⟩ := List.forall_mem_cons.mp hrs
    have hh32 : r.1 < 32 := by omega
    have hz : formatZ op &&& fieldMask r = 0 := (and_fieldMask_eq_zero hl hh32).mpr (bits_formatZ hl hh hop)
    have hcons : rowMask (r :: rs) = fieldMask r ||| rowMask rs := rfl
    rw [hcons, and_or_eq_iff hz, and_fieldMask_eq_zero hl hh32, ih hrs, List.forall_mem_cons, and_assoc]

/-! ## The row of a word is the row of its command (R84) -/

/-- What a row of the decoder checked. -/
theorem fields_of_decode {i : Instr} (h : decode w = .instr i) :
    (∀ r ∈ mbzOf i, bits w r.1 r.2 = 0) ∧ bits w 31 24 = opcodeOf i := by
  unfold decode at h
  split at h
  case h_36 => cases h
  case h_5 hop | h_17 hop => cases h; exact ⟨by simp [mbzOf], hop⟩
  all_goals
    obtain ⟨hz, rfl⟩ := whenZero_instr h
    simp_all [mbzOf, opcodeOf]

/-- The opcode selects the row of the decoder, and its must-be-zero check passes. -/
theorem decode_of_fields {i : Instr} (hz : ∀ r ∈ mbzOf i, bits w r.1 r.2 = 0) (hop : bits w 31 24 = opcodeOf i) :
    ∃ j, decode w = .instr j ∧ mnemonicOf j = mnemonicOf i := by
  cases i <;> simp_all [mbzOf, opcodeOf, decode, mnemonicOf]

theorem opcodeOf_lt (i : Instr) : opcodeOf i < 256 := by cases i <;> simp [opcodeOf]

theorem mbzOf_bounds (i : Instr) : ∀ r ∈ mbzOf i, r.2 ≤ r.1 ∧ r.1 ≤ 23 := by cases i <;> simp [mbzOf]

/-- A word matches a row of R84. -/
def Matches (w : Word) (a : String × Word × Word) : Prop := w &&& a.2.2 = a.2.1

theorem matches_rowOf_iff (i : Instr) :
    Matches w (rowOf i) ↔ (∀ r ∈ mbzOf i, bits w r.1 r.2 = 0) ∧ bits w 31 24 = opcodeOf i :=
  and_rowMask_eq_iff (opcodeOf_lt i) (mbzOf_bounds i)

theorem matches_of_decode {i : Instr} (h : decode w = .instr i) : Matches w (rowOf i) :=
  (matches_rowOf_iff i).mpr (fields_of_decode h)

theorem decode_of_matches {a : String × Word × Word} (ha : a ∈ opcodeTable) (hw : Matches w a) :
    ∃ i, decode w = .instr i ∧ rowOf i = a := by
  obtain ⟨i, rfl⟩ := exists_rowOf_eq ha
  obtain ⟨hz, hop⟩ := (matches_rowOf_iff i).mp hw
  obtain ⟨j, hj, hname⟩ := decode_of_fields hz hop
  exact ⟨j, hj, eq_of_mnemonic_eq _ (rowOf_mem j) _ ha hname⟩

/-- Settles O4: the row a word matches is the row of the command it decodes to, and a mnemonic names one row. -/
theorem opcodeTableDecides : Obligations.OpcodeTableDecides := by
  refine ⟨fun w name m k ha => ⟨fun hw => ?named, ?matched⟩,
    fun w i h => ⟨_, _, rowOf_mem i, matches_of_decode h⟩, fun w a b ha hb hwa hwb => ?unique⟩
  case named =>
    obtain ⟨i, hi, hrow⟩ := decode_of_matches ha hw
    exact ⟨i, hi, congrArg Prod.fst hrow⟩
  case matched =>
    rintro ⟨i, hi, hname⟩
    have hrow : rowOf i = (name, m, k) := eq_of_mnemonic_eq _ (rowOf_mem i) _ ha hname
    have hw := matches_of_decode hi
    rwa [hrow] at hw
  case unique =>
    obtain ⟨i, hi, rfl⟩ := decode_of_matches ha hwa
    obtain ⟨j, hj, rfl⟩ := decode_of_matches hb hwb
    cases hi.symm.trans hj
    rfl

/-! ## A word outside the table (R87) -/

theorem decode_illegal_of_no_match (h : ∀ a ∈ opcodeTable, ¬ Matches w a) : ∃ err, decode w = .illegal err := by
  cases hw : decode w with
  | instr i => exact absurd (matches_of_decode hw) (h _ (rowOf_mem i))
  | illegal err => exact ⟨err, rfl⟩

/-- Settles O5: such a word does not decode, and a step answers E_ILLEGAL before anything else. -/
theorem illegalWordsAnswerIllegal : Obligations.IllegalWordsAnswerIllegal := by
  intro s w h
  obtain ⟨err, hw⟩ := decode_illegal_of_no_match h
  rw [step_of_illegal (presentWord_input w s) hw]
  exact typedError_eq_answer .illegal s

/-! ## Printed words (R89) -/

/-- Settles O3: fifteen closed words. -/
theorem specWordsDecode : Obligations.SpecWordsDecode := by
  unfold Obligations.SpecWordsDecode
  decide

end Sys2Proof.Machine
end

section
/-! PROOFS of 40_config_and_buffers. The answers of the interface commands as whole next states, one lemma per outcome of a
command, and how a command can end (`Ends`): one lemma per shared operation, from which the end of each command is read
off its definition. -/

namespace Sys2Proof.Machine

variable {i : Instr} {s : State} {b : Buf} {buf idx n row col : Nat}

/-! ## NOP and RESET (R101, R102) -/

/-- Settles O8: neither command has a check, and `resetEngine` keeps the port. -/
theorem nopAndReset : Obligations.NopAndReset :=
  ⟨Laws.RoundTrip.nop rfl, Laws.RoundTrip.reset rfl,
    fun s => ⟨succeed_eq_answer 0 s, succeed_eq_answer 0 (resetEngine s)⟩⟩

/-! ## RDREG (R103) -/

theorem exec_rdreg_out_of_range (h : ¬ n ≤ lastReg) (s : State) :
    exec (.rdreg n) s = .next (s.answer .range 0 s.eng) := by
  have hchk : execRdreg n s = typedError .range s := by rw [execRdreg, decide_eq_false h, require_false]
  exact hchk.trans (typedError_eq_answer _ s)

theorem status_eq (e : Engine) :
    e.status = e.fault.toNat + (if e.version ≠ 0 then 2 else 0) + 256 * e.fcode.toNat := by
  by_cases hv : e.version = 0 <;> simp [Engine.status, Engine.sym, hv]

/-- The list of R103 holds the registers in the order of their numbers. -/
theorem registerList_eq (e : Engine) : registerList e = (List.range 22).map e.reg := by
  unfold registerList
  rw [← status_eq]
  rfl

theorem eq_reg_of_registerList {e : Engine} {v : Nat} (h : (registerList e)[n]? = some v) :
    n ≤ lastReg ∧ e.reg n = v := by
  rw [registerList_eq, List.getElem?_map, Option.map_eq_some_iff] at h
  obtain ⟨k, hk, hv⟩ := h
  obtain ⟨hn, rfl⟩ := List.getElem?_eq_some_iff.1 hk
  rw [List.getElem_range] at hv
  rw [List.length_range] at hn
  exact ⟨Nat.le_of_lt_succ hn, hv⟩

/-- Settles O9: the list of R103 is that of `Engine.reg`, and RDREG has the one check of the number. -/
theorem rdregReadsTheRegister : Obligations.RdregReadsTheRegister := by
  refine ⟨fun n hn => Laws.RoundTrip.rdreg n (decide_eq_true hn), fun s n => ⟨fun v hv => ?_, fun hn => ?_⟩⟩
  · obtain ⟨hn, rfl⟩ := eq_reg_of_registerList hv
    exact exec_rdreg_of_le hn s
  · exact exec_rdreg_out_of_range (Nat.not_le.2 hn) s

/-! ## Buffer codes (30_encoding R86) -/

/-- The code of a buffer. -/
def Buf.code (b : Buf) : Nat :=
  match b with
  | .D => 0
  | .O => 1
  | .A => 2
  | .B => 3
  | .R => 4

theorem bufOfCode_eq_some_iff : bufOfCode n = some b ↔ n = b.code := by
  constructor
  · intro h
    unfold bufOfCode at h
    split at h <;> cases h <;> rfl
  · rintro rfl
    cases b <;> rfl

theorem Buf.code_le (b : Buf) : b.code ≤ 4 := by cases b <;> decide

theorem bufOfCode_eq_none (h : 4 < n) : bufOfCode n = none :=
  Option.eq_none_iff_forall_ne_some.2 fun b hb => by
    have := bufOfCode_eq_some_iff.1 hb
    have := b.code_le
    omega

/-! ## BWR (R105) -/

theorem exec_bwr_of_lt (hf : s.eng.fault = false) (hb : bufOfCode buf = some b) (hw : hostWritable b = true)
    (hi : idx < b.capacity) (byte : Byte) :
    exec (.bwr buf idx byte) s =
      .next (s.answer .ok 0 (s.eng.setBuf b (memWrite (s.eng.buf b) idx byte))) := by
  have hchk : execBwr buf idx byte s =
      succeed 0 { s with eng := s.eng.setBuf b (memWrite (s.eng.buf b) idx byte) } := by
    simp only [execBwr, gate_serving hf, hb, hw, decide_eq_true hi, Bool.and_self, require_true]
  exact hchk

theorem exec_bwr_out_of_range (hf : s.eng.fault = false)
    (h : ∀ b, bufOfCode buf = some b → hostWritable b = true → b.capacity ≤ idx) (byte : Byte) :
    exec (.bwr buf idx byte) s = .next (s.answer .range 0 s.eng) := by
  have hchk : execBwr buf idx byte s = typedError .range s := by
    rw [execBwr, gate_serving hf]
    cases hb : bufOfCode buf with
    | none => rfl
    | some b =>
      have hc : (hostWritable b && decide (idx < b.capacity)) = false := by simpa using h b hb
      simp only [hc, require_false]
  exact hchk.trans (typedError_eq_answer _ s)

theorem storedAt_memWrite (m : Memory) (i : Nat) (v : Byte) : StoredAt m i v (memWrite m i v) :=
  fun j => memRead_memWrite m i j v

theorem exec_bwr_stores (hf : s.eng.fault = false) (hb : bufOfCode buf = some b) (hw : hostWritable b = true)
    (hi : idx < b.capacity) (byte : Byte) :
    ∃ m, StoredAt (s.eng.buf b) idx byte m ∧ exec (.bwr buf idx byte) s = .next (s.answer .ok 0 (s.eng.setBuf b m)) :=
  ⟨_, storedAt_memWrite _ _ _, exec_bwr_of_lt hf hb hw hi byte⟩

/-- Settles O12: the byte by `memRead_memWrite`, each answer by the buffer its code names. -/
theorem bwrWritesOneByte : Obligations.BwrWritesOneByte := by
  refine ⟨fun buf idx byte hb hi => Laws.RoundTrip.bwr buf idx byte ?wellFormed,
    fun s idx byte hf hi => exec_bwr_stores (b := .D) hf rfl rfl (Nat.lt_succ_of_le hi) byte,
    fun s idx byte hf hi => exec_bwr_stores (b := .A) hf rfl rfl (Nat.lt_succ_of_le hi) byte,
    fun s idx byte hf hi => exec_bwr_stores (b := .B) hf rfl rfl (Nat.lt_succ_of_le hi) byte,
    fun s buf idx byte hf h => exec_bwr_out_of_range hf (fun b hb hw => ?range) byte⟩
  case wellFormed => simp [WellFormed, hb, hi]
  case range =>
    rw [bufOfCode_eq_some_iff] at hb
    cases b with
    | D => simp only [Buf.code] at hb; omega
    | O => cases hw
    | A | B => simp only [Buf.code] at hb; show 256 ≤ idx; omega
    | R => cases hw

/-! ## BRD (R106, 20_memory R66) -/

theorem mem_readLimits_iff {e : Engine} {code lim : Nat} :
    (code, b, lim) ∈ readLimits e ↔ bufOfCode code = some b ∧ e.readable b = lim := by
  rw [bufOfCode_eq_some_iff]
  cases b <;> simp [readLimits, Buf.code, Engine.readable, Buf.capacity, fixedParams, eq_comm]

theorem exec_brd_of_lt (hf : s.eng.fault = false) (hb : bufOfCode buf = some b) (hi : idx < s.eng.readable b) :
    exec (.brd buf idx) s = readBytes b idx 1 (fun bs => succeed (bs.headD 0).toNat) s := by
  have hchk : execBrd buf idx s = readBytes b idx 1 (fun bs => succeed (bs.headD 0).toNat) s := by
    simp only [execBrd, gate_serving hf, hb, decide_eq_true hi, require_true]
  exact hchk

theorem exec_brd_out_of_range (hf : s.eng.fault = false)
    (h : ∀ b, bufOfCode buf = some b → s.eng.readable b ≤ idx) :
    exec (.brd buf idx) s = .next (s.answer .range 0 s.eng) := by
  have hchk : execBrd buf idx s = typedError .range s := by
    rw [execBrd, gate_serving hf]
    cases hb : bufOfCode buf with
    | none => rfl
    | some b => simp only [decide_eq_false (Nat.not_lt.2 (h b hb)), require_false]
  exact hchk.trans (typedError_eq_answer _ s)

theorem holds_singleton {x : Byte} (h : memRead (s.eng.buf b) idx = some x) : Holds s.eng b idx [x] := by
  intro i hi
  obtain rfl : i = 0 := by simpa using hi
  exact h

/-- A read of one unwritten byte under `anyValue` is one draw. -/
theorem readBytes_one_drawn {kb : List Byte → State → Result} (hp : s.cfg.unwritten = .anyValue)
    (h : memRead (s.eng.buf b) idx = none) :
    readBytes b idx 1 kb s = kb [Config.freeByte s.draws] { s with draws := s.draws + 1 } := by
  have hslot : memSlots (s.eng.buf b) idx 1 = [none] := by simp [memSlots, h]
  simp only [readBytes, config_unwritten, hp, hslot, drawBytes]

/-- Settles O13: BRD is a read of one byte below the limit of its buffer, and the read is one of the three of R66. -/
theorem brdReadsOneByte : Obligations.BrdReadsOneByte := by
  refine ⟨fun buf idx hb hi => Laws.RoundTrip.brd buf idx ?wellFormed, fun s code b lim idx x hf hl hi hx => ?written,
    fun s code b lim idx hf hl hi hu hp => ?drawn, fun s code b lim idx hf hl hi hu hp => ?refused,
    fun s code idx hf h => exec_brd_out_of_range hf fun b hb => ?range⟩
  case wellFormed => simp [WellFormed, hb, hi]
  case written =>
    obtain ⟨hb, rfl⟩ := mem_readLimits_iff.1 hl
    rw [exec_brd_of_lt hf hb hi]
    exact readBytes_holds (holds_singleton hx)
  case drawn =>
    obtain ⟨hb, rfl⟩ := mem_readLimits_iff.1 hl
    rw [exec_brd_of_lt hf hb hi, readBytes_one_drawn hp hu]
    rfl
  case refused =>
    obtain ⟨hb, rfl⟩ := mem_readLimits_iff.1 hl
    rw [exec_brd_of_lt hf hb hi]
    exact readBytes_refused hp Nat.zero_lt_one hu
  case range =>
    rcases h with h | ⟨b', lim, hl, hi⟩
    · rw [bufOfCode_eq_none h] at hb
      cases hb
    · obtain ⟨hb', rfl⟩ := mem_readLimits_iff.1 hl
      cases hb.symm.trans hb'
      exact hi

/-! ## BLEN (R107) -/

theorem exec_blen_A (hf : s.eng.fault = false) (hn : n ≤ 256) :
    exec (.blen 2 n) s = .next (s.answer .ok 0 { s.eng with lena := n }) := by
  have hchk : execBlen 2 n s = succeed 0 { s with eng := { s.eng with lena := n } } := by
    have hc : decide (n ≤ Buf.A.capacity) = true := decide_eq_true hn
    simp only [execBlen, gate_serving hf, bufOfCode, hc, require_true]
  exact hchk

theorem exec_blen_B (hf : s.eng.fault = false) (hn : n ≤ 256) :
    exec (.blen 3 n) s = .next (s.answer .ok 0 { s.eng with lenb := n }) := by
  have hchk : execBlen 3 n s = succeed 0 { s with eng := { s.eng with lenb := n } } := by
    have hc : decide (n ≤ Buf.B.capacity) = true := decide_eq_true hn
    simp only [execBlen, gate_serving hf, bufOfCode, hc, require_true]
  exact hchk

theorem exec_blen_out_of_range (hf : s.eng.fault = false) (h : (buf ≠ 2 ∧ buf ≠ 3) ∨ 256 < n) :
    exec (.blen buf n) s = .next (s.answer .range 0 s.eng) := by
  have hchk : execBlen buf n s = typedError .range s := by
    rw [execBlen, gate_serving hf]
    split
    next hb =>
      have hbuf : buf = 2 := bufOfCode_eq_some_iff.1 hb
      have hn : ¬ n ≤ Buf.A.capacity := show ¬ n ≤ 256 by omega
      rw [decide_eq_false hn, require_false]
    next hb =>
      have hbuf : buf = 3 := bufOfCode_eq_some_iff.1 hb
      have hn : ¬ n ≤ Buf.B.capacity := show ¬ n ≤ 256 by omega
      rw [decide_eq_false hn, require_false]
    next => rfl
  exact hchk.trans (typedError_eq_answer _ s)

/-- Settles O14, each answer by the buffer its code names and the check of the length. -/
theorem blenSetsTheLength : Obligations.BlenSetsTheLength :=
  ⟨fun buf n hb hn => Laws.RoundTrip.blen buf n (by simp [WellFormed, hb, hn]),
    fun _ _ hf hn => ⟨exec_blen_A hf hn, exec_blen_B hf hn⟩, fun _ _ _ hf h => exec_blen_out_of_range hf h⟩

/-! ## MRD (R108) -/

theorem exec_mrd_of_lt (h : s.Ready) (hr : row < s.eng.width) (hc : col < s.eng.width) :
    exec (.mrd row col) s =
      .next (s.answer .ok (256 * (s.eng.tagAt row col).code + (s.eng.modAt row col).toNat) s.eng) := by
  obtain ⟨hf, hv⟩ := h
  have hchk : execMrd row col s =
      succeed (256 * (s.eng.tagAt row col).code + (s.eng.modAt row col).toNat) s := by
    rw [execMrd, gate_serving hf, needSymbol_some hv, decide_eq_true ⟨hr, hc⟩, require_true]
  exact hchk.trans (succeed_eq_answer _ s)

theorem exec_mrd_out_of_range (h : s.Ready) (ho : ¬ (row < s.eng.width ∧ col < s.eng.width)) :
    exec (.mrd row col) s = .next (s.answer .range 0 s.eng) := by
  obtain ⟨hf, hv⟩ := h
  have hchk : execMrd row col s = typedError .range s := by
    rw [execMrd, gate_serving hf, needSymbol_some hv, decide_eq_false ho, require_false]
  exact hchk.trans (typedError_eq_answer _ s)

/-- The tags in the order of their codes (10_state R35). -/
theorem getElem?_tag_code (t : Tag) :
    ([.free, .finder, .timing, .alignment, .format, .version, .dark] : List Tag)[t.code]? = some t := by
  cases t <;> rfl

/-- Settles O15: a cell inside the grid exists in MOD and in TAG, and MRD answers the two. -/
theorem mrdReadsTheCell : Obligations.MrdReadsTheCell := by
  refine ⟨fun row col hr hc => Laws.RoundTrip.mrd row col ?wellFormed, fun s row col h hg hr hc => ?cell,
    fun s row col h ho => exec_mrd_out_of_range h (by omega), fun s row col hf hv => exec_mrd_of_no_symbol hf hv row col⟩
  case wellFormed => simp [WellFormed, hr, hc]
  case cell =>
    obtain ⟨hmod, htag⟩ := hg
    obtain ⟨dark, hdark⟩ := cellAt_exists hmod hr hc
    obtain ⟨tg, htg⟩ := cellAt_exists htag hr hc
    refine ⟨dark, tg, tg.code, ⟨hdark, htg⟩, getElem?_tag_code tg, ?_⟩
    rw [exec_mrd_of_lt h hr hc, Engine.tagAt, Engine.modAt, hdark, htg]
    cases dark <;> rfl

/-! ## How a command can end (R100, 20_memory R66) -/

theorem draws_le_of_drawBytes {p : UnwrittenRead} {d d' : Nat} {slots : List (Option Byte)} {bs : List Byte}
    (h : drawBytes p d slots = some (bs, d')) : d ≤ d' := by
  induction slots generalizing d bs with
  | nil => cases h; exact Nat.le_refl _
  | cons x slots ih =>
    cases x with
    | some c =>
      simp only [drawBytes] at h
      split at h
      next h' => cases h; exact ih h'
      next => cases h
    | none =>
      cases p with
      | refuse => cases h
      | anyValue =>
        simp only [drawBytes] at h
        split at h
        next h' => cases h; exact Nat.le_of_succ_le (ih h')
        next => cases h

/-- The commands that read bytes which may be unwritten (20_memory R66). -/
def readingCommands : List String := ["BRD", "PMUL", "PREM", "RSENC", "WKRUN"]

/-- `r` is an end of the command `i` begun in `s`: one response, with the waiting inputs and the parameters kept and no draw
undone; or, for a command that reads bytes, the refusal of an unwritten byte under `refuse`. -/
def Ends (i : Instr) (s : State) (r : Result) : Prop :=
  (∃ t x, r = .next t ∧ t.resp = some x ∧ t.input = s.input ∧ t.cfg = s.cfg ∧ s.draws ≤ t.draws) ∨
  (s.cfg.unwritten = .refuse ∧ mnemonicOf i ∈ readingCommands ∧ ∃ b, r = .refused (.unwrittenByte b))

theorem Ends.of_draws {r : Result} {d : Nat} (hd : s.draws ≤ d) (h : Ends i { s with draws := d } r) : Ends i s r := by
  rcases h with ⟨t, x, hr, hx, hi, hc, hle⟩ | h
  · exact .inl ⟨t, x, hr, hx, hi, hc, Nat.le_trans hd hle⟩
  · exact .inr h

theorem respond_ends {err : Err} {val : Word} {e : Engine} : Ends i s (respond err val { s with eng := e }) :=
  .inl ⟨_, _, rfl, rfl, rfl, rfl, Nat.le_refl _⟩

theorem succeed_ends {v : Nat} {e : Engine} : Ends i s (succeed v { s with eng := e }) := respond_ends

theorem typedError_ends {err : Err} : Ends i s (typedError err s) := respond_ends (e := s.eng)

theorem takeOverflow_ends {e : Engine} : Ends i s (takeOverflow { s with eng := e }) := respond_ends

section Checks

variable {k : State → Result} {c : Bool} {err : Err} (h : Ends i s (k s))
include h

theorem gate_ends : Ends i s (gate k s) := by
  unfold gate
  split
  · exact typedError_ends
  · exact h

theorem needSymbol_ends : Ends i s (needSymbol k s) := by
  unfold needSymbol
  split
  · exact typedError_ends
  · exact h

theorem require_ends : Ends i s (require c err k s) := by
  unfold require
  split
  · exact h
  · exact typedError_ends

end Checks

theorem readBytes_ends {lo : Nat} {kb : List Byte → State → Result} (hi : mnemonicOf i ∈ readingCommands)
    (h : ∀ bs d, Ends i { s with draws := d } (kb bs { s with draws := d })) : Ends i s (readBytes b lo n kb s) := by
  unfold readBytes
  split
  next bs d hd => exact (h bs d).of_draws (draws_le_of_drawBytes hd)
  next hd => exact .inr ⟨(drawBytes_none hd).1, hi, b, rfl⟩

theorem gate_succeed_ends {v : Nat} : Ends i s (gate (succeed v) s) := gate_ends (succeed_ends (e := s.eng))

theorem gate_require_succeed_ends {c : Bool} {err : Err} {v : Nat} : Ends i s (gate (require c err (succeed v)) s) :=
  gate_ends (require_ends (succeed_ends (e := s.eng)))

theorem place_ends {ps : State → List Stamp} : Ends i s (place ps s) := gate_ends (needSymbol_ends succeed_ends)

/-! The commands whose definitions branch on a code or on a walk, or read bytes. -/

theorem execBwr_ends {byte : Byte} : Ends i s (execBwr buf idx byte s) := by
  refine gate_ends ?_
  split
  · exact typedError_ends
  · exact require_ends succeed_ends

theorem execBrd_ends : Ends (.brd buf idx) s (execBrd buf idx s) := by
  refine gate_ends ?_
  split
  · exact typedError_ends
  · exact require_ends (readBytes_ends List.mem_cons_self fun _ _ => succeed_ends (e := s.eng))

theorem execBlen_ends : Ends i s (execBlen buf n s) := by
  refine gate_ends ?_
  split
  · exact require_ends succeed_ends
  · exact require_ends succeed_ends
  · exact typedError_ends

theorem execPmul_ends : Ends .pmul s (execPmul s) :=
  have hi : mnemonicOf .pmul ∈ readingCommands := by decide
  gate_ends (require_ends (require_ends (readBytes_ends hi fun _ _ => readBytes_ends hi fun _ _ => succeed_ends)))

theorem execPrem_ends : Ends .prem s (execPrem s) :=
  have hi : mnemonicOf .prem ∈ readingCommands := by decide
  gate_ends (require_ends (readBytes_ends hi fun _ _ => require_ends
    (readBytes_ends hi fun _ _ => readBytes_ends hi fun _ _ => succeed_ends)))

theorem execRsenc_ends : Ends .rsenc s (execRsenc s) :=
  have hi : mnemonicOf .rsenc ∈ readingCommands := by decide
  gate_ends (require_ends (readBytes_ends hi fun _ _ => succeed_ends))

theorem execWkbit_ends {bit : Bool} : Ends i s (execWkbit bit s) := by
  refine gate_ends (needSymbol_ends ?_)
  split
  · exact succeed_ends
  · exact takeOverflow_ends

theorem execWkrun_ends : Ends .wkrun s (execWkrun s) := by
  have hi : mnemonicOf .wkrun ∈ readingCommands := by decide
  refine gate_ends (needSymbol_ends (readBytes_ends hi fun bs d => ?_))
  split
  · exact succeed_ends
  · exact takeOverflow_ends

/-- The end of each command, from the operations its definition is made of. -/
theorem exec_ends (i : Instr) (s : State) : Ends i s (exec i s) := by
  cases i with
  | nop => exact succeed_ends (e := s.eng)
  | reset => exact succeed_ends
  | rdreg n => exact require_ends (succeed_ends (e := s.eng))
  | symnew v lv => exact gate_ends (require_ends succeed_ends)
  | bwr buf idx byte => exact execBwr_ends
  | brd buf idx => exact execBrd_ends
  | blen buf n => exact execBlen_ends
  | mrd row col => exact gate_ends (needSymbol_ends (require_ends (succeed_ends (e := s.eng))))
  | gfadd a b => exact gate_succeed_ends
  | gfmul a b => exact gate_succeed_ends
  | gfdiv a b => exact gate_require_succeed_ends
  | gfexp n => exact gate_succeed_ends
  | gflog n => exact gate_require_succeed_ends
  | genld n => exact gate_ends (require_ends succeed_ends)
  | pmul => exact execPmul_ends
  | prem => exact execPrem_ends
  | rscfg ndata nblk ecpb => exact gate_ends (require_ends (require_ends (require_ends (require_ends succeed_ends))))
  | rsenc => exact execRsenc_ends
  | fmtword lv m => exact gate_succeed_ends
  | verword v => exact gate_succeed_ends
  | plfind => exact place_ends
  | pltime => exact place_ends
  | plalign => exact place_ends
  | plfmt m => exact place_ends
  | plver => exact place_ends
  | pldark => exact place_ends
  | plall => exact place_ends
  | cntnone => exact gate_ends (needSymbol_ends (succeed_ends (e := s.eng)))
  | avail => exact gate_ends (needSymbol_ends (succeed_ends (e := s.eng)))
  | wkrst => exact gate_ends (needSymbol_ends succeed_ends)
  | wkbit bit => exact execWkbit_ends
  | wkrun => exact execWkrun_ends
  | mskapp m => exact gate_ends (needSymbol_ends succeed_ends)
  | penalty => exact gate_ends (needSymbol_ends succeed_ends)
  | msksel => exact gate_ends (needSymbol_ends succeed_ends)

/-- Settles O56: `Ends` of every command. -/
theorem everyCommandAnswersOnce : Obligations.EveryCommandAnswersOnce := exec_ends

end Sys2Proof.Machine
end

section
/-! PROOFS of 41_gf_scalar. Every nonzero byte is a power of 2 (`power`), and the product of powers adds their exponents
modulo 255; the laws of the product follow. Doubling is linear and is the product by 2, so the product by a power of 2 is
an iterated doubling, which shift-and-add is as well (R120, R122): the two agree, and the product is linear. The
properties of GEN follow from its construction (R142), since Horner's value of a product is the product of the values. -/

namespace Sys2Proof.Machine

variable {s : State}

/-! ## Exclusive or with the zero byte: the library's lemmas at the numeral `0`, the model's spelling -/

theorem zero_xor_byte (x : Byte) : 0 ^^^ x = x := BitVec.zero_xor

theorem xor_zero_byte (x : Byte) : x ^^^ 0 = x := BitVec.xor_zero

/-! ## The printed tables (R124, R125) -/

/-- The byte form of `doubling` (R124): a shift, reduced when a bit is lost. -/
def double (x : Byte) : Byte := x <<< 1 ^^^ if x.msb then 0x1D else 0

theorem double_toNat : ∀ x : Byte, (double x).toNat = doubling x.toNat := by decide +kernel

theorem expTable_succ : ∀ i < 255, expTable (i + 1) = double (expTable i) := by decide +kernel

theorem logTable_expTable : ∀ i < 255, logTable (expTable i) = i := by decide +kernel

theorem expTable_logTable : ∀ x : Byte, x ≠ 0 → expTable (logTable x) = x := by decide +kernel

theorem expTable_ne_zero : ∀ i < 255, expTable i ≠ 0 := by decide +kernel

theorem logTable_lt : ∀ x : Byte, logTable x < 255 := by decide +kernel

theorem expTable_255 : expTable 255 = 1 := rfl

theorem expTable_toNat {i : Nat} (h : i ≤ 255) : (expTable i).toNat = doublings i := by
  induction i with
  | zero => rfl
  | succ i ih => rw [expTable_succ i h, double_toNat, ih (Nat.le_of_succ_le h), doublings]

/-! ## Powers of 2 in the field -/

/-- The power of 2 with exponent `n`, an exponent counting modulo 255. -/
def power (n : Nat) : Byte := expTable (n % 255)

theorem power_of_lt {n : Nat} (h : n < 255) : power n = expTable n := by rw [power, Nat.mod_eq_of_lt h]

theorem power_add_255 (n : Nat) : power (n + 255) = power n := by rw [power, Nat.add_mod_right, power]

theorem power_zero : power 0 = 1 := rfl

theorem power_ne_zero (n : Nat) : power n ≠ 0 := expTable_ne_zero _ (Nat.mod_lt n (by decide))

theorem power_logTable {x : Byte} (h : x ≠ 0) : power (logTable x) = x := by
  rw [power_of_lt (logTable_lt x), expTable_logTable x h]

theorem logTable_power (n : Nat) : logTable (power n) = n % 255 := logTable_expTable _ (Nat.mod_lt n (by decide))

theorem expTable_eq_power {n : Nat} (h : n ≤ 255) : expTable n = power n := by
  rcases Nat.lt_or_eq_of_le h with h | rfl
  · exact (power_of_lt h).symm
  · rfl

theorem exists_power {x : Byte} (h : x ≠ 0) : ∃ n, n < 255 ∧ x = power n :=
  ⟨logTable x, logTable_lt x, (power_logTable h).symm⟩

/-! ## Product and quotient of powers (R127, R128) -/

theorem gfmul_power (m n : Nat) : gfmul (power m) (power n) = power (m + n) := by
  rw [gfmul, if_neg (not_or.2 ⟨power_ne_zero m, power_ne_zero n⟩), logTable_power, logTable_power, ← Nat.add_mod, power]

theorem gfdiv_of_ne_zero {a : Byte} (h : a ≠ 0) (b : Byte) : gfdiv a b = power (logTable a + 255 - logTable b) := by
  rw [gfdiv, if_neg h, power]

theorem zero_gfmul (b : Byte) : gfmul 0 b = 0 := if_pos (.inl rfl)

theorem gfmul_zero (a : Byte) : gfmul a 0 = 0 := if_pos (.inr rfl)

theorem gfmul_comm (a b : Byte) : gfmul a b = gfmul b a := by
  simp only [gfmul, Nat.add_comm (logTable a), or_comm (a := a = 0)]

theorem gfmul_one (a : Byte) : gfmul a 1 = a := by
  by_cases ha : a = 0
  · rw [ha, zero_gfmul]
  · obtain ⟨m, -, rfl⟩ := exists_power ha
    rw [← power_zero, gfmul_power, Nat.add_zero]

theorem one_gfmul (a : Byte) : gfmul 1 a = a := by rw [gfmul_comm, gfmul_one]

theorem gfmul_assoc (a b c : Byte) : gfmul (gfmul a b) c = gfmul a (gfmul b c) := by
  by_cases ha : a = 0
  · simp only [ha, zero_gfmul]
  by_cases hb : b = 0
  · simp only [hb, zero_gfmul, gfmul_zero]
  by_cases hc : c = 0
  · simp only [hc, gfmul_zero]
  obtain ⟨l, -, rfl⟩ := exists_power ha
  obtain ⟨m, -, rfl⟩ := exists_power hb
  obtain ⟨n, -, rfl⟩ := exists_power hc
  simp only [gfmul_power, Nat.add_assoc]

theorem gfmul_right_comm (a b c : Byte) : gfmul (gfmul a b) c = gfmul (gfmul a c) b := by
  rw [gfmul_assoc, gfmul_comm b, gfmul_assoc]

theorem gfdiv_self {a : Byte} (h : a ≠ 0) : gfdiv a a = 1 := by
  rw [gfdiv_of_ne_zero h, Nat.add_sub_cancel_left]
  rfl

theorem gfmul_gfdiv_cancel (a : Byte) {b : Byte} (hb : b ≠ 0) : gfmul (gfdiv a b) b = a := by
  by_cases ha : a = 0
  · rw [gfdiv, if_pos ha, zero_gfmul, ha]
  have hle : logTable b ≤ logTable a + 255 := by have := logTable_lt b; omega
  calc gfmul (gfdiv a b) b
    _ = gfmul (power (logTable a + 255 - logTable b)) (power (logTable b)) := by
      rw [gfdiv_of_ne_zero ha, power_logTable hb]
    _ = power (logTable a + 255) := by rw [gfmul_power, Nat.sub_add_cancel hle]
    _ = a := by rw [power_add_255, power_logTable ha]

/-! ## The product is shift-and-add (R120, R122) -/

theorem gfmul_two : ∀ x : Byte, gfmul x 2 = double x := by decide +kernel

theorem power_succ (n : Nat) : power (n + 1) = double (power n) := by
  rw [← gfmul_power, ← gfmul_two]
  rfl

theorem double_xor (x y : Byte) : double (x ^^^ y) = double x ^^^ double y := by
  simp only [double, BitVec.shiftLeft_xor_distrib, BitVec.msb_xor]
  have hred : (if (x.msb ^^ y.msb) = true then 0x1D else 0 : Byte) =
      (if x.msb = true then 0x1D else 0) ^^^ if y.msb = true then 0x1D else 0 := by
    cases x.msb <;> cases y.msb <;> rfl
  rw [hred]
  ac_rfl

theorem double_zero : double 0 = 0 := rfl

theorem gfmul_double (x b : Byte) : gfmul (double x) b = double (gfmul x b) := by
  rw [← gfmul_two, ← gfmul_two, gfmul_right_comm]

/-- `shiftAdd` with bytes for its multiplicand and its value. -/
def byteShiftAdd (x : Byte) (n b : Nat) : Byte :=
  match n with
  | 0 => 0
  | n + 1 => (if b % 2 = 1 then x else 0) ^^^ byteShiftAdd (double x) n (b / 2)

theorem byteShiftAdd_toNat (x : Byte) (n b : Nat) : (byteShiftAdd x n b).toNat = shiftAdd x.toNat n b := by
  induction n generalizing x b with
  | zero => rfl
  | succ n ih =>
    rw [byteShiftAdd, shiftAdd, BitVec.toNat_xor, ih, double_toNat, apply_ite BitVec.toNat]
    rfl

theorem zero_byteShiftAdd (n b : Nat) : byteShiftAdd 0 n b = 0 := by
  induction n generalizing b with
  | zero => rfl
  | succ n ih =>
    rw [byteShiftAdd, ite_self, double_zero, ih]
    rfl

/-- The multiplicand 1 reassembles the multiplier from its bits. -/
theorem one_byteShiftAdd : ∀ b : Byte, byteShiftAdd 1 8 b.toNat = b := by decide +kernel

theorem byteShiftAdd_double (x : Byte) (n b : Nat) : byteShiftAdd (double x) n b = double (byteShiftAdd x n b) := by
  induction n generalizing x b with
  | zero => exact double_zero.symm
  | succ n ih => rw [byteShiftAdd, byteShiftAdd, double_xor, ih, apply_ite double, double_zero]

theorem byteShiftAdd_xor (x : Byte) (n b c : Nat) :
    byteShiftAdd x n (b ^^^ c) = byteShiftAdd x n b ^^^ byteShiftAdd x n c := by
  induction n generalizing x b c with
  | zero => exact (xor_zero_byte 0).symm
  | succ n ih =>
    have hbit : (if (b ^^^ c) % 2 = 1 then x else 0) = (if b % 2 = 1 then x else 0) ^^^ if c % 2 = 1 then x else 0 := by
      simp only [Nat.xor_mod_two_eq_one]
      by_cases hb : b % 2 = 1 <;> by_cases hc : c % 2 = 1 <;> simp [hb, hc]
    simp only [byteShiftAdd, Nat.xor_div_two, ih, hbit]
    ac_rfl

theorem power_gfmul_eq_byteShiftAdd (n : Nat) (b : Byte) :
    gfmul (power n) b = byteShiftAdd (power n) 8 b.toNat := by
  induction n with
  | zero => rw [power_zero, one_gfmul, one_byteShiftAdd]
  | succ n ih => rw [power_succ, gfmul_double, ih, byteShiftAdd_double]

theorem gfmul_eq_byteShiftAdd (a b : Byte) : gfmul a b = byteShiftAdd a 8 b.toNat := by
  by_cases ha : a = 0
  · rw [ha, zero_gfmul, zero_byteShiftAdd]
  · obtain ⟨n, -, rfl⟩ := exists_power ha
    exact power_gfmul_eq_byteShiftAdd n b

theorem gfmul_xor (a b c : Byte) : gfmul a (b ^^^ c) = gfmul a b ^^^ gfmul a c := by
  simp only [gfmul_eq_byteShiftAdd, BitVec.toNat_xor, byteShiftAdd_xor]

theorem xor_gfmul (a b c : Byte) : gfmul (a ^^^ b) c = gfmul a c ^^^ gfmul b c := by
  simp only [gfmul_comm _ c, gfmul_xor]

/-! ## The answers of the scalar commands -/

theorem exec_gfadd (hf : s.eng.fault = false) (a b : Byte) :
    exec (.gfadd a b) s = .next (s.answer .ok (gfadd a b).toNat s.eng) :=
  (gate_serving hf).trans (succeed_eq_answer _ s)

theorem exec_gfmul (hf : s.eng.fault = false) (a b : Byte) :
    exec (.gfmul a b) s = .next (s.answer .ok (gfmul a b).toNat s.eng) :=
  (gate_serving hf).trans (succeed_eq_answer _ s)

theorem exec_gfexp (hf : s.eng.fault = false) (n : Nat) :
    exec (.gfexp n) s = .next (s.answer .ok (expTable n).toNat s.eng) :=
  (gate_serving hf).trans (succeed_eq_answer _ s)

theorem exec_gfdiv (hf : s.eng.fault = false) (a : Byte) {b : Byte} (hb : b ≠ 0) :
    exec (.gfdiv a b) s = .next (s.answer .ok (gfdiv a b).toNat s.eng) := by
  have hchk : execGfdiv a b s = succeed (gfdiv a b).toNat s := by
    rw [execGfdiv, gate_serving hf, decide_eq_true hb, require_true]
  exact hchk.trans (succeed_eq_answer _ s)

theorem exec_gfdiv_zero (hf : s.eng.fault = false) (a : Byte) :
    exec (.gfdiv a 0) s = .next (s.answer .divZero 0 s.eng) :=
  (gate_serving hf).trans (typedError_eq_answer _ s)

theorem exec_gflog (hf : s.eng.fault = false) {n : Byte} (hn : n ≠ 0) :
    exec (.gflog n) s = .next (s.answer .ok (logTable n) s.eng) := by
  have hchk : execGflog n s = succeed (logTable n) s := by
    rw [execGflog, gate_serving hf, decide_eq_true hn, require_true]
  exact hchk.trans (succeed_eq_answer _ s)

theorem exec_gflog_zero (hf : s.eng.fault = false) :
    exec (.gflog 0) s = .next (s.answer .divZero 0 s.eng) :=
  (gate_serving hf).trans (typedError_eq_answer _ s)

/-- Settles O16: EXP holds the doublings, and EXP and LOG are inverse on the nonzero bytes. -/
theorem gfaddGfexpGflog : Obligations.GfaddGfexpGflog := by
  refine ⟨fun a b => Laws.RoundTrip.gfadd a b rfl, fun n hn => Laws.RoundTrip.gfexp n (decide_eq_true hn),
    fun n => Laws.RoundTrip.gflog n rfl,
    fun s hf => ⟨exec_gfadd hf, fun n hn => ?exp, fun n k hk hn => ?log, fun n hn => ?onto, exec_gflog_zero hf⟩⟩
  case exp =>
    have hmod : n % 255 ≤ 255 := (Nat.mod_lt n (by decide)).le
    rw [exec_gfexp hf, expTable_eq_power hn, power, expTable_toNat hmod]
  case log =>
    have hk' : k < 255 := Nat.lt_succ_of_le hk
    obtain rfl : n = expTable k := BitVec.eq_of_toNat_eq (hn.trans (expTable_toNat hk'.le).symm)
    rw [exec_gflog hf (expTable_ne_zero k hk'), logTable_expTable k hk']
  case onto =>
    have hlt := logTable_lt n
    refine ⟨logTable n, Nat.le_of_lt_succ hlt, ?_⟩
    rw [← expTable_toNat hlt.le, expTable_logTable n hn]

/-- Settles O17: the laws from the exponents of powers of 2, distributivity from shift-and-add. -/
theorem gfmulGfdivFieldLaws : Obligations.GfmulGfdivFieldLaws := by
  refine ⟨fun a b => Laws.RoundTrip.gfmul a b rfl, fun a b => Laws.RoundTrip.gfdiv a b rfl,
    fun s a b hf => ⟨?product, fun hb => ?quotient, exec_gfdiv_zero hf a⟩,
    fun a b c => ⟨gfmul_comm a b, gfmul_assoc a b c, gfmul_xor a b c, gfmul_one a, gfdiv_self, gfmul_gfdiv_cancel a⟩,
    fun a b => ?shiftAdd⟩
  case product =>
    rw [exec_gfmul hf, gfmul, apply_ite BitVec.toNat]
    rfl
  case quotient =>
    rw [exec_gfdiv hf a hb, gfdiv, apply_ite BitVec.toNat]
    rfl
  case shiftAdd => rw [gfmul_eq_byteShiftAdd, byteShiftAdd_toNat]

/-! ## Horner's rule on products (42_polynomial R144, R146) -/

/-- Horner's rule begun with the value `c` instead of 0. -/
def hornerFrom (x c : Byte) (p : List Byte) : Byte := p.foldl (fun acc a => gfadd (gfmul acc x) a) c

theorem evalAt_eq_hornerFrom (p : List Byte) (x : Byte) : evalAt p x = hornerFrom x 0 p := rfl

@[simp] theorem hornerFrom_nil (x c : Byte) : hornerFrom x c [] = c := rfl

@[simp] theorem hornerFrom_cons (x c a : Byte) (p : List Byte) :
    hornerFrom x c (a :: p) = hornerFrom x (gfmul c x ^^^ a) p := rfl

theorem hornerFrom_append (x c : Byte) (p q : List Byte) :
    hornerFrom x c (p ++ q) = hornerFrom x (hornerFrom x c p) q := List.foldl_append

theorem evalAt_cons (a x : Byte) (p : List Byte) : evalAt (a :: p) x = hornerFrom x a p := by
  rw [evalAt_eq_hornerFrom, hornerFrom_cons, zero_gfmul, zero_xor_byte]

theorem hornerFrom_xorOnto (x c d : Byte) {p q : List Byte} (h : p.length = q.length) :
    hornerFrom x (c ^^^ d) (xorOnto p q) = hornerFrom x c p ^^^ hornerFrom x d q := by
  induction p generalizing q c d with
  | nil =>
    obtain rfl := List.length_eq_zero_iff.1 h.symm
    rfl
  | cons a p ih =>
    cases q with
    | nil => cases h
    | cons b q =>
      have hcoeff : gfmul (c ^^^ d) x ^^^ gfadd a b = (gfmul c x ^^^ a) ^^^ (gfmul d x ^^^ b) := by
        rw [xor_gfmul, gfadd]
        ac_rfl
      rw [xorOnto, hornerFrom_cons, hcoeff, ih _ _ (Nat.succ.inj h), hornerFrom_cons, hornerFrom_cons]

theorem evalAt_xorOnto (x : Byte) {p q : List Byte} (h : p.length = q.length) :
    evalAt (xorOnto p q) x = evalAt p x ^^^ evalAt q x := hornerFrom_xorOnto x 0 0 h

theorem hornerFrom_scale (x c f : Byte) (p : List Byte) :
    hornerFrom x (gfmul c f) (scale f p) = gfmul (hornerFrom x c p) f := by
  induction p generalizing c with
  | nil => rfl
  | cons a p ih =>
    have hcoeff : gfmul (gfmul c f) x ^^^ gfmul a f = gfmul (gfmul c x ^^^ a) f := by
      rw [xor_gfmul, gfmul_right_comm]
    rw [hornerFrom_cons, ← ih, ← hcoeff]
    rfl

theorem evalAt_scale (f x : Byte) (p : List Byte) : evalAt (scale f p) x = gfmul (evalAt p x) f := by
  rw [evalAt_eq_hornerFrom, evalAt_eq_hornerFrom, ← hornerFrom_scale, zero_gfmul]

theorem hornerFrom_gfmul_zeros (x c f : Byte) (n : Nat) :
    hornerFrom x (gfmul c f) (List.replicate n 0) = gfmul c (hornerFrom x f (List.replicate n 0)) := by
  have hzeros : scale c (List.replicate n 0) = List.replicate n 0 := by
    rw [scale, List.map_replicate, zero_gfmul]
  rw [gfmul_comm c f, gfmul_comm c, ← hornerFrom_scale, hzeros]

/-- The starting value and the coefficients contribute separately. -/
theorem hornerFrom_eq (x c : Byte) (p : List Byte) :
    hornerFrom x c p = hornerFrom x c (List.replicate p.length 0) ^^^ evalAt p x := by
  have hxor : xorOnto (List.replicate p.length 0) p = p := by
    induction p with
    | nil => rfl
    | cons a p ih => rw [List.length_cons, List.replicate_succ, xorOnto, ih, gfadd, zero_xor_byte]
  calc hornerFrom x c p
    _ = hornerFrom x (c ^^^ 0) (xorOnto (List.replicate p.length 0) p) := by rw [hxor, xor_zero_byte]
    _ = _ := hornerFrom_xorOnto x c 0 (List.length_replicate ..)

theorem polymul_cons_cons (a b : Byte) (p q : List Byte) : polymul (a :: b :: p) q =
    xorOnto (scale a q ++ List.replicate (b :: p).length 0) (0 :: polymul (b :: p) q) := rfl

theorem evalAt_polymul (p q : List Byte) (x : Byte) : evalAt (polymul p q) x = gfmul (evalAt p x) (evalAt q x) := by
  induction p with
  | nil => exact (zero_gfmul _).symm
  | cons a p ih =>
    cases p with
    | nil => rw [polymul, evalAt_scale, gfmul_comm, evalAt_cons, hornerFrom_nil]
    | cons b p =>
      have hlen : (scale a q ++ List.replicate (b :: p).length 0).length = (0 :: polymul (b :: p) q).length := by
        have := polymul_length (b :: p) q (List.cons_ne_nil b p)
        simp only [List.length_append, scale_length, List.length_replicate, List.length_cons] at this ⊢
        omega
      have hlead : evalAt (scale a q ++ List.replicate (b :: p).length 0) x =
          gfmul (evalAt q x) (hornerFrom x a (List.replicate (b :: p).length 0)) := by
        rw [evalAt_eq_hornerFrom, hornerFrom_append, ← evalAt_eq_hornerFrom, evalAt_scale, hornerFrom_gfmul_zeros]
      have hrest : evalAt (0 :: polymul (b :: p) q) x = gfmul (evalAt (b :: p) x) (evalAt q x) :=
        (evalAt_cons ..).trans ih
      rw [polymul_cons_cons, evalAt_xorOnto x hlen, hlead, hrest, evalAt_cons a, hornerFrom_eq x a (b :: p), xor_gfmul,
        gfmul_comm (evalAt q x)]

/-- The value at 0 is the constant term. -/
theorem evalAt_zero_concat (p : List Byte) (a : Byte) : evalAt (p ++ [a]) 0 = a := by
  rw [evalAt_eq_hornerFrom, hornerFrom_append, hornerFrom_cons, gfmul_zero, hornerFrom_nil, zero_xor_byte]

theorem head?_polymul (a b : Byte) (p q : List Byte) : (polymul (a :: p) (b :: q)).head? = some (gfmul a b) := by
  cases p with
  | nil => simp [polymul, scale, gfmul_comm a]
  | cons c p => simp [polymul_cons_cons, scale, xorOnto, gfadd, gfmul_comm a]

/-! ## The generator table (42_polynomial R142, R146) -/

theorem genTable_zero : genTable 0 = [1] := rfl

theorem genTable_succ : ∀ k < 30, genTable (k + 1) = polymul (genTable k) [1, expTable k] := by decide +kernel

/-- A further factor: the value at `x` is multiplied by `x - EXP[k]`. -/
theorem evalAt_genTable_succ {k : Nat} (h : k < 30) (x : Byte) :
    evalAt (genTable (k + 1)) x = gfmul (evalAt (genTable k) x) (x ^^^ expTable k) := by
  have hfactor : evalAt [1, expTable k] x = x ^^^ expTable k := by
    rw [evalAt_cons, hornerFrom_cons, one_gfmul, hornerFrom_nil]
  rw [genTable_succ k h, evalAt_polymul, hfactor]

theorem head?_genTable {k : Nat} (h : k ≤ 30) : (genTable k).head? = some 1 := by
  induction k with
  | zero => rfl
  | succ k ih =>
    obtain ⟨p, hp⟩ := List.head?_eq_some_iff.1 (ih (Nat.le_of_succ_le h))
    rw [genTable_succ k h, hp, head?_polymul, gfmul_one]

theorem evalAt_genTable_expTable {k i : Nat} (h : k ≤ 30) (hi : i < k) : evalAt (genTable k) (expTable i) = 0 := by
  induction k with
  | zero => cases hi
  | succ k ih =>
    rw [evalAt_genTable_succ h]
    rcases Nat.lt_succ_iff_lt_or_eq.1 hi with hi | rfl
    · rw [ih (Nat.le_of_succ_le h) hi, zero_gfmul]
    · rw [BitVec.xor_self]
      exact gfmul_zero _

/-- The constant term is the product of the roots. -/
theorem evalAt_genTable_zero {k : Nat} (h : k ≤ 30) : evalAt (genTable k) 0 = power (List.range k).sum := by
  induction k with
  | zero => rfl
  | succ k ih =>
    have hroot : expTable k = power k := expTable_eq_power (by omega)
    rw [evalAt_genTable_succ h, ih (Nat.le_of_succ_le h), zero_xor_byte, hroot, gfmul_power, List.range_succ,
      List.sum_append, List.sum_singleton]

theorem getElem?_genTable_last {k : Nat} (h : k ≤ 30) : (genTable k)[k]? = some (power (List.range k).sum) := by
  have hlen : (genTable k).length = k + 1 := genTable_length h
  obtain ⟨p, a, hp⟩ := (List.eq_nil_or_concat' (genTable k)).resolve_left fun h' => by simp [h'] at hlen
  obtain rfl : p.length = k := by simpa [hp] using hlen
  rw [← evalAt_genTable_zero h, hp, evalAt_zero_concat, List.getElem?_concat_length]

/-- Settles O18: the tables by evaluation of their construction, the properties of GEN by induction on the construction. -/
theorem constantTables : Obligations.ConstantTables :=
  ⟨fun i hi => ⟨expTable_toNat hi.le, logTable_expTable i hi, expTable_ne_zero i hi,
      (expTable_succ i hi).trans (gfmul_two _).symm⟩,
    expTable_255,
    fun x hx h0 => expTable_logTable _ (by simpa [← BitVec.toNat_inj, Nat.mod_eq_of_lt hx] using h0),
    genTable_zero, genTable_succ,
    fun _ hk => ⟨genTable_length hk, head?_genTable hk, fun _ => evalAt_genTable_expTable hk,
      getElem?_genTable_last hk⟩⟩

end Sys2Proof.Machine
end

section
/-! PROOFS of 42_polynomial. Coefficients are read by `getD`, 0 beyond the end, so that `xorOnto` is addition of
coefficients; the recursion of the product then gives its coefficients. A dividend is put together from a quotient and a
remainder by `recombine`; elimination takes the quotient off again, one coefficient at a time, which gives existence and
uniqueness of the remainder (R147) and its value at the roots of the divisor (43_rs_bch R164). -/

namespace Sys2Proof.Machine

variable {s : State} {p q : List Byte}

/-! ## Addition of coefficients -/

@[simp] theorem xorOnto_nil (xs : List Byte) : xorOnto xs [] = xs := by cases xs <;> rfl

@[simp] theorem xorOnto_cons_cons (x y : Byte) (xs ys : List Byte) :
    xorOnto (x :: xs) (y :: ys) = (x ^^^ y) :: xorOnto xs ys := rfl

theorem getElem?_xorOnto (xs ys : List Byte) (i : Nat) :
    (xorOnto xs ys)[i]? = xs[i]?.map (fun x => x ^^^ ys.getD i 0) := by
  induction xs generalizing ys i with
  | nil => cases ys <;> rfl
  | cons x xs ih =>
    cases ys with
    | nil => simp
    | cons y ys => cases i <;> simp [ih]

theorem getD_xorOnto {xs ys : List Byte} (h : ys.length ≤ xs.length) (i : Nat) :
    (xorOnto xs ys).getD i 0 = xs.getD i 0 ^^^ ys.getD i 0 := by
  rw [List.getD_eq_getElem?_getD, getElem?_xorOnto, List.getD_eq_getElem?_getD]
  by_cases hi : i < xs.length
  · simp [hi]
  · simp [Nat.le_of_not_lt hi, Nat.le_trans h (Nat.le_of_not_lt hi)]

theorem xorOnto_right_comm (xs ys zs : List Byte) : xorOnto (xorOnto xs ys) zs = xorOnto (xorOnto xs zs) ys := by
  refine List.ext_getElem? fun i => ?_
  cases h : xs[i]? with
  | none => simp [getElem?_xorOnto, h]
  | some x =>
    simp only [getElem?_xorOnto, h, Option.map_some]
    ac_rfl

theorem xorOnto_xorOnto_cancel (xs ys : List Byte) : xorOnto (xorOnto xs ys) ys = xs := by
  refine List.ext_getElem? fun i => ?_
  cases h : xs[i]? with
  | none => simp [getElem?_xorOnto, h]
  | some x => simp [getElem?_xorOnto, h]

theorem xorOnto_assoc (xs : List Byte) {ys zs : List Byte} (h : zs.length ≤ ys.length) :
    xorOnto xs (xorOnto ys zs) = xorOnto (xorOnto xs ys) zs := by
  refine List.ext_getElem? fun i => ?_
  simp only [getElem?_xorOnto, getD_xorOnto h, Option.map_map, Function.comp_def, BitVec.xor_assoc]

theorem getD_append_zeros (xs : List Byte) (n i : Nat) : (xs ++ List.replicate n 0).getD i 0 = xs.getD i 0 := by
  rcases Nat.lt_or_ge i xs.length with hi | hi
  · exact List.getD_append _ _ _ _ hi
  · rw [List.getD_append_right _ _ _ _ hi, List.getD_eq_default xs _ hi, List.getD_eq_getElem?_getD,
      List.getElem?_getD_replicate_default_eq]

theorem xorOnto_append_zeros (xs ys : List Byte) (n : Nat) : xorOnto xs (ys ++ List.replicate n 0) = xorOnto xs ys := by
  refine List.ext_getElem? fun i => ?_
  rw [getElem?_xorOnto, getElem?_xorOnto, getD_append_zeros]

theorem xorOnto_zeros (xs : List Byte) (n : Nat) : xorOnto xs (List.replicate n 0) = xs :=
  (xorOnto_append_zeros xs [] n).trans (xorOnto_nil xs)

theorem xorLists_eq_xorOnto {xs ys : List Byte} (h : xs.length = ys.length) : xorLists xs ys = xorOnto ys xs := by
  induction xs generalizing ys with
  | nil => rw [List.length_eq_zero_iff.1 h.symm]; rfl
  | cons x xs ih =>
    cases ys with
    | nil => cases h
    | cons y ys =>
      rw [xorOnto_cons_cons, ← ih (Nat.succ.inj h), BitVec.xor_comm]
      rfl

/-! ## Coefficients of a product (R144) -/

theorem getD_scale (f : Byte) (d : List Byte) (i : Nat) : (scale f d).getD i 0 = gfmul (d.getD i 0) f := by
  calc (scale f d).getD i 0
    _ = (d.map fun x => gfmul x f).getD i (gfmul 0 f) := by rw [zero_gfmul, scale]
    _ = gfmul (d.getD i 0) f := List.getD_map ..

/-- The recursion of the product, for one coefficient as for more. -/
theorem polymul_cons (a : Byte) (p q : List Byte) :
    polymul (a :: p) q = xorOnto (scale a q ++ List.replicate p.length 0) (0 :: polymul p q) := by
  cases p with
  | nil => exact (xorOnto_zeros (scale a q ++ []) 1).trans (List.append_nil _) |>.symm
  | cons b p => rfl

theorem polymul_length_le (p : List Byte) (c : Byte) (d : List Byte) :
    (polymul p (c :: d)).length ≤ p.length + d.length := by
  cases p with
  | nil => simp [polymul]
  | cons a p => rw [polymul_length _ _ (List.cons_ne_nil a p)]; simp

/-- The summand of index `i` of the coefficient `t`: 0 beyond the end of either factor. -/
def productTerm (p q : List Byte) (t i : Nat) : Byte := if i ≤ t then gfmul (p.getD i 0) (q.getD (t - i) 0) else 0

theorem productCoeff_eq_foldl_map (p q : List Byte) (t : Nat) :
    productCoeff p q t = ((List.range p.length).map (productTerm p q t)).foldl (· ^^^ ·) 0 := by
  rw [List.foldl_map, productCoeff]
  refine List.foldl_ext _ _ _ fun acc i _ => ?_
  by_cases hi : i ≤ t
  · by_cases hq : t - i < q.length
    · rw [if_pos ⟨hi, hq⟩, productTerm, if_pos hi]
    · rw [if_neg fun h => hq h.2, productTerm, if_pos hi, List.getD_eq_default _ _ (Nat.le_of_not_lt hq), gfmul_zero,
        xor_zero_byte]
  · rw [if_neg fun h => hi h.1, productTerm, if_neg hi, xor_zero_byte]

/-- The first summand apart from the others. -/
theorem productCoeff_cons (a : Byte) (p q : List Byte) (t : Nat) : productCoeff (a :: p) q t =
    gfmul a (q.getD t 0) ^^^
      ((List.range p.length).map fun i => productTerm (a :: p) q t (i + 1)).foldl (· ^^^ ·) 0 := by
  rw [productCoeff_eq_foldl_map, List.length_cons, List.range_succ_eq_map, List.map_cons, List.foldl_cons,
    BitVec.xor_comm 0, List.foldl_assoc, List.map_map]
  rfl

theorem productCoeff_cons_zero (a : Byte) (p q : List Byte) : productCoeff (a :: p) q 0 = gfmul a (q.getD 0 0) := by
  have hnone : ∀ i, productTerm (a :: p) q 0 (i + 1) = 0 := fun i => if_neg (by omega)
  have hzeros : ∀ n, (List.replicate n (0 : Byte)).foldl (· ^^^ ·) 0 = 0 := fun n => by
    induction n with
    | zero => rfl
    | succ n ih => rw [List.replicate_succ, List.foldl_cons, xor_zero_byte, ih]
  simp only [productCoeff_cons, hnone, List.map_const', hzeros, xor_zero_byte]

theorem productCoeff_cons_succ (a : Byte) (p q : List Byte) (t : Nat) :
    productCoeff (a :: p) q (t + 1) = gfmul a (q.getD (t + 1) 0) ^^^ productCoeff p q t := by
  have hterm : ∀ i, productTerm (a :: p) q (t + 1) (i + 1) = productTerm p q t i := fun i => by
    simp only [productTerm, Nat.add_le_add_iff_right, List.getD_cons_succ, Nat.add_sub_add_right]
  simp only [productCoeff_cons, productCoeff_eq_foldl_map p, hterm]

theorem getD_polymul (p : List Byte) (b : Byte) (q : List Byte) (t : Nat) :
    (polymul p (b :: q)).getD t 0 = productCoeff p (b :: q) t := by
  induction p generalizing t with
  | nil => rfl
  | cons a p ih =>
    have hlen : (0 :: polymul p (b :: q)).length ≤ (scale a (b :: q) ++ List.replicate p.length 0).length := by
      have := polymul_length_le p b q
      simp only [List.length_cons, List.length_append, scale_length, List.length_replicate]
      omega
    have hlead : (scale a (b :: q) ++ List.replicate p.length 0).getD t 0 = gfmul a ((b :: q).getD t 0) := by
      rw [getD_append_zeros, getD_scale, gfmul_comm]
    rw [polymul_cons, getD_xorOnto hlen, hlead]
    cases t with
    | zero => rw [productCoeff_cons_zero, List.getD_cons_zero (x := 0), xor_zero_byte]
    | succ t => rw [productCoeff_cons_succ, List.getD_cons_succ (x := 0), ih]

/-- Settles O20: the coefficients by the recursion of the product (`getD_polymul`). -/
theorem polymulCoefficients : Obligations.PolymulCoefficients := by
  intro p q hp hq
  obtain ⟨b, q, rfl⟩ := List.exists_cons_of_ne_nil hq
  have hlen := polymul_length p (b :: q) hp
  refine ⟨hlen, fun t ht => ?_⟩
  have ht' : t < (polymul p (b :: q)).length := by rwa [hlen]
  rw [← getD_polymul, List.getD_eq_getElem _ _ ht', List.getElem?_eq_getElem ht']

/-! ## Dividends from quotients and remainders (R147) -/

/-- The leading coefficient of the product, and the rest as a shorter product to which a multiple of the rest of the
other factor is added. -/
theorem polymul_cons_cons_right (a c : Byte) (p d : List Byte) : polymul (a :: p) (c :: d) =
    gfmul c a :: xorOnto (scale a d ++ List.replicate p.length 0) (polymul p (c :: d)) := by
  rw [polymul_cons, scale, List.map_cons, List.cons_append, xorOnto_cons_cons, xor_zero_byte]
  rfl

/-- `q d + r`, with `r` at the low-power end. -/
def recombine (q d r : List Byte) : List Byte := xorOnto (List.replicate q.length 0 ++ r) (polymul q d)

theorem recombine_nil (d r : List Byte) : recombine [] d r = r := xorOnto_nil r

/-- A further leading coefficient of the quotient adds a multiple of the divisor at the front. -/
theorem recombine_cons (a : Byte) (q : List Byte) (c : Byte) (d r : List Byte) :
    recombine (a :: q) (c :: d) r = gfmul c a :: xorOnto (recombine q (c :: d) r) (scale a d) := by
  have hlen : (polymul q (c :: d)).length ≤ (scale a d ++ List.replicate q.length 0).length := by
    have := polymul_length_le q c d
    simp only [List.length_append, scale_length, List.length_replicate]
    omega
  rw [recombine, polymul_cons_cons_right, List.length_cons, List.replicate_succ, List.cons_append, xorOnto_cons_cons,
    zero_xor_byte, xorOnto_assoc _ hlen, xorOnto_append_zeros, xorOnto_right_comm, recombine]

/-- With a remainder shorter than the divisor by 1 the two summands of `recombine` have one length. -/
theorem polymul_length_eq_aligned {d r : List Byte} (hq : q ≠ []) (hd : d ≠ []) (hr : r.length = d.length - 1) :
    (polymul q d).length = (List.replicate q.length 0 ++ r).length := by
  rw [polymul_length q d hq, List.length_append, List.length_replicate, hr,
    Nat.add_sub_assoc (List.length_pos_iff.2 hd)]

theorem xorLists_eq_recombine {d r : List Byte} (hq : q ≠ []) (hd : d ≠ []) (hr : r.length = d.length - 1) :
    xorLists (polymul q d) (List.replicate q.length 0 ++ r) = recombine q d r :=
  xorLists_eq_xorOnto (polymul_length_eq_aligned hq hd hr)

theorem evalAt_zeros_append (n : Nat) (r : List Byte) (x : Byte) : evalAt (List.replicate n 0 ++ r) x = evalAt r x := by
  induction n with
  | zero => rfl
  | succ n ih => rw [List.replicate_succ, List.cons_append, evalAt_cons, ← evalAt_eq_hornerFrom, ih]

/-- At a root of the divisor the dividend has the value of the remainder. -/
theorem evalAt_recombine_of_root {d r : List Byte} {x : Byte} (hd : d ≠ []) (hr : r.length = d.length - 1)
    (hx : evalAt d x = 0) : evalAt (recombine q d r) x = evalAt r x := by
  by_cases hq : q = []
  · rw [hq, recombine_nil]
  · rw [recombine, evalAt_xorOnto x (polymul_length_eq_aligned hq hd hr).symm, evalAt_zeros_append, evalAt_polymul, hx,
      gfmul_zero, xor_zero_byte]

/-! ## Elimination takes the quotient off again (R147) -/

theorem gfdiv_gfmul_cancel {c : Byte} (hc : c ≠ 0) (a : Byte) : gfdiv (gfmul c a) c = a := by
  have hinv : gfmul c (gfdiv 1 c) = 1 := by rw [gfmul_comm, gfmul_gfdiv_cancel 1 hc]
  calc gfdiv (gfmul c a) c
    _ = gfmul (gfmul (gfdiv (gfmul c a) c) c) (gfdiv 1 c) := by rw [gfmul_assoc, hinv, gfmul_one]
    _ = gfmul a (gfmul c (gfdiv 1 c)) := by rw [gfmul_gfdiv_cancel _ hc, gfmul_comm c a, gfmul_assoc]
    _ = a := by rw [hinv, gfmul_one]

theorem eliminate_cons_succ (c x : Byte) (d w : List Byte) (n : Nat) :
    eliminate (c :: d) (n + 1) (x :: w) = eliminate (c :: d) n (xorOnto w (scale (gfdiv x c) d)) := rfl

/-- Elimination finds the remainder a dividend was put together from: there is only one. -/
theorem eliminate_recombine {c : Byte} (hc : c ≠ 0) (q d r : List Byte) :
    eliminate (c :: d) q.length (recombine q (c :: d) r) = r := by
  induction q with
  | nil => rw [recombine_nil]; rfl
  | cons a q ih =>
    rw [recombine_cons, List.length_cons, eliminate_cons_succ, gfdiv_gfmul_cancel hc, xorOnto_xorOnto_cancel, ih]

/-- The quotient consists of the factors the elimination scales the divisor with. -/
theorem exists_recombine_eliminate {c : Byte} (hc : c ≠ 0) (d : List Byte) {n : Nat} {w : List Byte}
    (hn : n ≤ w.length) : ∃ q, q.length = n ∧ w = recombine q (c :: d) (eliminate (c :: d) n w) := by
  induction n generalizing w with
  | zero => exact ⟨[], rfl, (recombine_nil ..).symm⟩
  | succ n ih =>
    cases w with
    | nil => cases hn
    | cons x w =>
      have hn' : n ≤ (xorOnto w (scale (gfdiv x c) d)).length := by
        rw [xorOnto_length]
        exact Nat.le_of_succ_le_succ hn
      obtain ⟨q, hq, hw⟩ := ih hn'
      refine ⟨gfdiv x c :: q, by rw [List.length_cons, hq], ?_⟩
      rw [eliminate_cons_succ, recombine_cons, ← hw, gfmul_comm, gfmul_gfdiv_cancel x hc, xorOnto_xorOnto_cancel]

theorem polyrem_of_length_lt {d : List Byte} (h : p.length < d.length) : polyrem p d = padLeft d.length p := by
  have hn : (padLeft d.length p).length + 1 - d.length = 0 := by rw [padLeft_length]; omega
  rw [polyrem, hn, eliminate]

theorem polyrem_of_length_le {d : List Byte} (h : d.length ≤ p.length) :
    polyrem p d = eliminate d (p.length + 1 - d.length) p := by
  have hpad : padLeft d.length p = p := by
    have hn : d.length - 1 - p.length = 0 := by omega
    rw [padLeft, hn, List.replicate_zero, List.nil_append]
  rw [polyrem, hpad]

/-- Settles O21: elimination undoes `recombine`, and every dividend is one. -/
theorem polyremIsTheRemainder : Obligations.PolyremIsTheRemainder := by
  rintro p d ⟨c, hhead, hc⟩
  obtain ⟨d, rfl⟩ := List.head?_eq_some_iff.1 hhead
  have hd : c :: d ≠ [] := List.cons_ne_nil c d
  refine ⟨polyrem_length hd, polyrem_of_length_lt, fun hp => ?_⟩
  have hpos : ∀ {q : List Byte}, q.length = p.length - (c :: d).length + 1 → q ≠ [] := fun hq =>
    List.ne_nil_of_length_eq_add_one hq
  have hrem : polyrem p (c :: d) = eliminate (c :: d) (p.length - (c :: d).length + 1) p := by
    rw [polyrem_of_length_le hp, Nat.sub_add_comm hp]
  constructor
  · have hn : p.length - (c :: d).length + 1 ≤ p.length := by rw [List.length_cons] at hp ⊢; omega
    obtain ⟨q, hq, hw⟩ := exists_recombine_eliminate hc d hn
    refine ⟨q, hq, ?_⟩
    rwa [xorLists_eq_recombine (hpos hq) hd (polyrem_length hd), hrem]
  · intro r q hr hq hw
    rw [xorLists_eq_recombine (hpos hq) hd hr] at hw
    rw [hrem, ← hq, hw, eliminate_recombine hc]

/-! ## Bit coefficients (R150) -/

theorem bitByte_xor (a b : Bool) : bitByte (xor a b) = bitByte a ^^^ bitByte b := by cases a <;> cases b <;> rfl

theorem gfdiv_one (x : Byte) : gfdiv x 1 = x := by
  rw [← gfmul_one (gfdiv x 1), gfmul_gfdiv_cancel x (by decide)]

theorem scale_one (d : List Byte) : scale 1 d = d := by simp only [scale, gfmul_one, List.map_id']

theorem scale_zero (d : List Byte) : scale 0 d = List.replicate d.length 0 := by
  simp only [scale, gfmul_zero, List.map_const']

theorem xorOnto_map_bitByte (w d : List Bool) : xorOnto (w.map bitByte) (d.map bitByte) =
    (List.zipWith xor w (d ++ List.replicate (w.length - d.length) false)).map bitByte := by
  induction w generalizing d with
  | nil => cases d <;> rfl
  | cons x w ih =>
    cases d with
    | nil => simpa [List.replicate_succ] using ih []
    | cons y d => simp [bitByte_xor, ih]

theorem eliminate_map_bitByte (d : List Bool) (n : Nat) (w : List Bool) :
    eliminate ((true :: d).map bitByte) n (w.map bitByte) = (bitEliminate (true :: d) n w).map bitByte := by
  induction n generalizing w with
  | zero => cases w <;> rfl
  | succ n ih =>
    cases w with
    | nil => rfl
    | cons x w =>
      have hlead : bitByte true = 1 := rfl
      rw [bitEliminate, List.map_cons, List.map_cons, eliminate_cons_succ, ← List.map_cons, hlead, gfdiv_one, ← ih]
      cases x with
      | false =>
        have hx : bitByte false = 0 := rfl
        rw [hx, scale_zero, xorOnto_zeros, if_neg Bool.false_ne_true]
      | true => rw [hlead, scale_one, xorOnto_map_bitByte, if_pos rfl, List.tail_cons]

/-- Settles O22: with leading coefficient 1 the divisor is scaled by 1 or by 0, the conditional xor over GF(2). -/
theorem polyremOnBits : Obligations.PolyremOnBits := by
  intro p d hhead hp
  obtain ⟨d, rfl⟩ := List.head?_eq_some_iff.1 hhead
  rw [polyrem_of_length_le (by simpa using hp), eliminate_map_bitByte, List.length_map, List.length_map]

/-! ## Codewords vanish at the roots of the generator (43_rs_bch R164) -/

/-- At a root of the divisor the remainder has the value of the dividend. -/
theorem evalAt_polyrem_of_root {d : List Byte} {c x : Byte} (hc : c ≠ 0) (p : List Byte)
    (hx : evalAt (c :: d) x = 0) : evalAt (polyrem p (c :: d)) x = evalAt p x := by
  have hd : c :: d ≠ [] := List.cons_ne_nil c d
  obtain ⟨q, -, hw⟩ := exists_recombine_eliminate hc d (w := padLeft (c :: d).length p)
    (n := (padLeft (c :: d).length p).length + 1 - (c :: d).length) (by simp)
  calc evalAt (polyrem p (c :: d)) x
    _ = evalAt (recombine q (c :: d) (polyrem p (c :: d))) x :=
      (evalAt_recombine_of_root hd (polyrem_length hd) hx).symm
    _ = evalAt (padLeft (c :: d).length p) x := by rw [polyrem, ← hw]
    _ = evalAt p x := evalAt_zeros_append _ p x

/-- What follows a block contributes to the value as it does to the value of the block followed by zeros. -/
theorem evalAt_append (p r : List Byte) (x : Byte) :
    evalAt (p ++ r) x = evalAt (p ++ List.replicate r.length 0) x ^^^ evalAt r x := by
  simp only [evalAt_eq_hornerFrom, hornerFrom_append]
  exact hornerFrom_eq x _ r

/-- Settles O28: the value of the EC codewords is that of the block followed by zeros, and the two cancel. -/
theorem codewordsVanishAtTheRoots : Obligations.CodewordsVanishAtTheRoots := by
  intro blk e i he hi
  obtain ⟨d, hd⟩ := List.head?_eq_some_iff.1 (head?_genTable he)
  have hlen : (ecBlock e blk).length = e := ecBlock_length he blk
  have hroot : evalAt (1 :: d) (expTable i) = 0 := hd ▸ evalAt_genTable_expTable he hi
  have hec : evalAt (ecBlock e blk) (expTable i) = evalAt (blk ++ List.replicate e 0) (expTable i) := by
    rw [ecBlock, hd, evalAt_polyrem_of_root (by decide) _ hroot]
  exact ⟨hlen, by rw [evalAt_append, hlen, hec, BitVec.xor_self]; rfl⟩

/-! ## GENLD (R143) -/

theorem exec_genld_of_le {n : Nat} (hf : s.eng.fault = false) (hn : n ≤ gmax) : exec (.genld n) s =
    .next (s.answer .ok (n + 1) { s.eng with bufB := memFill s.eng.bufB (genTable n), lenb := n + 1 }) := by
  refine (gate_serving hf).trans ?_
  rw [decide_eq_true hn, require_true]
  rfl

theorem exec_genld_out_of_range {n : Nat} (hf : s.eng.fault = false) (hn : ¬ n ≤ gmax) :
    exec (.genld n) s = .next (s.answer .range 0 s.eng) := by
  refine (gate_serving hf).trans ?_
  rw [decide_eq_false hn, require_false, typedError_eq_answer]

/-- Settles O19: the fill of B, whose length is that of GEN[n]. -/
theorem genldLoadsTheGenerator : Obligations.GenldLoadsTheGenerator := by
  refine ⟨fun n hn => Laws.RoundTrip.genld n (decide_eq_true hn), fun s n hf hn => ?loaded,
    fun s n hf hn => exec_genld_out_of_range hf (Nat.not_le.2 hn)⟩
  have hlen : (genTable n).length = n + 1 := genTable_length hn
  refine ⟨_, fun j => ?_, fun j hj => memFill_written (by rw [hlen]; exact Nat.lt_succ_of_le hj),
    exec_genld_of_le hf hn⟩
  simp only [memRead_memFill, hlen, Nat.lt_succ_iff]

/-! ## Operands that may be unwritten (20_memory R66) -/

section Reads

variable {e : Engine} {b : Buf} {lo n : Nat} {kb : List Byte → State → Result}

theorem storedFrom0_memFill (m : Memory) (vs : List Byte) : StoredFrom0 m vs (memFill m vs) := memRead_memFill m vs

theorem storeR_eq_answer (r : List Byte) (s : State) :
    storeR r s = .next (s.answer .ok r.length { s.eng with bufR := memFill s.eng.bufR r, lenr := r.length }) := rfl

theorem holds_cons {x : Byte} {vs : List Byte} (h : Holds e b lo (x :: vs)) :
    memRead (e.buf b) lo = some x ∧ Holds e b (lo + 1) vs := by
  refine ⟨h 0 (Nat.succ_pos _), fun i hi => ?_⟩
  rw [Nat.add_assoc, Nat.add_comm 1]
  exact h (i + 1) (Nat.succ_lt_succ hi)

theorem readBytes_one_written {x : Byte} (h : memRead (s.eng.buf b) lo = some x) :
    readBytes b lo 1 kb s = kb [x] s := readBytes_holds (holds_singleton h)

/-- A read of the first byte and a read of the others are a read of them all. -/
theorem reads_cons {x : Byte} {vs : List Byte} (hx : ∀ v, memRead (e.buf b) lo = some v → x = v)
    (h : Reads e b (lo + 1) n vs) : Reads e b lo (n + 1) (x :: vs) := by
  obtain ⟨hlen, hvs⟩ := h
  refine ⟨by rw [List.length_cons, hlen], fun i v hi hv => ?_⟩
  cases i with
  | zero => rw [List.getElem?_cons_zero, hx v hv]
  | succ i =>
    rw [Nat.add_comm i, ← Nat.add_assoc] at hv
    exact hvs i v (Nat.lt_of_succ_lt_succ hi) hv

/-- Under `anyValue` a read goes on with bytes it may give. -/
theorem exists_reads (h : s.cfg.unwritten = .anyValue) (b : Buf) (lo n : Nat) (kb : List Byte → State → Result) :
    ∃ bs d, Reads s.eng b lo n bs ∧ readBytes b lo n kb s = kb bs { s with draws := d } := by
  obtain ⟨bs, d, hlen, hbs, hread⟩ := readBytes_anyValue (b := b) (lo := lo) (n := n) (kb := kb) h
  exact ⟨bs, d, ⟨hlen, hbs⟩, hread⟩

/-- A read is refused under `refuse` when what follows it is, whatever its bytes. -/
theorem readBytes_refused_of_next
    (h : ∀ bs d, ∃ b', kb bs { s with draws := d } = .refused (.unwrittenByte b')) :
    ∃ b', readBytes b lo n kb s = .refused (.unwrittenByte b') := by
  rcases readBytes_cases (s := s) (b := b) (lo := lo) (n := n) (kb := kb) with ⟨bs, d, -, hread⟩ | ⟨-, hread⟩
  · rw [hread]
    exact h bs d
  · exact ⟨b, hread⟩

end Reads

/-! ## PMUL (R145) -/

theorem exec_pmul_of_lengths (hf : s.eng.fault = false) (ha : 1 ≤ s.eng.lena) (hb : 1 ≤ s.eng.lenb)
    (hr : s.eng.lena + s.eng.lenb - 1 ≤ 256) : exec .pmul s =
      readBytes .A 0 s.eng.lena (fun p => readBytes .B 0 s.eng.lenb fun q => storeR (polymul p q)) s := by
  have hcap : s.eng.lena + s.eng.lenb - 1 ≤ Buf.R.capacity := hr
  refine (gate_serving hf).trans ?_
  rw [decide_eq_true ⟨ha, hb⟩, require_true, decide_eq_true hcap, require_true]

theorem exec_pmul_bad_lengths (hf : s.eng.fault = false)
    (h : s.eng.lena = 0 ∨ s.eng.lenb = 0 ∨ 256 < s.eng.lena + s.eng.lenb - 1) :
    exec .pmul s = .next (s.answer .len 0 s.eng) := by
  refine (gate_serving hf).trans ?_
  by_cases hl : 1 ≤ s.eng.lena ∧ 1 ≤ s.eng.lenb
  · have hcap : ¬ s.eng.lena + s.eng.lenb - 1 ≤ Buf.R.capacity := show ¬ _ ≤ 256 by omega
    rw [decide_eq_true hl, require_true, decide_eq_false hcap, require_false, typedError_eq_answer]
  · rw [decide_eq_false hl, require_false, typedError_eq_answer]

/-- The store of a product whose factors have the lengths of LENA and LENB. -/
theorem storeR_polymul (hp : p ≠ []) (s : State) : storeR (polymul p q) s =
    .next (s.answer .ok (p.length + q.length - 1)
      { s.eng with bufR := memFill s.eng.bufR (polymul p q), lenr := p.length + q.length - 1 }) := by
  rw [storeR_eq_answer, polymul_length p q hp]

/-- Settles O23: after the checks PMUL is two reads and a store, and each read is one of the three of R66. -/
theorem pmulStoresTheProduct : Obligations.PmulStoresTheProduct := by
  refine ⟨Laws.RoundTrip.pmul rfl, fun s p q hf hp hq hr hla hlb hA hB => ?written,
    fun s hf ha hb hr => ⟨fun hu => ?drawn, fun hu hmissing => ?refused⟩, fun s hf h => exec_pmul_bad_lengths hf h⟩
  case written =>
    have ha : 1 ≤ s.eng.lena := hla ▸ List.length_pos_iff.2 hp
    have hb : 1 ≤ s.eng.lenb := hlb ▸ List.length_pos_iff.2 hq
    refine ⟨_, storedFrom0_memFill _ _, ?_⟩
    rw [exec_pmul_of_lengths hf ha hb (by rwa [hla, hlb]), hla, readBytes_holds hA, hlb, readBytes_holds hB,
      storeR_polymul hp]
  case drawn =>
    obtain ⟨p, d₁, hp, hreadA⟩ := exists_reads hu .A 0 s.eng.lena
      fun p => readBytes .B 0 s.eng.lenb fun q => storeR (polymul p q)
    obtain ⟨q, d₂, hq, hreadB⟩ := exists_reads (s := { s with draws := d₁ }) hu .B 0 s.eng.lenb
      fun q => storeR (polymul p q)
    have hp0 : p ≠ [] := List.ne_nil_of_length_pos (hp.1 ▸ ha)
    refine ⟨p, q, _, d₂, hp, hq, storedFrom0_memFill _ _, ?_⟩
    rw [exec_pmul_of_lengths hf ha hb hr, hreadA, hreadB, storeR_polymul hp0, hp.1, hq.1]
  case refused =>
    rw [exec_pmul_of_lengths hf ha hb hr]
    rcases hmissing with ⟨j, hj, hnone⟩ | ⟨j, hj, hnone⟩
    · exact ⟨.A, readBytes_refused hu hj (by rwa [Nat.zero_add])⟩
    · exact readBytes_refused_of_next fun p d => ⟨.B, readBytes_refused hu hj (by rwa [Nat.zero_add])⟩

/-! ## PREM (R148) -/

/-- What PREM does once the leading coefficient `c` of the divisor is read and not 0. -/
def remainderBy (la lb : Nat) (c : Byte) : State → Result :=
  readBytes .A 0 la fun p => readBytes .B 1 (lb - 1) fun rest => storeR (polyrem p (c :: rest))

theorem exec_prem_of_length (hf : s.eng.fault = false) (hl : 1 ≤ s.eng.lenb) : exec .prem s =
    readBytes .B 0 1 (fun lead => require (decide (lead.headD 0 ≠ 0)) .divZero
      (remainderBy s.eng.lena s.eng.lenb (lead.headD 0))) s := by
  refine (gate_serving hf).trans ?_
  rw [decide_eq_true hl, require_true]
  rfl

theorem exec_prem_no_divisor (hf : s.eng.fault = false) (hl : s.eng.lenb = 0) :
    exec .prem s = .next (s.answer .len 0 s.eng) := by
  have hno : ¬ 1 ≤ s.eng.lenb := by omega
  refine (gate_serving hf).trans ?_
  rw [decide_eq_false hno, require_false, typedError_eq_answer]

theorem exec_prem_of_lead {c : Byte} (hf : s.eng.fault = false) (hl : 1 ≤ s.eng.lenb)
    (hB : memRead s.eng.bufB 0 = some c) (hc : c ≠ 0) : exec .prem s = remainderBy s.eng.lena s.eng.lenb c s := by
  rw [exec_prem_of_length hf hl, readBytes_one_written (b := .B) hB, List.headD_cons, decide_eq_true hc, require_true]

theorem exec_prem_of_lead_zero (hf : s.eng.fault = false) (hl : 1 ≤ s.eng.lenb) (hB : memRead s.eng.bufB 0 = some 0) :
    exec .prem s = .next (s.answer .divZero 0 s.eng) := by
  rw [exec_prem_of_length hf hl, readBytes_one_written (b := .B) hB]
  exact typedError_eq_answer _ s

/-- The store of a remainder of a divisor with leading coefficient `c`. -/
theorem storeR_polyrem (p : List Byte) (c : Byte) (rest : List Byte) (s : State) : storeR (polyrem p (c :: rest)) s =
    .next (s.answer .ok rest.length
      { s.eng with bufR := memFill s.eng.bufR (polyrem p (c :: rest)), lenr := rest.length }) := by
  rw [storeR_eq_answer, polyrem_length (List.cons_ne_nil c rest), List.length_cons, Nat.add_sub_cancel]

theorem remainderBy_holds {rest : List Byte} (hA : Holds s.eng .A 0 p) (hB : Holds s.eng .B 1 rest) (c : Byte) :
    remainderBy p.length (rest.length + 1) c s = storeR (polyrem p (c :: rest)) s := by
  rw [remainderBy, readBytes_holds hA, Nat.add_sub_cancel, readBytes_holds hB]

/-- Under `anyValue` the division reads the rest of its operands and stores. -/
theorem remainderBy_anyValue (hu : s.cfg.unwritten = .anyValue) (la lb : Nat) (c : Byte) :
    ∃ p rest d, Reads s.eng .A 0 la p ∧ Reads s.eng .B 1 (lb - 1) rest ∧
      remainderBy la lb c s = .next (({ s with draws := d } : State).answer .ok (lb - 1)
        { s.eng with bufR := memFill s.eng.bufR (polyrem p (c :: rest)), lenr := lb - 1 }) := by
  obtain ⟨p, d₁, hp, hreadA⟩ := exists_reads hu .A 0 la
    fun p => readBytes .B 1 (lb - 1) fun rest => storeR (polyrem p (c :: rest))
  obtain ⟨rest, d₂, hrest, hreadB⟩ := exists_reads (s := { s with draws := d₁ }) hu .B 1 (lb - 1)
    fun rest => storeR (polyrem p (c :: rest))
  refine ⟨p, rest, d₂, hp, hrest, ?_⟩
  rw [remainderBy, hreadA, hreadB, storeR_polyrem, hrest.1]

/-- Under `refuse` the division is refused for an unwritten byte of the rest of its operands. -/
theorem remainderBy_refused (hu : s.cfg.unwritten = .refuse) {la lb : Nat} (c : Byte)
    (h : (∃ j, j < la ∧ memRead s.eng.bufA j = none) ∨ ∃ j, j < lb - 1 ∧ memRead s.eng.bufB (1 + j) = none) :
    ∃ b, remainderBy la lb c s = .refused (.unwrittenByte b) := by
  rcases h with ⟨j, hj, hnone⟩ | ⟨j, hj, hnone⟩
  · exact ⟨.A, readBytes_refused hu hj (by rwa [Nat.zero_add])⟩
  · exact readBytes_refused_of_next fun p d => ⟨.B, readBytes_refused hu hj hnone⟩

/-- Under `anyValue` PREM reads a leading coefficient, which is drawn when it is unwritten, and divides or answers
E_DIVZERO. -/
theorem exec_prem_anyValue (hf : s.eng.fault = false) (hl : 1 ≤ s.eng.lenb) (hu : s.cfg.unwritten = .anyValue) :
    ∃ c d, (∀ v, memRead s.eng.bufB 0 = some v → c = v) ∧ exec .prem s = require (decide (c ≠ 0)) .divZero
      (remainderBy s.eng.lena s.eng.lenb c) { s with draws := d } := by
  obtain ⟨lead, d, ⟨hlen, hlead⟩, hread⟩ := exists_reads hu .B 0 1 fun lead =>
    require (decide (lead.headD 0 ≠ 0)) .divZero (remainderBy s.eng.lena s.eng.lenb (lead.headD 0))
  obtain ⟨c, rfl⟩ := List.length_eq_one_iff.1 hlen
  refine ⟨c, d, fun v hv => ?_, by rw [exec_prem_of_length hf hl, hread, List.headD_cons]⟩
  simpa using hlead 0 v Nat.zero_lt_one hv

/-- Settles O24: PREM is a read of the leading coefficient, its check, two reads and a store. -/
theorem premStoresTheRemainder : Obligations.PremStoresTheRemainder := by
  refine ⟨Laws.RoundTrip.prem rfl, fun s p q hf hhead hla hlb hA hB => ?written, fun s hf => exec_prem_no_divisor hf,
    fun s hf => exec_prem_of_lead_zero hf, fun s hf hl hu hzero => ?drawn, fun s hf hl hu hzero hmissing => ?refused⟩
  case written =>
    obtain ⟨c, hq, hc⟩ := hhead
    obtain ⟨rest, rfl⟩ := List.head?_eq_some_iff.1 hq
    obtain ⟨hlead, hrest⟩ := holds_cons hB
    have hl : 1 ≤ s.eng.lenb := hlb ▸ Nat.succ_pos _
    refine ⟨_, storedFrom0_memFill _ _, ?_⟩
    rw [exec_prem_of_lead hf hl hlead hc, hla, hlb, List.length_cons, remainderBy_holds hA hrest, storeR_polyrem,
      Nat.add_sub_cancel]
  case drawn =>
    obtain ⟨c, d, hlead, hexec⟩ := exec_prem_anyValue hf hl hu
    by_cases hc : c = 0
    · refine .inr ⟨Option.eq_none_iff_forall_ne_some.2 fun v hv => hzero ?_, d, ?_⟩
      · rw [hv, ← hlead v hv, hc]
      · rw [hexec, decide_eq_false (not_not.2 hc), require_false]
        exact typedError_eq_answer _ _
    · obtain ⟨p, rest, d', hp, hrest, hrem⟩ :=
        remainderBy_anyValue (s := { s with draws := d }) hu s.eng.lena s.eng.lenb c
      have hB : Reads s.eng .B 0 s.eng.lenb (c :: rest) := by
        have := reads_cons (e := s.eng) (b := .B) (lo := 0) hlead hrest
        rwa [Nat.sub_add_cancel hl] at this
      refine .inl ⟨p, c :: rest, _, d', hp, hB, by simpa using hc, storedFrom0_memFill _ _, ?_⟩
      rw [hexec, decide_eq_true hc, require_true, hrem]
  case refused =>
    cases hB : memRead s.eng.bufB 0 with
    | none =>
      rw [exec_prem_of_length hf hl]
      exact ⟨.B, readBytes_refused hu Nat.zero_lt_one hB⟩
    | some c =>
      rw [exec_prem_of_lead hf hl hB fun hc => hzero (by rw [hB, hc])]
      refine remainderBy_refused hu c (hmissing.imp_right fun ⟨j, hj, hnone⟩ => ?_)
      cases j with
      | zero => cases hB.symm.trans hnone
      | succ j => exact ⟨j, by omega, by rwa [Nat.add_comm]⟩

end Sys2Proof.Machine
end

section
/-! PROOFS of 43_rs_bch. The data are their blocks one after the other, and the stream takes the blocks apart column by
column: an entry is found by its column (R165), and taking off one column permutes (R167). A check word is the remainder
of numbers over GF(2): a sequence of bits is a number, and one step of the elimination is an exclusive or with the
shifted divisor (R168). -/

namespace Sys2Proof.Machine

variable {s : State}

/-! ## RSCFG (R161) -/

theorem exec_rscfg_of_fits {ndata nblk ecpb : Nat} (hf : s.eng.fault = false) (hb : 1 ≤ nblk) (he : ecpb ≤ gmax)
    (hd : nblk ≤ ndata) (hl : ndata + ecpb * nblk ≤ Buf.O.capacity) : exec (.rscfg ndata nblk ecpb) s =
      .next (s.answer .ok (ndata + ecpb * nblk) { s.eng with ndata := ndata, nblk := nblk, ecpb := ecpb }) := by
  refine (gate_serving hf).trans ?_
  rw [decide_eq_true hb, require_true, decide_eq_true he, require_true, decide_eq_true hd, require_true,
    decide_eq_true hl, require_true]
  rfl

theorem exec_rscfg_misfit {ndata nblk ecpb : Nat} (hf : s.eng.fault = false)
    (h : ¬ (1 ≤ nblk ∧ ecpb ≤ gmax ∧ nblk ≤ ndata ∧ ndata + ecpb * nblk ≤ Buf.O.capacity)) :
    exec (.rscfg ndata nblk ecpb) s = .next (s.answer .cfg 0 s.eng) := by
  refine (gate_serving hf).trans ?_
  by_cases hb : 1 ≤ nblk
  case neg => rw [decide_eq_false hb, require_false, typedError_eq_answer]
  rw [decide_eq_true hb, require_true]
  by_cases he : ecpb ≤ gmax
  case neg => rw [decide_eq_false he, require_false, typedError_eq_answer]
  rw [decide_eq_true he, require_true]
  by_cases hd : nblk ≤ ndata
  case neg => rw [decide_eq_false hd, require_false, typedError_eq_answer]
  have hl : ¬ ndata + ecpb * nblk ≤ Buf.O.capacity := fun hl => h ⟨hb, he, hd, hl⟩
  rw [decide_eq_true hd, require_true, decide_eq_false hl, require_false, typedError_eq_answer]

/-- Settles O25: the triple is stored when all four checks hold, and the first that fails answers E_CFG. -/
theorem rscfgStoresTheTriple : Obligations.RscfgStoresTheTriple := by
  refine ⟨fun ndata nblk ecpb hd hb he => Laws.RoundTrip.rscfg ndata nblk ecpb ?wellFormed,
    fun s ndata nblk ecpb hf hb he hd hl => exec_rscfg_of_fits hf hb he hd hl,
    fun s ndata nblk ecpb hf h => exec_rscfg_misfit hf ?misfit⟩
  case wellFormed => simp [WellFormed, hd, hb, he]
  case misfit =>
    rintro ⟨hb, he, hd, hl⟩
    have he' : ecpb ≤ 30 := he
    have hl' : ndata + ecpb * nblk ≤ 4096 := hl
    omega

/-! ## RSENC (R166) -/

/-- What RSENC does with the data it has read. -/
def storeStream (data : List Byte) (s : State) : Result :=
  .next (s.answer .ok (s.eng.ndata + s.eng.ecpb * s.eng.nblk)
    { s.eng with
      bufO := memFill s.eng.bufO (rsStream data s.eng.ndata s.eng.ecpb s.eng.nblk)
      olen := s.eng.ndata + s.eng.ecpb * s.eng.nblk })

theorem exec_rsenc_configured (hf : s.eng.fault = false) (hb : 1 ≤ s.eng.nblk) :
    exec .rsenc s = readBytes .D 0 s.eng.ndata storeStream s := by
  refine (gate_serving hf).trans ?_
  rw [decide_eq_true hb, require_true]
  rfl

theorem exec_rsenc_not_configured (hf : s.eng.fault = false) (hb : s.eng.nblk = 0) :
    exec .rsenc s = .next (s.answer .cfg 0 s.eng) := by
  have hno : ¬ 1 ≤ s.eng.nblk := by omega
  refine (gate_serving hf).trans ?_
  rw [decide_eq_false hno, require_false, typedError_eq_answer]

/-- Settles O27: RSENC is a read of the data and a store of their stream, and the read is one of the three of R66. -/
theorem rsencStoresTheStream : Obligations.RsencStoresTheStream := by
  refine ⟨Laws.RoundTrip.rsenc rfl, fun s data hf hb hn hD => ⟨_, storedFrom0_memFill _ _, ?written⟩,
    fun s => exec_rsenc_not_configured, fun s hf hb hu => ?drawn, fun s hf hb hu ⟨j, hj, hnone⟩ => ?refused⟩
  case written =>
    rw [exec_rsenc_configured hf hb, hn, readBytes_holds hD, storeStream, hn]
  case drawn =>
    obtain ⟨data, d, hD, hread⟩ := exists_reads hu .D 0 s.eng.ndata storeStream
    exact ⟨data, _, d, hD, storedFrom0_memFill _ _, (exec_rsenc_configured hf hb).trans hread⟩
  case refused =>
    rw [exec_rsenc_configured hf hb]
    exact readBytes_refused hu hj (by rwa [Nat.zero_add])

/-! ## The blocks (R163) -/

section Blocks

variable {data : List Byte} {n k e : Nat}

theorem blockOff_succ (n k b : Nat) : blockOff n k (b + 1) = blockOff n k b + blockLen n k b := by
  rw [blockOff, blockOff, blockLen, Nat.succ_mul]
  split <;> omega

theorem blockOff_end (n : Nat) (hk : 1 ≤ k) : blockOff n k k = n := by
  have hr : n % k < k := Nat.mod_lt n hk
  calc blockOff n k k
    _ = k * (n / k) + n % k := by rw [blockOff, Nat.sub_sub_self hr.le]
    _ = n := Nat.div_add_mod n k

theorem blockOff_le {b : Nat} (hk : 1 ≤ k) (hb : b ≤ k) : blockOff n k b ≤ n := by
  have hmono : Monotone (blockOff n k) := monotone_nat_of_le_succ fun b => by
    rw [blockOff_succ]
    exact Nat.le_add_right _ _
  exact (hmono hb).trans_eq (blockOff_end n hk)

theorem div_le_blockLen (n k b : Nat) : n / k ≤ blockLen n k b := by
  rw [blockLen]
  split <;> omega

theorem block_length {b : Nat} (hd : data.length = n) (hb : b < k) : (block data n k b).length = blockLen n k b := by
  have hend : blockOff n k (b + 1) ≤ n := blockOff_le (by omega) hb
  rw [blockOff_succ] at hend
  rw [block, List.length_take, List.length_drop]
  omega

/-- Codeword `i` of block `b` within the data. -/
theorem getElem?_block {i b : Nat} (h : i < blockLen n k b) : (block data n k b)[i]? = data[blockOff n k b + i]? := by
  rw [block, List.getElem?_take_of_lt h, List.getElem?_drop]

/-- All blocks, in block order. -/
def dataBlocks (data : List Byte) (n k : Nat) : List (List Byte) := (List.range k).map (block data n k)

theorem dataBlocks_length (data : List Byte) (n k : Nat) : (dataBlocks data n k).length = k := by
  rw [dataBlocks, List.length_map, List.length_range]

theorem getElem?_dataBlocks {b : Nat} (hb : b < k) : (dataBlocks data n k)[b]? = some (block data n k b) := by
  rw [dataBlocks, List.getElem?_map, List.getElem?_range hb, Option.map_some]

/-- The blocks are consecutive slices from the start of the data. -/
theorem flatten_dataBlocks_eq_take (data : List Byte) (n k : Nat) (m : Nat) :
    ((List.range m).map (block data n k)).flatten = data.take (blockOff n k m) := by
  induction m with
  | zero => simp [blockOff]
  | succ m ih => simp [List.range_succ, ih, block, blockOff_succ, List.take_add]

theorem flatten_dataBlocks (hd : data.length = n) (hk : 1 ≤ k) : (dataBlocks data n k).flatten = data := by
  rw [dataBlocks, flatten_dataBlocks_eq_take, blockOff_end n hk, List.take_of_length_le hd.le]

/-! ## Columns (R165) -/

theorem getElem?_column {blocks : List (List Byte)} {b : Nat} {blk : List Byte} (hb : blocks[b]? = some blk) {i : Nat}
    (hi : i < blk.length) : (column blocks i)[b]? = blk[i]? := by
  rw [column, List.getElem?_map, hb, Option.map_some, List.getD_eq_getElem _ _ hi, List.getElem?_eq_getElem hi]

/-- Entry `b` of column `i`, the columns standing one after the other. -/
theorem getElem?_flatMap_column {blocks : List (List Byte)} {m i b : Nat} (hi : i < m) (hb : b < blocks.length) :
    ((List.range m).flatMap (column blocks))[i * blocks.length + b]? = (column blocks i)[b]? := by
  induction m with
  | zero => cases hi
  | succ m ih =>
    have hlen := flatMap_column_length blocks m
    rw [List.range_succ, List.flatMap_append, List.flatMap_singleton]
    rcases Nat.lt_succ_iff_lt_or_eq.1 hi with hi | rfl
    · have hle : (i + 1) * blocks.length ≤ m * blocks.length := Nat.mul_le_mul_right _ hi
      rw [Nat.succ_mul] at hle
      rw [List.getElem?_append_left (by omega), ih hi]
    · rw [List.getElem?_append_right (by omega), hlen, Nat.add_sub_cancel_left]

/-- Taking the first `m` columns off blocks of at least that length permutes their entries. -/
theorem columns_append_drop_perm {blocks : List (List Byte)} {m : Nat} (h : ∀ blk ∈ blocks, m ≤ blk.length) :
    ((List.range m).flatMap (column blocks) ++ blocks.flatMap (List.drop m)).Perm blocks.flatten := by
  induction m with
  | zero => exact .of_eq List.flatMap_id
  | succ m ih =>
    have hsplit : ∀ blk ∈ blocks, blk.getD m 0 :: blk.drop (m + 1) = blk.drop m := fun blk hblk => by
      have hm : m < blk.length := h blk hblk
      rw [List.getD_eq_getElem _ _ hm, List.drop_eq_getElem_cons hm]
    have hcol : (column blocks m ++ blocks.flatMap (List.drop (m + 1))).Perm (blocks.flatMap (List.drop m)) := by
      rw [← List.flatMap_congr hsplit]
      exact List.map_append_flatMap_perm blocks _ _
    rw [List.range_succ, List.flatMap_append, List.flatMap_singleton, List.append_assoc]
    exact (hcol.append_left _).trans (ih fun blk hblk => Nat.le_of_succ_le (h blk hblk))

/-! ## The stream (R165, R167) -/

/-- The data part of the stream: the full columns, and the final column of the longer blocks. -/
def dataColumns (data : List Byte) (n k : Nat) : List Byte :=
  (List.range (n / k)).flatMap (column (dataBlocks data n k))
    ++ column ((dataBlocks data n k).drop (k - n % k)) (n / k)

theorem rsStream_eq (data : List Byte) (n e k : Nat) : rsStream data n e k =
    dataColumns data n k ++ (List.range e).flatMap (column ((dataBlocks data n k).map (ecBlock e))) := rfl

theorem fullColumns_length (data : List Byte) (n k : Nat) :
    ((List.range (n / k)).flatMap (column (dataBlocks data n k))).length = n / k * k := by
  rw [flatMap_column_length, dataBlocks_length]

theorem dataColumns_length (data : List Byte) (n : Nat) (hk : 1 ≤ k) : (dataColumns data n k).length = n := by
  have hr : n % k < k := Nat.mod_lt n hk
  have hn : n / k * k + n % k = n := Nat.div_add_mod' n k
  rw [dataColumns, List.length_append, fullColumns_length, column_length, List.length_drop, dataBlocks_length]
  omega

theorem getElem?_rsStream_data {i : Nat} (hk : 1 ≤ k) (hi : i < n) :
    (rsStream data n e k)[i]? = (dataColumns data n k)[i]? := by
  rw [rsStream_eq, List.getElem?_append_left (by rwa [dataColumns_length data n hk])]

theorem getElem?_dataColumns_full {i b : Nat} (hd : data.length = n) (hi : i < n / k) (hb : b < k) :
    (dataColumns data n k)[i * k + b]? = data[blockOff n k b + i]? := by
  have hlen : i < blockLen n k b := hi.trans_le (div_le_blockLen n k b)
  have hle : (i + 1) * k ≤ n / k * k := Nat.mul_le_mul_right k hi
  rw [Nat.succ_mul] at hle
  have hcol := getElem?_flatMap_column (blocks := dataBlocks data n k) hi ((dataBlocks_length data n k).symm ▸ hb)
  rw [dataBlocks_length] at hcol
  rw [dataColumns, List.getElem?_append_left (by rw [fullColumns_length]; omega), hcol,
    getElem?_column (getElem?_dataBlocks hb) (by rwa [block_length hd hb]), getElem?_block hlen]

theorem getElem?_dataColumns_final {b : Nat} (hd : data.length = n) (hlong : k - n % k ≤ b) (hb : b < k) :
    (dataColumns data n k)[n / k * k + (b - (k - n % k))]? = data[blockOff n k b + n / k]? := by
  have hlen : n / k < blockLen n k b := by rw [blockLen, if_neg (Nat.not_lt.2 hlong)]; omega
  have hblk : ((dataBlocks data n k).drop (k - n % k))[b - (k - n % k)]? = some (block data n k b) := by
    rw [List.getElem?_drop, Nat.add_sub_cancel' hlong, getElem?_dataBlocks hb]
  rw [dataColumns, List.getElem?_append_right (by rw [fullColumns_length]; omega), fullColumns_length,
    Nat.add_sub_cancel_left, getElem?_column hblk (by rwa [block_length hd hb]), getElem?_block hlen]

theorem getElem?_rsStream_ec {j b : Nat} (he : e ≤ gmax) (hj : j < e) (hb : b < k) :
    (rsStream data n e k)[n + j * k + b]? = (ecBlock e (block data n k b))[j]? := by
  have hlen : ((dataBlocks data n k).map (ecBlock e)).length = k := by rw [List.length_map, dataBlocks_length]
  have hblk : ((dataBlocks data n k).map (ecBlock e))[b]? = some (ecBlock e (block data n k b)) := by
    rw [List.getElem?_map, getElem?_dataBlocks hb, Option.map_some]
  have hdata := dataColumns_length data n (Nat.one_le_of_lt hb)
  have hcol := getElem?_flatMap_column hj (hlen.symm ▸ hb)
  rw [hlen] at hcol
  rw [rsStream_eq, List.getElem?_append_right (by omega), hdata, Nat.add_assoc, Nat.add_sub_cancel_left, hcol,
    getElem?_column hblk (by rwa [ecBlock_length he])]

/-- After the full columns only the longer blocks have a codeword left: the final column. -/
theorem flatMap_drop_dataBlocks (hd : data.length = n) :
    (dataBlocks data n k).flatMap (List.drop (n / k)) = column ((dataBlocks data n k).drop (k - n % k)) (n / k) := by
  have hlen : ∀ (b : Nat) (hb : b < (dataBlocks data n k).length),
      (dataBlocks data n k)[b].length = blockLen n k b := fun b hb => by
    have hb' : b < k := dataBlocks_length data n k ▸ hb
    rw [(List.getElem_eq_iff hb).2 (getElem?_dataBlocks hb'), block_length hd hb']
  have hshort : ∀ blk ∈ (dataBlocks data n k).take (k - n % k), blk.drop (n / k) = [] := fun blk hblk => by
    obtain ⟨b, hb, rfl⟩ := List.mem_take_iff_getElem.1 hblk
    rw [List.drop_eq_nil_iff, hlen, blockLen, if_pos (by omega)]
  have hlong : ∀ blk ∈ (dataBlocks data n k).drop (k - n % k), blk.drop (n / k) = [blk.getD (n / k) 0] :=
    fun blk hblk => by
    obtain ⟨b, hb, rfl⟩ := List.mem_drop_iff_getElem.1 hblk
    have hblk : (dataBlocks data n k)[k - n % k + b].length = n / k + 1 := by
      rw [hlen, blockLen, if_neg (by omega)]
    rw [List.drop_eq_getElem_cons (by omega), List.getD_eq_getElem _ _ (by omega), List.drop_eq_nil_of_le hblk.le]
  conv_lhs => rw [← List.take_append_drop (k - n % k) (dataBlocks data n k)]
  rw [List.flatMap_append, List.flatMap_eq_nil_iff.2 hshort, List.flatMap_congr hlong, List.nil_append, column,
    List.map_eq_flatMap]

theorem dataColumns_perm (hd : data.length = n) (hk : 1 ≤ k) : (dataColumns data n k).Perm data := by
  have hlen : ∀ blk ∈ dataBlocks data n k, n / k ≤ blk.length := by
    intro blk hblk
    obtain ⟨b, hb, rfl⟩ := List.mem_map.1 hblk
    rw [block_length hd (List.mem_range.1 hb)]
    exact div_le_blockLen n k b
  calc dataColumns data n k
    _ = (List.range (n / k)).flatMap (column (dataBlocks data n k)) ++
        (dataBlocks data n k).flatMap (List.drop (n / k)) := by
      rw [dataColumns, flatMap_drop_dataBlocks hd]
    _ |>.Perm (dataBlocks data n k).flatten := columns_append_drop_perm hlen
    _ = data := flatten_dataBlocks hd hk

/-- Settles O26: each entry by the column it stands in, the permutation by taking the columns off the blocks. -/
theorem streamEntries : Obligations.StreamEntries := by
  intro data n e k hd hk hkn he
  have hn : n / k * k + n % k = n := Nat.div_add_mod' n k
  refine ⟨rsStream_length data n e hk, fun i b hi hb => ?full, fun b hlong hb => ?final,
    fun j b hj hb => getElem?_rsStream_ec he hj hb, ?perm⟩
  case full =>
    have hle : (i + 1) * k ≤ n / k * k := Nat.mul_le_mul_right k hi
    rw [Nat.succ_mul] at hle
    rw [getElem?_rsStream_data hk (by omega)]
    exact getElem?_dataColumns_full hd hi hb
  case final =>
    rw [getElem?_rsStream_data hk (by omega)]
    exact getElem?_dataColumns_final hd hlong hb
  case perm =>
    rw [rsStream_eq, List.take_left' (dataColumns_length data n hk)]
    exact dataColumns_perm hd hk

end Blocks

/-! ## Sequences of bits as numbers (R168) -/

theorem bitByte_toNat (b : Bool) : (bitByte b).toNat = b.toNat := by cases b <;> rfl

theorem bitByte_testBit (x n : Nat) : bitByte (x.testBit n) = BitVec.ofNat 8 (x / 2 ^ n % 2) := by
  rw [← Nat.toNat_testBit, ← bitByte_toNat, byte_ofNat_toNat]

theorem bitCoeffs_length (n x : Nat) : (bitCoeffs n x).length = n := by
  rw [bitCoeffs, List.length_map, List.length_range]

/-- The coefficients of a number with one bit more: its leading bit, then the rest. -/
theorem bitCoeffs_succ (n x : Nat) : bitCoeffs (n + 1) x = bitByte (x.testBit n) :: bitCoeffs n x := by
  rw [bitCoeffs, List.range_succ_eq_map, List.map_cons, List.map_map, bitCoeffs, bitByte_testBit, Nat.add_sub_cancel,
    Nat.sub_zero]
  refine congrArg _ (List.map_congr_left fun i _ => ?_)
  rw [Function.comp_apply, Nat.sub_succ', Nat.sub_right_comm]

/-- The coefficients depend on the low bits only. -/
theorem bitCoeffs_congr {n x y : Nat} (h : ∀ i < n, x.testBit i = y.testBit i) : bitCoeffs n x = bitCoeffs n y := by
  induction n with
  | zero => rfl
  | succ n ih => rw [bitCoeffs_succ, bitCoeffs_succ, h n n.lt_succ_self, ih fun i hi => h i (Nat.lt_succ_of_lt hi)]

theorem foldl_bitCoeffs (n x a : Nat) :
    (bitCoeffs n x).foldl (fun acc b => 2 * acc + b.toNat) a = a * 2 ^ n + x % 2 ^ n := by
  induction n generalizing a with
  | zero => simp [bitCoeffs, Nat.mod_one]
  | succ n ih =>
    rw [bitCoeffs_succ, List.foldl_cons, ih, bitByte_toNat, Nat.toNat_testBit, Nat.mod_pow_succ]
    ring

/-- The coefficients of a number of `n` bits are read back as the number. -/
theorem coeffsNat_bitCoeffs {n x : Nat} (h : x < 2 ^ n) : coeffsNat (bitCoeffs n x) = x := by
  rw [coeffsNat, foldl_bitCoeffs, Nat.zero_mul, Nat.zero_add, Nat.mod_eq_of_lt h]

/-- Zeros at the low end shift the number. -/
theorem bitCoeffs_append_zeros (n t x : Nat) : bitCoeffs n x ++ List.replicate t 0 = bitCoeffs (n + t) (x <<< t) := by
  induction n with
  | zero =>
    calc List.replicate t 0
      _ = bitCoeffs t 0 := by simp [bitCoeffs]
      _ = bitCoeffs t (x <<< t) := bitCoeffs_congr fun i hi => by simp [Nat.testBit_shiftLeft, hi]
      _ = bitCoeffs (0 + t) (x <<< t) := by rw [Nat.zero_add]
  | succ n ih =>
    rw [bitCoeffs_succ, List.cons_append, ih, Nat.add_right_comm, bitCoeffs_succ, Nat.testBit_shiftLeft]
    simp

/-- The addition of coefficients at the front is the exclusive or with the shifted number. -/
theorem xorOnto_bitCoeffs (n t y g : Nat) :
    xorOnto (bitCoeffs (n + t) y) (bitCoeffs t g) = bitCoeffs (n + t) (y ^^^ g <<< n) := by
  induction t with
  | zero =>
    refine (xorOnto_nil _).trans (bitCoeffs_congr fun i hi => ?_)
    have hi' : i < n := hi
    simp [Nat.testBit_shiftLeft, Nat.not_le.2 hi']
  | succ t ih =>
    have hbit : (y ^^^ g <<< n).testBit (n + t) = xor (y.testBit (n + t)) (g.testBit t) := by
      simp [Nat.testBit_shiftLeft]
    rw [← Nat.add_assoc, bitCoeffs_succ, bitCoeffs_succ, bitCoeffs_succ, xorOnto_cons_cons, ih, hbit, bitByte_xor]

/-! ## Elimination is division over GF(2) (R150, R168) -/

section Division

variable {n t g y : Nat}

/-- One step of the division of a number of `n + 1 + t` bits: its leading bit is cancelled with the divisor `g` of
degree `t`. -/
def cancelLeading (n t g y : Nat) : Nat := y ^^^ if y.testBit (n + t) = true then g <<< n else 0

theorem cancelLeading_lt (hg : g.testBit t = true) (hlt : g < 2 ^ (t + 1)) (hy : y < 2 ^ (n + 1 + t)) :
    cancelLeading n t g y < 2 ^ (n + t) := by
  rw [Nat.add_right_comm] at hy
  have hshift : g <<< n < 2 ^ (n + t + 1) := by
    rw [Nat.shiftLeft_eq, Nat.mul_comm, Nat.add_assoc, Nat.pow_add]
    exact Nat.mul_lt_mul_of_pos_left hlt (Nat.two_pow_pos n)
  have htop : (cancelLeading n t g y).testBit (n + t) = false := by
    cases h : y.testBit (n + t) <;> simp [cancelLeading, h, hg, Nat.testBit_shiftLeft]
  have hle : cancelLeading n t g y < 2 ^ (n + t + 1) :=
    Nat.xor_lt_two_pow hy (by split; exacts [hshift, Nat.two_pow_pos _])
  refine Nat.lt_pow_two_of_testBit _ fun i hi => ?_
  rcases hi.eq_or_lt with rfl | hi
  · exact htop
  · exact Nat.testBit_eq_false_of_lt (hle.trans_le (Nat.pow_le_pow_right Nat.two_pos hi))

theorem eliminate_bitCoeffs_succ (hg : g.testBit t = true) (n y : Nat) :
    eliminate (bitCoeffs (t + 1) g) (n + 1) (bitCoeffs (n + 1 + t) y) =
      eliminate (bitCoeffs (t + 1) g) n (bitCoeffs (n + t) (cancelLeading n t g y)) := by
  have hlead : bitByte true = 1 := rfl
  rw [Nat.add_right_comm, bitCoeffs_succ (n + t), bitCoeffs_succ t, hg, hlead, eliminate_cons_succ, gfdiv_one,
    cancelLeading]
  cases y.testBit (n + t) with
  | false =>
    have hx : bitByte false = 0 := rfl
    rw [hx, scale_zero, xorOnto_zeros, if_neg Bool.false_ne_true, Nat.xor_zero]
  | true => rw [hlead, scale_one, xorOnto_bitCoeffs, if_pos rfl]

/-- A further leading bit of the factor adds the shifted multiplicand. -/
theorem clmul_succ_leading (b : Bool) {q : Nat} (hq : q < 2 ^ n) (g : Nat) :
    clmul (q + b.toNat * 2 ^ n) (n + 1) g = clmul q n g ^^^ if b = true then g <<< n else 0 := by
  induction n generalizing q g with
  | zero =>
    obtain rfl : q = 0 := by simpa using hq
    cases b <;> simp [clmul]
  | succ n ih =>
    have hpow : b.toNat * 2 ^ (n + 1) = 2 * (b.toNat * 2 ^ n) := by ring
    have hshift : (2 * g) <<< n = g <<< (n + 1) := by rw [Nat.shiftLeft_succ_inside]
    have hmod : (q + b.toNat * 2 ^ (n + 1)) % 2 = q % 2 := by omega
    have hdiv : (q + b.toNat * 2 ^ (n + 1)) / 2 = q / 2 + b.toNat * 2 ^ n := by omega
    rw [clmul, hmod, hdiv, ih (by omega), clmul, hshift, Nat.xor_assoc]

/-- Elimination finds quotient and remainder of the number over GF(2). -/
theorem exists_clmul_xor_eliminate (hg : g.testBit t = true) (hlt : g < 2 ^ (t + 1)) (hy : y < 2 ^ (n + t)) :
    ∃ q r, q < 2 ^ n ∧ r < 2 ^ t ∧ eliminate (bitCoeffs (t + 1) g) n (bitCoeffs (n + t) y) = bitCoeffs t r ∧
      clmul q n g ^^^ r = y := by
  induction n generalizing y with
  | zero =>
    rw [Nat.zero_add] at hy
    exact ⟨0, y, Nat.one_pos, hy, by rw [Nat.zero_add, eliminate], Nat.zero_xor y⟩
  | succ n ih =>
    obtain ⟨q, r, hq, hr, helim, hmul⟩ := ih (cancelLeading_lt hg hlt hy)
    refine ⟨q + (y.testBit (n + t)).toNat * 2 ^ n, r, ?_, hr, by rw [eliminate_bitCoeffs_succ hg, helim], ?_⟩
    · have hbit : (y.testBit (n + t)).toNat * 2 ^ n ≤ 1 * 2 ^ n := Nat.mul_le_mul_right _ (Bool.toNat_le _)
      omega
    · rw [clmul_succ_leading _ hq, Nat.xor_right_comm, hmul, cancelLeading, Nat.xor_xor_cancel_right]

/-- R168: `bchrem` is the remainder of the shifted data by the divisor over GF(2). -/
theorem bchrem_lt_and_exists_clmul_xor {x d : Nat} (hd : 1 ≤ d) (hx : x < 2 ^ d) (hg : g.testBit t = true)
    (hlt : g < 2 ^ (t + 1)) :
    bchrem x d g t < 2 ^ t ∧ ∃ q, clmul q d g ^^^ bchrem x d g t = x * 2 ^ t := by
  have hy : x <<< t < 2 ^ (d + t) := by
    rw [Nat.shiftLeft_eq, Nat.pow_add]
    exact Nat.mul_lt_mul_of_pos_right hx (Nat.two_pow_pos t)
  obtain ⟨q, r, -, hr, helim, hmul⟩ := exists_clmul_xor_eliminate hg hlt hy
  have hlen : (bitCoeffs (t + 1) g).length ≤ (bitCoeffs (d + t) (x <<< t)).length := by
    rw [bitCoeffs_length, bitCoeffs_length]
    omega
  have hsteps : d + t + 1 - (t + 1) = d := by omega
  have hrem : bchrem x d g t = r := by
    rw [bchrem, bitCoeffs_append_zeros, polyrem_of_length_le hlen, bitCoeffs_length, bitCoeffs_length, hsteps, helim,
      coeffsNat_bitCoeffs hr]
  rw [hrem]
  exact ⟨hr, q, hmul.trans (Nat.shiftLeft_eq x t)⟩

end Division

/-! ## The printed words (R170, R173) -/

/-- The level code followed by the mask number, the five data bits of the format word. -/
def formatData (lv : Level) (m : Nat) : Nat := ecCode lv * 8 + m

theorem formatData_lt (lv : Level) {m : Nat} (hm : m < 8) : formatData lv m < 2 ^ 5 := by
  have hcode : ecCode lv < 4 := by cases lv <;> decide
  rw [formatData]
  omega

theorem bchrem_fmtDiv {lv : Level} {m : Nat} (hm : m < 8) : bchrem (formatData lv m) 5 fmtDiv 10 < 1024 ∧
    ∃ q, clmul q 5 fmtDiv ^^^ bchrem (formatData lv m) 5 fmtDiv 10 = formatData lv m * 1024 :=
  bchrem_lt_and_exists_clmul_xor (by decide) (formatData_lt lv hm) (by decide) (by decide)

theorem bchrem_verDiv {v : Nat} (hv : v < 64) : bchrem v 6 verDiv 12 < 4096 ∧
    ∃ q, clmul q 6 verDiv ^^^ bchrem v 6 verDiv 12 = v * 4096 :=
  bchrem_lt_and_exists_clmul_xor (by decide) hv (by decide) (by decide)

theorem fmtword_toNat {lv : Level} {m : Nat} (hm : m < 8) : (fmtword lv m).toNat =
    (formatData lv m * 1024 + bchrem (formatData lv m) 5 fmtDiv 10) ^^^ 0x5412 := by
  have hx := formatData_lt lv hm
  obtain ⟨hrem, -⟩ := bchrem_fmtDiv (lv := lv) hm
  have hfit : formatData lv m * 1024 + bchrem (formatData lv m) 5 fmtDiv 10 < 2 ^ 15 := by omega
  rw [fmtword, BitVec.toNat_xor, ← formatData, BitVec.toNat_ofNat, Nat.mod_eq_of_lt hfit]
  rfl

theorem verword_toNat {v : Nat} (hv : v < 64) : (verword v).toNat = v * 4096 + bchrem v 6 verDiv 12 := by
  obtain ⟨hrem, -⟩ := bchrem_verDiv hv
  have hfit : v * 4096 + bchrem v 6 verDiv 12 < 2 ^ 18 := by omega
  rw [verword, BitVec.toNat_ofNat, Nat.mod_eq_of_lt hfit]

theorem getElem?_formatWords (lv : Level) :
    ∀ m < 8, (formatWords.getD lv.ordinal [])[m]? = some (fmtword lv m).toNat := by
  cases lv <;> decide +kernel

theorem getElem?_versionWords : ∀ v ≤ 40, 7 ≤ v → versionWords[v - 7]? = some (verword v).toNat := by
  decide +kernel

/-! ## FMTWORD and VERWORD (R171, R174) -/

theorem exec_fmtword (hf : s.eng.fault = false) (lv : Level) (m : Nat) :
    exec (.fmtword lv m) s = .next (s.answer .ok (fmtword lv m).toNat s.eng) :=
  (gate_serving hf).trans (succeed_eq_answer _ s)

theorem exec_verword (hf : s.eng.fault = false) (v : Nat) :
    exec (.verword v) s = .next (s.answer .ok (verword v).toNat s.eng) :=
  (gate_serving hf).trans (succeed_eq_answer _ s)

/-- Settles O29: the printed words are those of `fmtword` and `verword`, whose check bits are remainders over GF(2). -/
theorem formatAndVersionWords : Obligations.FormatAndVersionWords := by
  refine ⟨fun lv m hm => Laws.RoundTrip.fmtword lv m (decide_eq_true hm),
    fun v hv => Laws.RoundTrip.verword v (decide_eq_true hv),
    fun s lv m hf hm => ⟨_, getElem?_formatWords lv m hm, exec_fmtword hf lv m⟩,
    fun s v hf hv => ?version, fun lv m hm => ?format⟩
  case version =>
    obtain ⟨hlt, q, hq⟩ := bchrem_verDiv hv
    refine ⟨_, q, hlt, hq, ?_⟩
    rw [← verword_toNat hv]
    exact ⟨exec_verword hf v, fun h7 h40 => getElem?_versionWords v h40 h7⟩
  case format =>
    obtain ⟨hlt, q, hq⟩ := bchrem_fmtDiv (lv := lv) hm
    have hcode : ([1, 0, 3, 2] : List Nat)[lv.ordinal]? = some (ecCode lv) := by cases lv <;> rfl
    refine ⟨ecCode lv, _, q, hcode, hlt, hq, ?_⟩
    rw [getElem?_formatWords lv m hm, fmtword_toNat hm, formatData]

end Sys2Proof.Machine
end

section
/-! PROOFS of 44_pattern_placer. A placement command answers the engine with its stamps applied
(`exec_placement`), and one lemma per pattern says which stamps are members of its list (`mem_finderStamps` and the rest).
The cells of each statement follow by reading one cell after a list of stamps (`cellIs_stampAll`, `sameCell_stampAll`). -/

namespace Sys2Proof.Machine

variable {s t : State} {e : Engine} {ps : List Stamp} {w r c : Nat} {d : Bool} {tg : Tag}

/-! ## One cell after a list of stamps (R190) -/

theorem lastStamp_on_cell {p : Stamp} (h : lastStamp ps r c = some p) : p.row = r ∧ p.col = c := by
  induction ps with
  | nil => cases h
  | cons q ps ih =>
    simp only [lastStamp] at h
    split at h
    next q' hq =>
      cases h
      exact ih hq
    next =>
      split at h
      next hq =>
        cases h
        exact hq
      next => cases h

theorem lastStamp_ne_none {p : Stamp} (hp : p ∈ ps) : lastStamp ps p.row p.col ≠ none := by
  induction ps with
  | nil => cases hp
  | cons q ps ih =>
    simp only [lastStamp]
    split
    next q' hq => exact nofun
    next hnone =>
      rcases List.mem_cons.1 hp with rfl | hp
      · simp
      · exact absurd hnone (ih hp)

theorem sameCell_stampAll (h : ∀ d tg, ⟨r, c, d, tg⟩ ∉ ps) : SameCell e (e.stampAll ps) r c := by
  have hlast : lastStamp ps r c = none := by
    cases hl : lastStamp ps r c with
    | none => rfl
    | some p =>
      obtain ⟨rfl, rfl⟩ := lastStamp_on_cell hl
      exact absurd (lastStamp_mem hl) (h p.dark p.tag)
  simp [SameCell, cellAt_mod_stampAll, cellAt_tag_stampAll, hlast]

/-- A stamped cell on which the stamps of the list agree. -/
theorem cellIs_stampAll (hg : e.GridsOk) (hr : r < e.width) (hc : c < e.width) {d : Bool} {tg : Tag}
    (hmem : ⟨r, c, d, tg⟩ ∈ ps) (hagree : ∀ d' tg', ⟨r, c, d', tg'⟩ ∈ ps → d' = d ∧ tg' = tg) :
    (e.stampAll ps).cellIs r c d tg := by
  obtain ⟨p, hl⟩ := Option.ne_none_iff_exists'.1 (lastStamp_ne_none hmem)
  obtain ⟨rfl, rfl⟩ := lastStamp_on_cell hl
  obtain ⟨hd, ht⟩ := hagree _ _ (lastStamp_mem hl)
  obtain ⟨m, hm⟩ := cellAt_exists hg.1 hr hc
  obtain ⟨x, hx⟩ := cellAt_exists hg.2 hr hc
  simp [Engine.cellIs, cellAt_mod_stampAll, cellAt_tag_stampAll, hl, hm, hx, hd, ht]

theorem stampAll_sameButGrid (e : Engine) (ps : List Stamp) : SameButGrid e (e.stampAll ps) := (stampAll_same ps e).symm

theorem stampAll_gridsOk (ps : List Stamp) (hg : e.GridsOk) : (e.stampAll ps).GridsOk := by
  rw [Engine.GridsOk, stampAll_width]
  exact stampAll_square ps hg.1 hg.2

/-- Stamps that leave every cell as it is leave the engine. -/
theorem stampAll_eq_self (hg : e.GridsOk) (h : ∀ r c, SameCell e (e.stampAll ps) r c) : e.stampAll ps = e := by
  obtain ⟨hm, ht⟩ := stampAll_square ps hg.1 hg.2
  rw [stampAll_same, grid_ext hm hg.1 fun r c => (h r c).1, grid_ext ht hg.2 fun r c => (h r c).2]

/-- The last stamp on a cell decides it, so a list of stamps applied twice leaves what it left the first time (R191). -/
theorem stampAll_stampAll (hg : e.GridsOk) (ps : List Stamp) : (e.stampAll ps).stampAll ps = e.stampAll ps := by
  refine stampAll_eq_self (stampAll_gridsOk ps hg) fun r c => ?_
  simp only [SameCell, cellAt_mod_stampAll, cellAt_tag_stampAll, Option.map_map]
  cases lastStamp ps r c <;> exact ⟨rfl, rfl⟩

/-! ## The placement commands (R190) -/

/-- The stamps of a placement command on the engine `e` (none for the other commands). -/
def stampsOf (i : Instr) (a : AlignTable) (e : Engine) : List Stamp :=
  match i with
  | .plfind => finderStamps e.width
  | .pltime => timingStamps e.width
  | .plalign => alignStamps a e.version
  | .plfmt m => formatStamps e.width (fmtword e.ecl m)
  | .plver => versionStamps e.version
  | .pldark => darkStamps e.version
  | .plall => allStamps a e.version e.ecl e.mask
  | _ => []

theorem exec_eq_place {i : Instr} (hi : mnemonicOf i ∈ placementCommands) (s : State) :
    exec i s = place (fun s => stampsOf i s.cfg.align s.eng) s := by
  cases i with
  | plfind | pltime | plalign | plfmt | plver | pldark | plall => rfl
  | _ => simp [mnemonicOf, placementCommands] at hi

/-- No stamp changes what the stamps of a command depend on. -/
theorem stampsOf_stampAll (i : Instr) (a : AlignTable) (e : Engine) (ps : List Stamp) :
    stampsOf i a (e.stampAll ps) = stampsOf i a e := by
  cases i <;> simp [stampsOf]

theorem exec_placement {i : Instr} (hi : mnemonicOf i ∈ placementCommands) (hs : s.Ready) :
    exec i s = .next (s.answer .ok 0 (s.eng.stampAll (stampsOf i s.cfg.align s.eng))) := by
  obtain ⟨hf, hv⟩ := hs
  rw [exec_eq_place hi, place, gate_serving hf, needSymbol_some hv]
  rfl

@[simp] theorem answer_eng (s : State) (err : Err) (n : Nat) (e : Engine) : (s.answer err n e).eng = e := rfl

theorem ready_answer_stampAll (hs : s.Ready) (err : Err) (n : Nat) (ps : List Stamp) :
    (s.answer err n (s.eng.stampAll ps)).Ready := by
  obtain ⟨hf, hv⟩ := hs
  exact ⟨(stampAll_fault ..).trans hf, by simpa [State.answer] using hv⟩

/-- A placement command on a Symbol that holds the stamps `ps` already. -/
theorem exec_placement_next {i : Instr} (hi : mnemonicOf i ∈ placementCommands) (hs : s.Ready) (ps : List Stamp) :
    exec i (s.answer .ok 0 (s.eng.stampAll ps)) =
      .next (s.answer .ok 0 (s.eng.stampAll (ps ++ stampsOf i s.cfg.align s.eng))) := by
  rw [exec_placement hi (ready_answer_stampAll hs ..), stampAll_append, ← stampsOf_stampAll i s.cfg.align s.eng ps]
  rfl

/-! ## Twice in a row (R191) -/

theorem exec_placement_faulted {i : Instr} (hi : mnemonicOf i ∈ placementCommands) (hf : s.eng.fault = true) :
    exec i s = .next (s.answer .faulted 0 s.eng) := by
  rw [exec_eq_place hi, place, gate_faulted hf, typedError_eq_answer]

theorem exec_placement_no_symbol {i : Instr} (hi : mnemonicOf i ∈ placementCommands) (hf : s.eng.fault = false)
    (hv : s.eng.version = 0) : exec i s = .next (s.answer .noSym 0 s.eng) := by
  rw [exec_eq_place hi, place, gate_serving hf, needSymbol_none hv, typedError_eq_answer]

/-- Settles O35: a command turned away is turned away again, and stamps applied twice leave what they left. -/
theorem placementsAreIdempotent : Obligations.PlacementsAreIdempotent := by
  intro i s t hi hg ht
  by_cases hf : s.eng.fault = true
  · rw [exec_placement_faulted hi hf] at ht
    cases ht
    exact exec_placement_faulted hi hf
  rw [Bool.not_eq_true] at hf
  by_cases hv : s.eng.version = 0
  · rw [exec_placement_no_symbol hi hf hv] at ht
    cases ht
    exact exec_placement_no_symbol hi hf hv
  · rw [exec_placement hi ⟨hf, hv⟩] at ht
    cases ht
    rw [exec_placement_next hi ⟨hf, hv⟩, stampAll_append, stampAll_stampAll hg]

/-! ## PLALL (R210) -/

/-- Settles O34: the stamps of PLALL are those of the six commands one after the other. -/
theorem plallIsTheSixCommands : Obligations.PlallIsTheSixCommands := by
  refine ⟨Laws.RoundTrip.plall rfl, fun s hs => ?_⟩
  have hmask : mnemonicOf (.plfmt s.eng.mask) ∈ placementCommands := by simp [mnemonicOf, placementCommands]
  refine ⟨_, _, _, _, _, _, exec_placement (by decide) hs, exec_placement_next (by decide) hs _,
    exec_placement_next (by decide) hs _, exec_placement_next hmask hs _, exec_placement_next (by decide) hs _,
    exec_placement_next (by decide) hs _, ?plall, ?frame⟩
  case plall =>
    rw [exec_placement (i := .plall) (by decide) hs]
    simp only [stampsOf, allStamps, width_of_symbol hs.2, sideOf_eq, State.answer]
  case frame =>
    rw [answer_eng]
    exact stampAll_sameButGrid ..

/-! ## Blocks of cells -/

theorem mem_squareCells {r0 c0 n : Nat} :
    (r, c) ∈ squareCells r0 c0 n ↔ (r0 ≤ r ∧ r < r0 + n) ∧ c0 ≤ c ∧ c < c0 + n := by
  simp only [squareCells, List.mem_flatMap, List.mem_map, List.mem_range, Prod.mk.injEq]
  constructor
  · rintro ⟨i, hi, j, hj, rfl, rfl⟩
    omega
  · rintro ⟨⟨hr, hr'⟩, hc, hc'⟩
    exact ⟨r - r0, by omega, c - c0, by omega, by omega, by omega⟩

/-! ## The finder patterns (R192, R193) -/

/-- The module value of a finder cell, from its centre (R192). -/
def finderDark (r c : Nat) (centre : Nat × Nat) : Bool :=
  decide (chebyshev r c centre.1 centre.2 = 0 ∨ chebyshev r c centre.1 centre.2 % 2 = 1)

theorem mem_finderAt {r0 c0 cr cc : Nat} : ⟨r, c, d, tg⟩ ∈ finderAt r0 c0 cr cc ↔
    ((r0 ≤ r ∧ r < r0 + 8) ∧ c0 ≤ c ∧ c < c0 + 8) ∧ d = finderDark r c (cr, cc) ∧ tg = .finder := by
  simp only [finderAt, List.mem_map, Prod.exists, mem_squareCells, Stamp.mk.injEq, finderDark]
  constructor
  · rintro ⟨r, c, h, rfl, rfl, rfl, rfl⟩
    exact ⟨h, rfl, rfl⟩
  · rintro ⟨h, rfl, rfl⟩
    exact ⟨r, c, h, rfl, rfl, rfl, rfl⟩

theorem finderCentre_eq_some_iff (hw : 16 ≤ w) {q : Nat × Nat} : finderCentre w r c = some q ↔
    (r < 8 ∧ c < 8) ∧ q = (3, 3) ∨ (r < 8 ∧ w - 8 ≤ c) ∧ q = (3, w - 4) ∨ (w - 8 ≤ r ∧ c < 8) ∧ q = (w - 4, 3) := by
  rw [finderCentre]
  split_ifs <;> grind

theorem mem_finderStamps (hw : 16 ≤ w) (hr : r < w) (hc : c < w) : ⟨r, c, d, tg⟩ ∈ finderStamps w ↔
    (∃ q, finderCentre w r c = some q ∧ d = finderDark r c q) ∧ tg = .finder := by
  have hrow : (w - 8 ≤ r ∧ r < w - 8 + 8) ↔ w - 8 ≤ r := by omega
  have hcol : (w - 8 ≤ c ∧ c < w - 8 + 8) ↔ w - 8 ≤ c := by omega
  simp only [finderStamps, List.mem_append, mem_finderAt, finderCentre_eq_some_iff hw, hrow, hcol, Nat.zero_le,
    true_and, Nat.zero_add, or_and_right, and_assoc, exists_or, exists_and_left, exists_eq_left, or_assoc]

/-! ## The timing patterns and the dark module (R194, R195, R209) -/

theorem mem_timingStamps : ⟨r, c, d, tg⟩ ∈ timingStamps w ↔
    OnTiming w r c ∧ d = decide (((if r = 6 then c else r) + 1) % 2 = 1) ∧ tg = .timing := by
  have hdark (i : Nat) : decide (i % 2 = 0) = decide ((i + 1) % 2 = 1) := decide_eq_decide.2 (by omega)
  simp only [timingStamps, hdark, List.mem_flatMap, List.mem_range, List.mem_cons, List.not_mem_nil, or_false,
    Stamp.mk.injEq, OnTiming]
  constructor
  · rintro ⟨k, hk, ⟨rfl, rfl, rfl, rfl⟩ | ⟨rfl, rfl, rfl, rfl⟩⟩
    · exact ⟨by omega, by rw [if_pos rfl], rfl⟩
    · exact ⟨by omega, by rw [if_neg (by omega)], rfl⟩
  · rintro ⟨⟨rfl, h8, hw⟩ | ⟨rfl, h8, hw⟩, rfl, rfl⟩
    · obtain ⟨k, rfl⟩ := Nat.exists_eq_add_of_le h8
      exact ⟨k, by omega, .inl ⟨rfl, rfl, by rw [if_pos rfl], rfl⟩⟩
    · obtain ⟨k, rfl⟩ := Nat.exists_eq_add_of_le h8
      exact ⟨k, by omega, .inr ⟨rfl, rfl, by rw [if_neg (by omega)], rfl⟩⟩

theorem mem_darkStamps {v : Nat} : ⟨r, c, d, tg⟩ ∈ darkStamps v ↔
    (r = 4 * v + 9 ∧ c = 8) ∧ d = true ∧ tg = .dark := by
  simp [darkStamps, and_assoc]

/-! ## PLFIND, PLTIME and PLDARK -/

/-- Settles O31: the cells of each pattern are the members of its list of stamps. -/
theorem finderTimingAndDarkCells : Obligations.FinderTimingAndDarkCells := by
  refine ⟨Laws.RoundTrip.plfind rfl, Laws.RoundTrip.pltime rfl, Laws.RoundTrip.pldark rfl, fun s hs hg => ?_⟩
  have hw := width_of_symbol hs.2
  have h16 : 16 ≤ s.eng.width := by omega
  refine ⟨⟨_, stampAll_sameButGrid .., stampAll_gridsOk _ hg, exec_placement (i := .plfind) (by decide) hs,
      fun r c hr hc => ?finder⟩,
    ⟨_, stampAll_sameButGrid .., stampAll_gridsOk _ hg, exec_placement (i := .pltime) (by decide) hs,
      fun r c hr hc => ?timing⟩,
    ⟨_, stampAll_sameButGrid .., stampAll_gridsOk _ hg, exec_placement (i := .pldark) (by decide) hs, ?dark,
      fun r c hr hc hne => ?others⟩⟩
  case finder =>
    refine ⟨fun cr cc hq => ?inside, fun hq => sameCell_stampAll fun d tg h => ?outside⟩
    case inside =>
      refine cellIs_stampAll hg hr hc ((mem_finderStamps h16 hr hc).2 ⟨⟨_, hq, rfl⟩, rfl⟩) fun d tg h => ?_
      obtain ⟨⟨q, hq', hd⟩, ht⟩ := (mem_finderStamps h16 hr hc).1 h
      cases hq.symm.trans hq'
      exact ⟨hd, ht⟩
    case outside =>
      obtain ⟨⟨q, hq', -⟩, -⟩ := (mem_finderStamps h16 hr hc).1 h
      cases hq.symm.trans hq'
  case timing =>
    exact ⟨fun hon => cellIs_stampAll hg hr hc (mem_timingStamps.2 ⟨hon, rfl, rfl⟩) fun d tg h =>
        (mem_timingStamps.1 h).2,
      fun hoff => sameCell_stampAll fun d tg h => hoff (mem_timingStamps.1 h).1⟩
  case dark =>
    exact cellIs_stampAll hg (by omega) (by omega) (mem_darkStamps.2 ⟨⟨rfl, rfl⟩, rfl, rfl⟩) fun d tg h =>
      (mem_darkStamps.1 h).2
  case others =>
    refine sameCell_stampAll fun d tg h => hne ?_
    obtain ⟨⟨rfl, rfl⟩, -⟩ := mem_darkStamps.1 h
    rfl

/-! ## The format pattern (R202, R204) -/

/-- Bit `i` of the format word stands on this cell (R202). -/
def OnFormatBit (w i : Nat) (q : Nat × Nat) : Prop := i < 15 ∧ (q = formatCopy1 i ∨ q = formatCopy2 w i)

theorem mem_formatStamps {word : BitVec 15} : ⟨r, c, d, tg⟩ ∈ formatStamps w word ↔
    ∃ i, OnFormatBit w i (r, c) ∧ d = word.getLsbD i ∧ tg = .format := by
  simp only [formatStamps, OnFormatBit, List.mem_flatMap, List.mem_range, List.mem_cons, List.not_mem_nil, or_false,
    Stamp.mk.injEq, Prod.ext_iff, and_assoc, or_and_right]

theorem formatCells1_eq : formatCells1 = (List.range 15).map formatCopy1 := by decide

theorem formatCells2_eq (hw : 15 ≤ w) : formatCells2 w = (List.range 15).map (formatCopy2 w) := by
  have h (i : Nat) (hi : i ≤ 15) : w - 15 + i = w - (15 - i) := by omega
  simp [formatCells2, List.range_succ, formatCopy2, h, Nat.sub_sub]

theorem onFormatBit_iff (hw : 15 ≤ w) {i : Nat} {q : Nat × Nat} :
    OnFormatBit w i q ↔ formatCells1[i]? = some q ∨ (formatCells2 w)[i]? = some q := by
  have h {f : Nat → Nat × Nat} : ((List.range 15).map f)[i]? = some q ↔ i < 15 ∧ q = f i := by
    simp [List.getElem?_eq_some_iff, @eq_comm _ q]
  rw [formatCells1_eq, formatCells2_eq hw, h, h, OnFormatBit, and_or_left]

theorem formatCopy1_le : ∀ i < 15, (formatCopy1 i).1 ≤ 8 ∧ (formatCopy1 i).2 ≤ 8 := by decide

theorem formatCopy1_injective : ∀ i < 15, ∀ j < 15, formatCopy1 i = formatCopy1 j → i = j := by decide

theorem formatCopy2_gt (hw : 21 ≤ w) {i : Nat} (hi : i < 15) : 8 < (formatCopy2 w i).1 ∨ 8 < (formatCopy2 w i).2 := by
  rw [formatCopy2]
  split <;> simp only <;> omega

theorem formatCopy2_injective (hw : 21 ≤ w) {i j : Nat} (hi : i < 15) (hj : j < 15)
    (h : formatCopy2 w i = formatCopy2 w j) : i = j := by
  simp only [formatCopy2] at h
  split at h <;> split at h <;> simp only [Prod.mk.injEq] at h <;> omega

theorem formatCopy1_ne_formatCopy2 (hw : 21 ≤ w) {i j : Nat} (hi : i < 15) (hj : j < 15) :
    formatCopy1 i ≠ formatCopy2 w j := by
  intro h
  have h1 := formatCopy1_le i hi
  have h2 := formatCopy2_gt hw hj
  rw [h] at h1
  omega

/-- No two bits stand on one cell. -/
theorem OnFormatBit.unique (hw : 21 ≤ w) {i j : Nat} {q : Nat × Nat} (hi : OnFormatBit w i q)
    (hj : OnFormatBit w j q) : i = j := by
  obtain ⟨hi, rfl | rfl⟩ := hi <;> obtain ⟨hj, h | h⟩ := hj
  · exact formatCopy1_injective i hi j hj h
  · exact absurd h (formatCopy1_ne_formatCopy2 hw hi hj)
  · exact absurd h.symm (formatCopy1_ne_formatCopy2 hw hj hi)
  · exact formatCopy2_injective hw hi hj h

theorem OnFormatBit.lt (hw : 21 ≤ w) {i : Nat} (h : OnFormatBit w i (r, c)) : r < w ∧ c < w := by
  obtain ⟨hi, h | h⟩ := h
  · have hle := formatCopy1_le i hi
    rw [← h] at hle
    simp only at hle
    omega
  · simp only [formatCopy2] at h
    split at h <;> simp only [Prod.mk.injEq] at h <;> omega

/-! ## The version pattern (R205, R207) -/

/-- Bit `i` of the version word stands on this cell (R205). -/
def OnVersionBit (w i : Nat) (q : Nat × Nat) : Prop :=
  i < 18 ∧ (q = (i / 3, w - 11 + i % 3) ∨ q = (w - 11 + i % 3, i / 3))

theorem versionStamps_of_lt {v : Nat} (h : v < 7) : versionStamps v = [] := if_pos h

theorem mem_versionStamps {v : Nat} (h : 7 ≤ v) : ⟨r, c, d, tg⟩ ∈ versionStamps v ↔
    ∃ i, OnVersionBit (sideOf v) i (r, c) ∧ d = (verword v).getLsbD i ∧ tg = .version := by
  rw [versionStamps, if_neg (by omega)]
  simp only [OnVersionBit, List.mem_flatMap, List.mem_range, List.mem_cons, List.not_mem_nil, or_false,
    Stamp.mk.injEq, Prod.mk.injEq, and_assoc, or_and_right]

theorem OnVersionBit.unique (hw : 21 ≤ w) {i j : Nat} {q : Nat × Nat} (hi : OnVersionBit w i q)
    (hj : OnVersionBit w j q) : i = j := by
  obtain ⟨hi, rfl | rfl⟩ := hi <;> obtain ⟨hj, h | h⟩ := hj <;> simp only [Prod.mk.injEq] at h <;> omega

theorem onVersionBit_upper {a b : Nat} (ha : a < 6) (hb : b < 3) : OnVersionBit w (3 * a + b) (a, w - 11 + b) :=
  ⟨by omega, .inl (Prod.ext (by simp only; omega) (by simp only; omega))⟩

theorem onVersionBit_lower {a b : Nat} (ha : a < 6) (hb : b < 3) : OnVersionBit w (3 * a + b) (w - 11 + b, a) :=
  ⟨by omega, .inr (Prod.ext (by simp only; omega) (by simp only; omega))⟩

/-! ## PLFMT and PLVER -/

/-- Settles O32: a cell of either word holds the bit that stands on it, and no two bits stand on one cell. -/
theorem formatAndVersionCells : Obligations.FormatAndVersionCells := by
  refine ⟨fun m hm => Laws.RoundTrip.plfmt m (decide_eq_true hm), Laws.RoundTrip.plver rfl,
    fun s m hs hg hm => ?format, fun s hs hg h7 => ?below, fun s hs hg h7 h40 => ?version⟩
  case format =>
    have hw : 21 ≤ s.eng.width := (width_odd hs.2).2
    have hi : mnemonicOf (.plfmt m) ∈ placementCommands := by simp [mnemonicOf, placementCommands]
    refine ⟨_, _, getElem?_formatWords s.eng.ecl m hm, stampAll_sameButGrid .., stampAll_gridsOk _ hg,
      exec_placement hi hs, fun i r c hon => ?bit, fun r c h1 h2 => sameCell_stampAll fun d tg h => ?outside⟩
    case bit =>
      have hon := (onFormatBit_iff (by omega)).2 hon
      obtain ⟨hr, hc⟩ := hon.lt hw
      refine cellIs_stampAll hg hr hc (mem_formatStamps.2 ⟨i, hon, rfl, rfl⟩) fun d tg h => ?_
      obtain ⟨j, hj, hd, ht⟩ := mem_formatStamps.1 h
      cases hon.unique hw hj
      exact ⟨hd, ht⟩
    case outside =>
      obtain ⟨i, hon, -⟩ := mem_formatStamps.1 h
      rcases (onFormatBit_iff (by omega)).1 hon with hi | hi
      · exact h1 (List.mem_of_getElem? hi)
      · exact h2 (List.mem_of_getElem? hi)
  case below =>
    rw [exec_placement (i := .plver) (by decide) hs, stampsOf, versionStamps_of_lt h7, stampAll_nil]
  case version =>
    have hw : s.eng.width = sideOf s.eng.version := width_of_symbol hs.2
    have h21 : 21 ≤ s.eng.width := (width_odd hs.2).2
    have bit {i r c : Nat} (hon : OnVersionBit s.eng.width i (r, c)) (hr : r < s.eng.width) (hc : c < s.eng.width) :
        (s.eng.stampAll (versionStamps s.eng.version)).cellIs r c ((verword s.eng.version).getLsbD i) .version := by
      rw [hw] at hon
      refine cellIs_stampAll hg hr hc ((mem_versionStamps h7).2 ⟨i, hon, rfl, rfl⟩) fun d tg h => ?_
      obtain ⟨j, hj, hd, ht⟩ := (mem_versionStamps h7).1 h
      cases hon.unique (hw ▸ h21) hj
      exact ⟨hd, ht⟩
    refine ⟨_, _, getElem?_versionWords _ h40 h7, stampAll_sameButGrid .., stampAll_gridsOk _ hg,
      exec_placement (i := .plver) (by decide) hs,
      fun a b ha hb => ⟨bit (onVersionBit_upper ha hb) (by omega) (by omega),
        bit (onVersionBit_lower ha hb) (by omega) (by omega)⟩,
      fun r c h1 h2 => sameCell_stampAll fun d tg h => ?_⟩
    obtain ⟨i, ⟨hi, hq⟩, -⟩ := (mem_versionStamps h7).1 h
    rw [← hw] at hq
    simp only [Prod.mk.injEq] at hq
    omega

end Sys2Proof.Machine
end

section
/-! PROOFS of 44_pattern_placer, the alignment patterns (R196 to R201). The coordinates are those of the table; they lie 12
or more apart, so a cell is near to one centre at most. -/

namespace Sys2Proof.Machine

variable {r c y x v : Nat} {d : Bool} {tg : Tag} {p : AlignTable}

/-! ## The alignment coordinates (R198, R199) -/

theorem alignCoords_eq_coordinateRow (p : AlignTable) :
    ∀ v ≤ 40, 1 ≤ v → alignCoords p v = coordinateRow p v := by
  cases p <;> decide

/-- Two coordinates are the same or 12 or more apart. -/
theorem alignCoords_apart (p : AlignTable) : ∀ v ≤ 40, ∀ a ∈ alignCoords p v, ∀ b ∈ alignCoords p v,
    a = b ∨ a + 12 ≤ b ∨ b + 12 ≤ a := by
  cases p <;> decide +kernel

/-- The first coordinate is 6 and the last is W - 7; version 1 has none. -/
theorem alignCoords_bounds (p : AlignTable) : ∀ v ≤ 40, 1 ≤ v → ∀ a ∈ alignCoords p v, 6 ≤ a ∧ a ≤ sideOf v - 7 := by
  cases p <;> decide +kernel

/-- Two coordinates within one pattern of a cell are the same. -/
theorem alignCoords_eq_of_near (h40 : v ≤ 40) {a b : Nat} (ha : a ∈ alignCoords p v) (hb : b ∈ alignCoords p v)
    (hya : absDiff y a ≤ 2) (hyb : absDiff y b ≤ 2) : a = b := by
  have hapart := alignCoords_apart p v h40 a ha b hb
  simp only [absDiff] at hya hyb
  omega

/-! ## The alignment patterns (R196, R200, R201) -/

theorem mem_alignCentres (h1 : 1 ≤ v) (h40 : v ≤ 40) : (r, c) ∈ alignCentres p v ↔ IsCentre p v r c := by
  have hside : sideOf v - 7 = 10 + 4 * v := by rw [sideOf_eq]; omega
  simp only [alignCentres, List.mem_filter, List.mem_flatMap, List.mem_map, IsCentre, hside, Prod.mk.injEq,
    decide_eq_true_eq, alignCoords_eq_coordinateRow p v h40 h1]
  simp [and_assoc]

/-- The module value of an alignment cell (y, x) about the centre (r, c) (R196). -/
def alignDark (y x r c : Nat) : Bool := decide ((chebyshev y x r c + 1) % 2 = 1)

theorem mem_alignAt (hr : 2 ≤ r) (hc : 2 ≤ c) : ⟨y, x, d, tg⟩ ∈ alignAt r c ↔
    (absDiff y r ≤ 2 ∧ absDiff x c ≤ 2) ∧ d = alignDark y x r c ∧ tg = .alignment := by
  have hnear {a b : Nat} (hb : 2 ≤ b) : (b - 2 ≤ a ∧ a < b - 2 + 5) ↔ absDiff a b ≤ 2 := by
    rw [absDiff]; omega
  simp only [alignAt, List.mem_map, Prod.exists, mem_squareCells, Stamp.mk.injEq, alignDark, hnear hr, hnear hc]
  constructor
  · rintro ⟨y, x, h, rfl, rfl, rfl, rfl⟩
    exact ⟨h, rfl, rfl⟩
  · rintro ⟨h, rfl, rfl⟩
    exact ⟨y, x, h, rfl, rfl, rfl, rfl⟩

theorem IsCentre.bounds (h1 : 1 ≤ v) (h40 : v ≤ 40) (h : IsCentre p v r c) :
    (6 ≤ r ∧ r ≤ sideOf v - 7) ∧ 6 ≤ c ∧ c ≤ sideOf v - 7 := by
  obtain ⟨hr, hc, -⟩ := h
  rw [← alignCoords_eq_coordinateRow p v h40 h1] at hr hc
  exact ⟨alignCoords_bounds p v h40 h1 r hr, alignCoords_bounds p v h40 h1 c hc⟩

theorem mem_alignStamps (h1 : 1 ≤ v) (h40 : v ≤ 40) : ⟨y, x, d, tg⟩ ∈ alignStamps p v ↔
    ∃ r c, IsCentre p v r c ∧ (absDiff y r ≤ 2 ∧ absDiff x c ≤ 2) ∧ d = alignDark y x r c ∧ tg = .alignment := by
  simp only [alignStamps, List.mem_flatMap, Prod.exists, mem_alignCentres h1 h40]
  refine exists_congr fun r => exists_congr fun c => and_congr_right fun h => ?_
  obtain ⟨⟨hr, -⟩, hc, -⟩ := h.bounds h1 h40
  exact mem_alignAt (by omega) (by omega)

/-- A cell lies in the pattern of one centre only. -/
theorem IsCentre.unique (h1 : 1 ≤ v) (h40 : v ≤ 40) {r' c' : Nat} (h : IsCentre p v r c) (h' : IsCentre p v r' c')
    (hn : absDiff y r ≤ 2 ∧ absDiff x c ≤ 2) (hn' : absDiff y r' ≤ 2 ∧ absDiff x c' ≤ 2) : r = r' ∧ c = c' := by
  obtain ⟨hr, hc, -⟩ := h
  obtain ⟨hr', hc', -⟩ := h'
  rw [← alignCoords_eq_coordinateRow p v h40 h1] at hr hc hr' hc'
  exact ⟨alignCoords_eq_of_near h40 hr hr' hn.1 hn'.1, alignCoords_eq_of_near h40 hc hc' hn.2 hn'.2⟩

/-- Settles O33: the coordinates by the table, the cells by the one centre each of them is near to. -/
theorem alignmentCells : Obligations.AlignmentCells := by
  refine ⟨Laws.RoundTrip.plalign rfl, fun p v h1 h40 => alignCoords_eq_coordinateRow p v h40 h1, fun s hs hg h40 => ?_⟩
  have h1 : 1 ≤ s.eng.version := Nat.pos_of_ne_zero hs.2
  refine ⟨_, stampAll_sameButGrid .., stampAll_gridsOk _ hg, exec_placement (i := .plalign) (by decide) hs,
    fun r c y x hq hy hx => ?near, fun y x hfar => sameCell_stampAll fun d tg h => ?far⟩
  case near =>
    obtain ⟨⟨hr, hr'⟩, hc, hc'⟩ := hq.bounds h1 h40
    have hw : s.eng.width = sideOf s.eng.version := width_of_symbol hs.2
    have hside := sideOf_eq s.eng.version
    have hyx : y < s.eng.width ∧ x < s.eng.width := by
      simp only [absDiff] at hy hx
      omega
    refine cellIs_stampAll hg hyx.1 hyx.2 ((mem_alignStamps h1 h40).2 ⟨r, c, hq, ⟨hy, hx⟩, rfl, rfl⟩) fun d tg h => ?_
    obtain ⟨r', c', hq', hn', hd, ht⟩ := (mem_alignStamps h1 h40).1 h
    obtain ⟨rfl, rfl⟩ := hq.unique h1 h40 hq' ⟨hy, hx⟩ hn'
    exact ⟨hd, ht⟩
  case far =>
    obtain ⟨r, c, hq, hn, -⟩ := (mem_alignStamps h1 h40).1 h
    exact hfar r c hq hn

end Sys2Proof.Machine
end

section
/-! PROOFS of 44_pattern_placer, CNTNONE and AVAIL (R212 to R215). The count goes row by row, so it is a sum by index; the
closed form has forty values. -/

namespace Sys2Proof.Machine

variable {s : State} {w : Nat} {tag : Grid Tag}

/-! ## CNTNONE and AVAIL (R212 to R215) -/

theorem exec_cntnone (hs : s.Ready) : exec .cntnone s = .next (s.answer .ok (countFree s.eng.tag) s.eng) := by
  obtain ⟨hf, hv⟩ := hs
  exact (gate_serving hf).trans ((needSymbol_some hv).trans (succeed_eq_answer _ s))

theorem exec_avail (hs : s.Ready) : exec .avail s = .next (s.answer .ok (avail s.eng.version) s.eng) := by
  obtain ⟨hf, hv⟩ := hs
  exact (gate_serving hf).trans ((needSymbol_some hv).trans (succeed_eq_answer _ s))

/-- The free cells of one row by index. -/
theorem countP_free_eq_countBelow (row : List Tag) :
    row.countP (fun t => t = .free) = countBelow row.length fun c => decide (row[c]? = some .free) := by
  have hcells : (List.range row.length).map (fun c => row[c]?) = row.map some :=
    List.ext_getElem (by simp) (by simp)
  calc row.countP (fun t => t = .free)
      = (row.map some).countP (fun t => t = some .free) := by simp [List.countP_map, Function.comp_def]
    _ = countBelow row.length fun c => decide (row[c]? = some .free) := by rw [← hcells, List.countP_map]; rfl

/-- The count of R212 by index. -/
theorem countFree_eq_sum (hg : Square w tag) : countFree tag =
    ((List.range w).map fun r => countBelow w fun c => decide (cellAt tag r c = some .free)).sum := by
  refine congrArg List.sum (List.ext_getElem (by simp [hg.1]) fun r hr _ => ?_)
  have hr : r < tag.length := by simpa using hr
  have hlen : tag[r].length = w := hg.2 _ (List.getElem_mem hr)
  simp [countP_free_eq_countBelow, hlen, cellAt, hr]

theorem getElem?_availValues : ∀ v ≤ 40, 1 ≤ v → availValues[v - 1]? = some (avail v) := by decide

/-- No difference of the closed form is cut off at 0. -/
theorem avail_eq_int : ∀ v ≤ 40, 1 ≤ v → (avail v : Int) = sideOf v * sideOf v - 192
    - (if 2 ≤ v then 25 * ((alignCount v : Int) * alignCount v - 3) - 10 * ((alignCount v : Int) - 2) else 0)
    - 2 * ((sideOf v : Int) - 16) - 30 - 1 - (if 7 ≤ v then 36 else 0) := by decide +kernel

/-- Settles O36: the count by index, the closed form by its forty values. -/
theorem cntnoneAndAvail : Obligations.CntnoneAndAvail := by
  refine ⟨Laws.RoundTrip.cntnone rfl, Laws.RoundTrip.avail rfl, fun s hs hg => ?count, fun s hs h40 => ?closed⟩
  case count => rw [exec_cntnone hs, countFree_eq_sum hg.2]
  case closed =>
    have h1 : 1 ≤ s.eng.version := Nat.pos_of_ne_zero hs.2
    exact ⟨_, _, _, sideOf_eq _, rfl, avail_eq_int _ h40 h1, getElem?_availValues _ h40 h1, exec_avail hs⟩

end Sys2Proof.Machine
end

section
/-! PROOFS of 44_pattern_placer, the count of free cells (R216). The cells of each pattern are a set of cells given by
inequalities (`finderCells` and the rest; the alignment patterns are a product of bands less the three corners). The sets
are disjoint but for the alignment patterns on the timing lines (R211), so the reserved cells number as in R213; the
other cells are free, and as none of them is in column 6 they are the order of the walk (45_data_walker R240). -/

namespace Sys2Proof.Machine

open Finset

variable {e : Engine} {ps : List Stamp} {w r c y v : Nat} {tag : Grid Tag} {p : AlignTable}

/-! ## Free cells as a set -/

theorem isFree_iff : isFree tag r c = true ↔ cellAt tag r c = some .free := by
  unfold isFree
  split <;> simp_all

/-- The free cells of an array of side `w`. -/
def freeCells (w : Nat) (tag : Grid Tag) : Finset (Nat × Nat) :=
  (range w ×ˢ range w).filter fun q => isFree tag q.1 q.2 = true

theorem card_freeCells (hg : Square w tag) : (freeCells w tag).card = countFree tag := by
  rw [countFree_eq_sum hg, freeCells, card_filter, sum_product]
  have hrow (r : Nat) : (∑ c ∈ range w, if isFree tag r c = true then 1 else 0) =
      countBelow w fun c => decide (cellAt tag r c = some .free) := by
    simp only [isFree_iff, ← card_filter, countBelow, List.countP_eq_length_filter]
    rfl
  simp only [hrow]
  rfl

/-- Some stamp of the list lies on the cell. -/
def Covers (ps : List Stamp) (r c : Nat) : Prop := ∃ d tg, ⟨r, c, d, tg⟩ ∈ ps

theorem covers_append {qs : List Stamp} : Covers (ps ++ qs) r c ↔ Covers ps r c ∨ Covers qs r c := by
  simp only [Covers, List.mem_append, exists_or]

/-- A cell of a blank Symbol is free after stamps that reserve exactly when none of them lies on it. -/
theorem isFree_stampAll_blank (hp : Reserves ps) (ht : e.tag = blankGrid w .free) :
    isFree (e.stampAll ps).tag r c = true ↔ (r < w ∧ c < w) ∧ ¬ Covers ps r c := by
  rw [isFree_iff, cellAt_tag_stampAll, ht, cellAt_blankGrid]
  by_cases hin : r < w ∧ c < w
  case neg => simp [hin]
  rw [if_pos hin, Option.map_some, Option.some.injEq]
  cases hl : lastStamp ps r c with
  | none => exact iff_of_true rfl ⟨hin, fun ⟨_, _, h⟩ => lastStamp_ne_none h hl⟩
  | some q =>
    obtain ⟨rfl, rfl⟩ := lastStamp_on_cell hl
    exact iff_of_false (hp q (lastStamp_mem hl)) fun h => h.2 ⟨_, _, lastStamp_mem hl⟩

/-! ## The cells of each pattern -/

/-- The three finder areas (R192). -/
def finderCells (w : Nat) : Finset (Nat × Nat) :=
  range 8 ×ˢ range 8 ∪ range 8 ×ˢ Ico (w - 8) w ∪ Ico (w - 8) w ×ˢ range 8

/-- The timing patterns (R194). -/
def timingCells (w : Nat) : Finset (Nat × Nat) := {6} ×ˢ Ico 8 (w - 8) ∪ Ico 8 (w - 8) ×ˢ {6}

/-- The two format copies (R202). -/
def formatArea (w : Nat) : Finset (Nat × Nat) := (range 15).image formatCopy1 ∪ (range 15).image (formatCopy2 w)

/-- The two version blocks (R205). -/
def versionArea (v : Nat) : Finset (Nat × Nat) :=
  if v < 7 then ∅
  else range 6 ×ˢ Ico (sideOf v - 11) (sideOf v - 8) ∪ Ico (sideOf v - 11) (sideOf v - 8) ×ˢ range 6

/-- The dark module (R208). -/
def darkCell (w : Nat) : Finset (Nat × Nat) := {(w - 8, 8)}

theorem covers_finderStamps (hw : 16 ≤ w) (hr : r < w) (hc : c < w) :
    Covers (finderStamps w) r c ↔ (r, c) ∈ finderCells w := by
  have hcentre : Covers (finderStamps w) r c ↔ ∃ q, finderCentre w r c = some q := by
    simp only [Covers, mem_finderStamps hw hr hc]
    exact ⟨fun ⟨_, _, ⟨q, hq, _⟩, _⟩ => ⟨q, hq⟩, fun ⟨q, hq⟩ => ⟨_, _, ⟨q, hq, rfl⟩, rfl⟩⟩
  rw [hcentre]
  simp [finderCentre_eq_some_iff hw, finderCells, hr, hc, exists_or]

theorem covers_timingStamps : Covers (timingStamps w) r c ↔ (r, c) ∈ timingCells w := by
  simp only [Covers, mem_timingStamps, OnTiming, exists_and_left, exists_eq, and_true, timingCells, mem_union, mem_product,
    mem_Ico, mem_singleton]
  omega

theorem covers_formatStamps {word : BitVec 15} : Covers (formatStamps w word) r c ↔ (r, c) ∈ formatArea w := by
  simp only [Covers, mem_formatStamps, formatArea, mem_union, mem_image, mem_range]
  constructor
  · rintro ⟨d, tg, i, ⟨hi, h | h⟩, -⟩
    · exact .inl ⟨i, hi, h.symm⟩
    · exact .inr ⟨i, hi, h.symm⟩
  · rintro (⟨i, hi, h⟩ | ⟨i, hi, h⟩)
    · exact ⟨_, _, i, ⟨hi, .inl h.symm⟩, rfl, rfl⟩
    · exact ⟨_, _, i, ⟨hi, .inr h.symm⟩, rfl, rfl⟩

theorem covers_versionStamps : Covers (versionStamps v) r c ↔ (r, c) ∈ versionArea v := by
  rw [versionArea]
  split
  next h => simp [Covers, versionStamps_of_lt h]
  next h =>
    have hside := sideOf_eq v
    simp only [Covers, mem_versionStamps (Nat.le_of_not_lt h), mem_union, mem_product, mem_range, mem_Ico]
    constructor
    · rintro ⟨d, tg, i, ⟨hi, hq⟩, -⟩
      simp only [Prod.mk.injEq] at hq
      omega
    · rintro (⟨hr, hc⟩ | ⟨hr, hc⟩)
      · obtain ⟨b, rfl⟩ := Nat.exists_eq_add_of_le hc.1
        exact ⟨_, _, _, onVersionBit_upper hr (by omega), rfl, rfl⟩
      · obtain ⟨b, rfl⟩ := Nat.exists_eq_add_of_le hr.1
        exact ⟨_, _, _, onVersionBit_lower hc (by omega), rfl, rfl⟩

theorem covers_darkStamps : Covers (darkStamps v) r c ↔ (r, c) ∈ darkCell (sideOf v) := by
  have hside := sideOf_eq v
  simp only [Covers, mem_darkStamps, exists_and_left, exists_eq, and_true, darkCell, mem_singleton, Prod.mk.injEq]
  omega

/-! ## The cells of the alignment patterns (R200) -/

/-- The rows, or the columns, of a pattern about the coordinate `a`. -/
def band (a : Nat) : Finset Nat := Ico (a - 2) (a + 3)

/-- The rows, or the columns, of all patterns. -/
def bands (p : AlignTable) (v : Nat) : Finset Nat := (alignCoords p v).toFinset.biUnion band

/-- The three patterns that would fall on a finder. -/
def alignCorners (v : Nat) : Finset (Nat × Nat) :=
  band 6 ×ˢ band 6 ∪ band 6 ×ˢ band (sideOf v - 7) ∪ band (sideOf v - 7) ×ˢ band 6

/-- The patterns are the product of the bands less the three corners. -/
def alignCells (p : AlignTable) (v : Nat) : Finset (Nat × Nat) := bands p v ×ˢ bands p v \ alignCorners v

/-- The bands between the first and the last. -/
def innerBands (p : AlignTable) (v : Nat) : Finset Nat := bands p v \ (band 6 ∪ band (sideOf v - 7))

theorem mem_band {a : Nat} (ha : 2 ≤ a) : y ∈ band a ↔ absDiff y a ≤ 2 := by
  rw [band, mem_Ico, absDiff]
  omega

theorem card_band {a : Nat} (ha : 6 ≤ a) : (band a).card = 5 := by
  rw [band, Nat.card_Ico]
  omega

theorem alignCoords_ends (p : AlignTable) :
    ∀ v ≤ 40, alignCoords p v ≠ [] → 6 ∈ alignCoords p v ∧ sideOf v - 7 ∈ alignCoords p v := by
  cases p <;> decide +kernel

theorem alignCoords_nodup (p : AlignTable) : ∀ v ≤ 40, (alignCoords p v).Nodup := by
  cases p <;> decide +kernel

theorem alignCoords_length (p : AlignTable) : ∀ v ≤ 40, 1 ≤ v → (alignCoords p v).length = alignCount v := by
  cases p <;> decide +kernel

section Alignment

variable (h1 : 1 ≤ v) (h40 : v ≤ 40)
include h1 h40

theorem mem_bands : y ∈ bands p v ↔ ∃ a ∈ alignCoords p v, absDiff y a ≤ 2 := by
  simp only [bands, mem_biUnion, List.mem_toFinset]
  refine exists_congr fun a => and_congr_right fun ha => mem_band ?_
  have := alignCoords_bounds p v h40 h1 a ha
  omega

/-- The pattern of `a` has the rows of the band of a coordinate `b` only when it is that of `b`. -/
theorem mem_band_iff_eq {a b : Nat} (ha : a ∈ alignCoords p v) (hb : b ∈ alignCoords p v) (hy : absDiff y a ≤ 2) :
    y ∈ band b ↔ a = b := by
  have hb2 := alignCoords_bounds p v h40 h1 b hb
  rw [mem_band (by omega)]
  exact ⟨fun hyb => alignCoords_eq_of_near h40 ha hb hy hyb, fun h => h ▸ hy⟩

theorem covers_alignStamps : Covers (alignStamps p v) r c ↔ (r, c) ∈ alignCells p v := by
  have hside : sideOf v - 7 = 10 + 4 * v := by rw [sideOf_eq]; omega
  simp only [Covers, mem_alignStamps h1 h40, alignCells, alignCorners, mem_sdiff, mem_union, mem_product, mem_bands h1 h40]
  constructor
  · rintro ⟨d, tg, a, b, ⟨ha, hb, hne⟩, ⟨hya, hxb⟩, -⟩
    rw [← alignCoords_eq_coordinateRow p v h40 h1] at ha hb
    obtain ⟨hfirst, hlast⟩ := alignCoords_ends p v h40 (List.ne_nil_of_mem ha)
    refine ⟨⟨⟨a, ha, hya⟩, b, hb, hxb⟩, ?_⟩
    rw [mem_band_iff_eq h1 h40 ha hfirst hya, mem_band_iff_eq h1 h40 hb hfirst hxb, mem_band_iff_eq h1 h40 ha hlast hya,
      mem_band_iff_eq h1 h40 hb hlast hxb, hside]
    simp only [ne_eq, Prod.mk.injEq] at hne
    tauto
  · rintro ⟨⟨⟨a, ha, hya⟩, b, hb, hxb⟩, hne⟩
    obtain ⟨hfirst, hlast⟩ := alignCoords_ends p v h40 (List.ne_nil_of_mem ha)
    rw [mem_band_iff_eq h1 h40 ha hfirst hya, mem_band_iff_eq h1 h40 hb hfirst hxb, mem_band_iff_eq h1 h40 ha hlast hya,
      mem_band_iff_eq h1 h40 hb hlast hxb, hside] at hne
    rw [alignCoords_eq_coordinateRow p v h40 h1] at ha hb
    refine ⟨_, _, a, b, ⟨ha, hb, ?_⟩, ⟨hya, hxb⟩, rfl, rfl⟩
    simp only [ne_eq, Prod.mk.injEq]
    tauto

/-- A row or column of a pattern is one of the first, of the last, or between them. -/
theorem cases_of_mem_bands (hy : y ∈ bands p v) : 2 ≤ v ∧
    (4 ≤ y ∧ y ≤ 8 ∨ sideOf v - 9 ≤ y ∧ y ≤ sideOf v - 5 ∨ 16 ≤ y ∧ y ≤ sideOf v - 17) := by
  obtain ⟨a, ha, hya⟩ := (mem_bands h1 h40).1 hy
  obtain ⟨hfirst, hlast⟩ := alignCoords_ends p v h40 (List.ne_nil_of_mem ha)
  have hside := sideOf_eq v
  have hafirst := alignCoords_apart p v h40 a ha _ hfirst
  have halast := alignCoords_apart p v h40 a ha _ hlast
  have hbounds := alignCoords_bounds p v h40 h1 a ha
  have hv : v ≠ 1 := by
    rintro rfl
    cases p <;> simp [alignCoords, formulaCoords] at ha
  rw [absDiff] at hya
  omega

theorem card_bands : (bands p v).card = 5 * alignCount v := by
  have hdisjoint : ((alignCoords p v).toFinset : Set Nat).PairwiseDisjoint band := by
    intro a ha b hb hab
    rw [mem_coe, List.mem_toFinset] at ha hb
    refine disjoint_left.2 fun y hya hyb => hab ((mem_band_iff_eq h1 h40 ha hb ?_).1 hyb)
    have hbounds := alignCoords_bounds p v h40 h1 a ha
    exact (mem_band (by omega)).1 hya
  have hcard : ∀ a ∈ (alignCoords p v).toFinset, (band a).card = 5 := fun a ha =>
    card_band (alignCoords_bounds p v h40 h1 a (List.mem_toFinset.1 ha)).1
  rw [bands, card_biUnion hdisjoint, sum_const_nat hcard, List.toFinset_card_of_nodup (alignCoords_nodup p v h40),
    alignCoords_length p v h40 h1, Nat.mul_comm]

end Alignment

section Overlap

variable (h2 : 2 ≤ v) (h40 : v ≤ 40)
include h2

theorem alignCount_ge_two : 2 ≤ alignCount v := by
  rw [alignCount, if_neg (by omega)]
  omega

theorem disjoint_ends : Disjoint (band 6) (band (sideOf v - 7)) := by
  have hside := sideOf_eq v
  refine disjoint_left.2 fun y h6 hlast => ?_
  rw [band, mem_Ico] at h6 hlast
  omega

theorem card_alignCorners : (alignCorners v).card = 75 := by
  have hside := sideOf_eq v
  have hfirst : (band 6).card = 5 := card_band (Nat.le_refl 6)
  have hlast : (band (sideOf v - 7)).card = 5 := card_band (by omega)
  have hends := disjoint_ends h2
  rw [alignCorners, card_union_of_disjoint, card_union_of_disjoint, card_product, card_product, card_product, hfirst,
    hlast]
  · exact disjoint_product.2 (.inr hends)
  · exact disjoint_union_left.2 ⟨disjoint_product.2 (.inl hends), disjoint_product.2 (.inl hends)⟩

include h40

theorem ends_subset_bands : band 6 ⊆ bands p v ∧ band (sideOf v - 7) ⊆ bands p v := by
  have hne : alignCoords p v ≠ [] := by
    have hlength := alignCoords_length p v h40 (by omega)
    have hcount := alignCount_ge_two h2
    rintro hnil
    rw [hnil, List.length_nil] at hlength
    omega
  obtain ⟨hfirst, hlast⟩ := alignCoords_ends p v h40 hne
  exact ⟨subset_biUnion_of_mem band (List.mem_toFinset.2 hfirst), subset_biUnion_of_mem band (List.mem_toFinset.2 hlast)⟩

theorem card_alignCells : (alignCells p v).card = 25 * (alignCount v * alignCount v - 3) := by
  obtain ⟨hfirst, hlast⟩ := ends_subset_bands (p := p) h2 h40
  have hsub : alignCorners v ⊆ bands p v ×ˢ bands p v :=
    union_subset (union_subset (product_subset_product hfirst hfirst) (product_subset_product hfirst hlast))
      (product_subset_product hlast hfirst)
  rw [alignCells, card_sdiff_of_subset hsub, card_product, card_bands (by omega) h40, card_alignCorners h2,
    Nat.mul_mul_mul_comm]
  omega

theorem card_innerBands : (innerBands p v).card = 5 * (alignCount v - 2) := by
  obtain ⟨hfirst, hlast⟩ := ends_subset_bands (p := p) h2 h40
  have hside := sideOf_eq v
  rw [innerBands, card_sdiff_of_subset (union_subset hfirst hlast), card_union_of_disjoint (disjoint_ends h2),
    card_band (Nat.le_refl 6), card_band (by omega), card_bands (by omega) h40]
  omega

/-- The alignment patterns meet the timing lines in row 6 and column 6 of the patterns between the first and the last
(R211). -/
theorem alignCells_inter_timingCells : alignCells p v ∩ timingCells (sideOf v) =
    {6} ×ˢ innerBands p v ∪ innerBands p v ×ˢ {6} := by
  have h6 : 6 ∈ bands p v := (ends_subset_bands h2 h40).1 (by decide)
  have hside := sideOf_eq v
  have hcases {y : Nat} (hy : y ∈ bands p v) := cases_of_mem_bands (by omega) h40 hy
  ext ⟨r, c⟩
  simp only [alignCells, alignCorners, timingCells, innerBands, band, mem_inter, mem_sdiff, mem_union, mem_product,
    mem_singleton, mem_Ico]
  grind

theorem card_alignCells_inter_timingCells : (alignCells p v ∩ timingCells (sideOf v)).card = 10 * (alignCount v - 2) := by
  have h6 : 6 ∉ innerBands p v := fun h => (mem_sdiff.1 h).2 (mem_union_left _ (by decide))
  have hdisjoint : Disjoint ({6} ×ˢ innerBands p v) (innerBands p v ×ˢ {6}) :=
    disjoint_product.2 (.inl (disjoint_singleton_left.2 h6))
  rw [alignCells_inter_timingCells h2 h40, card_union_of_disjoint hdisjoint, card_product, card_product, card_singleton,
    card_innerBands h2 h40]
  omega

end Overlap

/-! ## The number of reserved cells (R213) -/

theorem disjoint_range_Ico {m a b : Nat} (h : m ≤ a) : Disjoint (range m) (Ico a b) :=
  disjoint_left.2 fun y hy hy' => by
    rw [mem_range] at hy
    rw [mem_Ico] at hy'
    omega

theorem card_finderCells (hw : 21 ≤ w) : (finderCells w).card = 192 := by
  have hdisjoint : Disjoint (range 8) (Ico (w - 8) w) := disjoint_range_Ico (by omega)
  rw [finderCells, card_union_of_disjoint, card_union_of_disjoint (disjoint_product.2 (.inr hdisjoint)), card_product,
    card_product, card_product, card_range, Nat.card_Ico]
  · omega
  · exact disjoint_union_left.2 ⟨disjoint_product.2 (.inl hdisjoint), disjoint_product.2 (.inl hdisjoint)⟩

theorem card_timingCells : (timingCells w).card = 2 * (w - 16) := by
  rw [timingCells, card_union_of_disjoint (disjoint_product.2 (.inl (by simp))), card_product, card_product, card_singleton,
    Nat.card_Ico]
  omega

theorem card_formatArea (hw : 21 ≤ w) : (formatArea w).card = 30 := by
  have hdisjoint : Disjoint ((range 15).image formatCopy1) ((range 15).image (formatCopy2 w)) := by
    refine disjoint_left.2 fun q h1 h2 => ?_
    obtain ⟨i, hi, rfl⟩ := mem_image.1 h1
    obtain ⟨j, hj, h⟩ := mem_image.1 h2
    exact formatCopy1_ne_formatCopy2 hw (mem_range.1 hi) (mem_range.1 hj) h.symm
  have hcopy1 : ((range 15).image formatCopy1).card = 15 := by decide
  have hcopy2 : ((range 15).image (formatCopy2 w)).card = 15 :=
    card_image_of_injOn fun i hi j hj => formatCopy2_injective hw (mem_range.1 hi) (mem_range.1 hj)
  rw [formatArea, card_union_of_disjoint hdisjoint, hcopy1, hcopy2]

theorem card_versionArea : (versionArea v).card = if 7 ≤ v then 36 else 0 := by
  have hside := sideOf_eq v
  rw [versionArea]
  split
  next h => rw [if_neg (by omega), card_empty]
  next h =>
    have hdisjoint : Disjoint (range 6) (Ico (sideOf v - 11) (sideOf v - 8)) := disjoint_range_Ico (by omega)
    rw [card_union_of_disjoint (disjoint_product.2 (.inl hdisjoint)), card_product, card_product, card_range, Nat.card_Ico,
      if_pos (by omega)]
    omega

theorem card_alignCells_union_timingCells (h1 : 1 ≤ v) (h40 : v ≤ 40) :
    (alignCells p v ∪ timingCells (sideOf v)).card = 2 * (sideOf v - 16) +
      (if 2 ≤ v then 25 * (alignCount v * alignCount v - 3) - 10 * (alignCount v - 2) else 0) := by
  by_cases h2 : 2 ≤ v
  · have hunion := card_union_add_card_inter (alignCells p v) (timingCells (sideOf v))
    rw [card_alignCells h2 h40, card_timingCells, card_alignCells_inter_timingCells h2 h40] at hunion
    have hfew : 10 * (alignCount v - 2) ≤ 25 * (alignCount v * alignCount v - 3) := by
      have := alignCount_ge_two h2
      have := Nat.mul_le_mul_right (alignCount v) this
      omega
    rw [if_pos h2]
    omega
  · have hnone : alignCells p v = ∅ := eq_empty_of_forall_notMem fun q hq =>
      h2 (cases_of_mem_bands h1 h40 (mem_product.1 (mem_sdiff.1 hq).1).1).1
    rw [hnone, empty_union, card_timingCells, if_neg h2, Nat.add_zero]

/-- The cells of the six patterns. -/
def reservedCells (p : AlignTable) (v : Nat) : Finset (Nat × Nat) :=
  finderCells (sideOf v) ∪ timingCells (sideOf v) ∪ alignCells p v ∪ formatArea (sideOf v) ∪ versionArea v
    ∪ darkCell (sideOf v)

theorem covers_allStamps (h1 : 1 ≤ v) (h40 : v ≤ 40) (hr : r < sideOf v) (hc : c < sideOf v) {lv : Level} {m : Nat} :
    Covers (allStamps p v lv m) r c ↔ (r, c) ∈ reservedCells p v := by
  have hside := sideOf_eq v
  simp only [allStamps, reservedCells, covers_append, mem_union, covers_finderStamps (w := sideOf v) (by omega) hr hc,
    covers_timingStamps, covers_alignStamps h1 h40, covers_formatStamps, covers_versionStamps, covers_darkStamps]

theorem of_mem_formatArea (hw : 21 ≤ w) (h : (r, c) ∈ formatArea w) :
    r = 8 ∧ (c ≤ 8 ∧ c ≠ 6 ∨ w - 8 ≤ c ∧ c < w) ∨ c = 8 ∧ (r ≤ 8 ∧ r ≠ 6 ∨ w - 7 ≤ r ∧ r < w) := by
  have hcopy1 : ∀ i < 15, (formatCopy1 i).1 = 8 ∧ (formatCopy1 i).2 ≤ 8 ∧ (formatCopy1 i).2 ≠ 6 ∨
      (formatCopy1 i).2 = 8 ∧ (formatCopy1 i).1 ≤ 8 ∧ (formatCopy1 i).1 ≠ 6 := by decide
  rcases mem_union.1 h with h | h
  · obtain ⟨i, hi, h⟩ := mem_image.1 h
    have hi := hcopy1 i (mem_range.1 hi)
    simp only [h] at hi
    omega
  · obtain ⟨i, hi, h⟩ := mem_image.1 h
    rw [mem_range] at hi
    rw [formatCopy2] at h
    split at h <;> simp only [Prod.mk.injEq] at h <;> omega

theorem of_mem_versionArea (h : (r, c) ∈ versionArea v) : 7 ≤ v ∧
    (r < 6 ∧ sideOf v - 11 ≤ c ∧ c < sideOf v - 8 ∨ c < 6 ∧ sideOf v - 11 ≤ r ∧ r < sideOf v - 8) := by
  rw [versionArea] at h
  split at h
  next => simp at h
  next =>
    simp only [mem_union, mem_product, mem_range, mem_Ico] at h
    omega

theorem of_mem_finderCells (hw : 21 ≤ w) (h : (r, c) ∈ finderCells w) :
    (r < w ∧ c < w) ∧ (r < 8 ∧ (c < 8 ∨ w - 8 ≤ c) ∨ c < 8 ∧ w - 8 ≤ r) := by
  simp only [finderCells, mem_union, mem_product, mem_range, mem_Ico] at h
  omega

/-- An alignment cell lies between the ends in its row or in its column, or at the last in both. -/
theorem of_mem_alignCells (h1 : 1 ≤ v) (h40 : v ≤ 40) (h : (r, c) ∈ alignCells p v) :
    ((4 ≤ r ∧ r ≤ sideOf v - 5) ∧ 4 ≤ c ∧ c ≤ sideOf v - 5) ∧
    (16 ≤ r ∧ r ≤ sideOf v - 17 ∨ 16 ≤ c ∧ c ≤ sideOf v - 17 ∨ sideOf v - 9 ≤ r ∧ sideOf v - 9 ≤ c) := by
  have hside := sideOf_eq v
  obtain ⟨hin, hcorner⟩ := mem_sdiff.1 h
  obtain ⟨hr, hc⟩ := mem_product.1 hin
  obtain ⟨h2, hr⟩ := cases_of_mem_bands h1 h40 hr
  obtain ⟨-, hc⟩ := cases_of_mem_bands h1 h40 hc
  simp only [alignCorners, band, mem_union, mem_product, mem_Ico] at hcorner
  refine ⟨by omega, ?_⟩
  rcases hr with hr | hr | hr
  · rcases hc with hc | hc | hc
    · exact absurd (.inl (.inl (by omega))) hcorner
    · exact absurd (.inl (.inr (by omega))) hcorner
    · exact .inr (.inl hc)
  · rcases hc with hc | hc | hc
    · exact absurd (.inr (by omega)) hcorner
    · exact .inr (.inr (by omega))
    · exact .inr (.inl hc)
  · exact .inl hr

theorem of_mem_alignCells_union_timingCells (h1 : 1 ≤ v) (h40 : v ≤ 40)
    (h : (r, c) ∈ alignCells p v ∪ timingCells (sideOf v)) :
    ((4 ≤ r ∧ r ≤ sideOf v - 5) ∧ 4 ≤ c ∧ c ≤ sideOf v - 5) ∧
    ((16 ≤ r ∧ r ≤ sideOf v - 17 ∨ 16 ≤ c ∧ c ≤ sideOf v - 17 ∨ sideOf v - 9 ≤ r ∧ sideOf v - 9 ≤ c) ∨
      r = 6 ∧ 8 ≤ c ∧ c < sideOf v - 8 ∨ c = 6 ∧ 8 ≤ r ∧ r < sideOf v - 8) := by
  have hside := sideOf_eq v
  rcases mem_union.1 h with h | h
  · exact (of_mem_alignCells h1 h40 h).imp_right .inl
  · simp only [timingCells, mem_union, mem_product, mem_singleton, mem_Ico] at h
    exact ⟨by omega, .inr (by omega)⟩

theorem card_reservedCells (h1 : 1 ≤ v) (h40 : v ≤ 40) : (reservedCells p v).card =
    192 + (2 * (sideOf v - 16) +
      (if 2 ≤ v then 25 * (alignCount v * alignCount v - 3) - 10 * (alignCount v - 2) else 0)) + 30 +
      (if 7 ≤ v then 36 else 0) + 1 := by
  have hside := sideOf_eq v
  have h21 : 21 ≤ sideOf v := by omega
  have halign {q : Nat × Nat} (h : q ∈ alignCells p v ∪ timingCells (sideOf v)) :=
    of_mem_alignCells_union_timingCells h1 h40 h
  have hfinder {q : Nat × Nat} (h : q ∈ finderCells (sideOf v)) := of_mem_finderCells h21 h
  have hformat {q : Nat × Nat} (h : q ∈ formatArea (sideOf v)) := of_mem_formatArea h21 h
  have hversion {q : Nat × Nat} (h : q ∈ versionArea v) := of_mem_versionArea h
  rw [reservedCells, union_assoc (finderCells _), union_comm (timingCells _), card_union_of_disjoint ?dark,
    card_union_of_disjoint ?version, card_union_of_disjoint ?format, card_union_of_disjoint ?align, card_finderCells h21,
    card_alignCells_union_timingCells h1 h40, card_formatArea h21, card_versionArea, darkCell, card_singleton]
  case align =>
    refine disjoint_left.2 fun q hf ha => ?_
    have hf := hfinder hf
    have ha := halign ha
    omega
  case format =>
    refine disjoint_left.2 fun q h hm => ?_
    have hm := hformat hm
    simp only [mem_union (s := finderCells _)] at h
    rcases h with h | h
    · have h := hfinder h
      omega
    · have h := halign h
      omega
  case version =>
    refine disjoint_left.2 fun q h hv => ?_
    have hv := hversion hv
    simp only [mem_union (s := finderCells _), mem_union (t := formatArea _)] at h
    rcases h with (h | h) | h
    · have h := hfinder h
      omega
    · have h := halign h
      omega
    · have h := hformat h
      omega
  case dark =>
    refine disjoint_left.2 fun q h hd => ?_
    rw [darkCell, mem_singleton] at hd
    subst hd
    simp only [mem_union (s := finderCells _), mem_union (t := formatArea _), mem_union (t := versionArea _)] at h
    rcases h with ((h | h) | h) | h
    · have h := hfinder h
      omega
    · have h := halign h
      omega
    · have h := hformat h
      omega
    · have h := hversion h
      omega

theorem reservedCells_subset (h1 : 1 ≤ v) (h40 : v ≤ 40) :
    reservedCells p v ⊆ range (sideOf v) ×ˢ range (sideOf v) := by
  have hside := sideOf_eq v
  intro q h
  rw [mem_product, mem_range, mem_range]
  rw [reservedCells, union_assoc (finderCells _), union_comm (timingCells _)] at h
  simp only [mem_union (s := finderCells _), mem_union (t := formatArea _), mem_union (t := versionArea _),
    mem_union (t := darkCell _)] at h
  rcases h with (((h | h) | h) | h) | h
  · have h := of_mem_finderCells (by omega) h
    omega
  · have h := of_mem_alignCells_union_timingCells h1 h40 h
    omega
  · have h := of_mem_formatArea (by omega) h
    omega
  · have h := of_mem_versionArea h
    omega
  · rw [darkCell, mem_singleton] at h
    subst h
    omega

/-! ## The free cells after PLALL (R216) -/

/-- A blank Symbol after the six patterns. -/
def patterned (e : Engine) (p : AlignTable) (lv : Level) (v : Nat) : Engine :=
  (e.newSymbol v lv).stampAll (allStamps p v lv 0)

theorem isFree_patterned (h1 : 1 ≤ v) (h40 : v ≤ 40) {lv : Level} : isFree (patterned e p lv v).tag r c = true ↔
    (r, c) ∈ (range (sideOf v) ×ˢ range (sideOf v)) \ reservedCells p v := by
  rw [patterned, isFree_stampAll_blank (allStamps_reserves _ _ _ _) (newSymbol_tag ..), mem_sdiff, mem_product, mem_range,
    mem_range]
  exact and_congr_right fun ⟨hr, hc⟩ => not_congr (covers_allStamps h1 h40 hr hc)

theorem freeCells_patterned (h1 : 1 ≤ v) (h40 : v ≤ 40) {lv : Level} : freeCells (sideOf v) (patterned e p lv v).tag =
    (range (sideOf v) ×ˢ range (sideOf v)) \ reservedCells p v := by
  ext q
  rw [freeCells, mem_filter, isFree_patterned h1 h40]
  exact and_iff_right_of_imp fun h => (mem_sdiff.1 h).1

theorem patterned_square (e : Engine) (p : AlignTable) (lv : Level) (v : Nat) :
    Square (sideOf v) (patterned e p lv v).tag :=
  (stampAll_square _ (blankGrid_square ..) (blankGrid_square ..)).2

theorem countFree_patterned (h1 : 1 ≤ v) (h40 : v ≤ 40) {lv : Level} :
    countFree (patterned e p lv v).tag = avail v := by
  rw [← card_freeCells (patterned_square ..), freeCells_patterned h1 h40,
    card_sdiff_of_subset (reservedCells_subset h1 h40), card_product, card_range, card_reservedCells h1 h40, avail]
  omega

/-- Column 6 is a timing pattern between two finder areas (R240). -/
theorem isFree_patterned_column_six (h1 : 1 ≤ v) (h40 : v ≤ 40) {lv : Level} :
    isFree (patterned e p lv v).tag r 6 = false := by
  have hside := sideOf_eq v
  rw [← Bool.not_eq_true, isFree_patterned h1 h40]
  intro h
  obtain ⟨hin, hout⟩ := mem_sdiff.1 h
  rw [mem_product, mem_range, mem_range] at hin
  have hline : (r, 6) ∈ finderCells (sideOf v) ∪ timingCells (sideOf v) := by
    simp only [finderCells, timingCells, mem_union, mem_product, mem_range, mem_Ico, mem_singleton, and_true]
    omega
  exact hout (mem_union_left _ (mem_union_left _ (mem_union_left _ (mem_union_left _ hline))))

/-! ## The order of the walk as a set (45_data_walker R239, R240) -/

/-- The right column of a pair: no pair has column 6 (45_data_walker R233). -/
theorem pairColumn_eq (hw : w % 2 = 1) (k : Nat) :
    6 < pairColumn w k ∧ pairColumn w k = w - 1 - 2 * k ∨ pairColumn w k ≤ 5 ∧ pairColumn w k = w - 2 - 2 * k := by
  rw [pairColumn]
  split <;> omega

/-- A column other than 6 is one of the two of its pair. -/
theorem eq_pairColumn_pairNumber (hw : w % 2 = 1) (hw' : 9 ≤ w) (hc : c < w) (h6 : c ≠ 6) :
    c = pairColumn w (pairNumber w c) ∨ c = pairColumn w (pairNumber w c) - 1 := by
  have hcol := pairColumn_eq hw (pairNumber w c)
  cases h : rightColumn c with
  | true =>
    have hright := rightColumn_iff.1 h
    have hk := pairNumber_right (w := w) h
    split at hk <;> omega
  | false =>
    have hleft := rightColumn_eq_false.1 h
    have hk := pairNumber_left (w := w) h
    split at hk <;> omega

theorem mem_pair_of_row {a b b' : Nat} {q : Nat × Nat} : q ∈ [(a, b), (a, b')] ↔ q.1 = a ∧ (q.2 = b ∨ q.2 = b') := by
  simp only [List.mem_cons, List.not_mem_nil, or_false, Prod.ext_iff, and_or_left]

/-- Every cell outside column 6 occurs once in the order. -/
theorem cellOrder_nodup (hw : w % 2 = 1) (hw' : 9 ≤ w) : (cellOrder w).Nodup := by
  refine List.nodup_flatMap.2 ⟨fun k hk => List.nodup_flatMap.2 ⟨fun t ht => ?cells, ?rows⟩, ?columns⟩
  case cells =>
    have hcol := pairColumn_eq hw k
    rw [List.mem_range] at hk
    simp only [List.nodup_cons, List.mem_singleton, List.not_mem_nil, not_false_eq_true, List.nodup_nil, and_true,
      Prod.mk.injEq, true_and]
    omega
  case rows =>
    refine List.nodup_range.imp_of_mem fun {t u} ht hu hne => List.disjoint_left.2 fun q h1 h2 => ?_
    rw [List.mem_range] at ht hu
    have hrow := (mem_pair_of_row.1 h1).1.symm.trans (mem_pair_of_row.1 h2).1
    split at hrow <;> omega
  case columns =>
    refine List.nodup_range.imp_of_mem fun {j k} hj hk hne => List.disjoint_left.2 fun q h1 h2 => ?_
    rw [List.mem_range] at hj hk
    obtain ⟨t, -, h1⟩ := List.mem_flatMap.1 h1
    obtain ⟨u, -, h2⟩ := List.mem_flatMap.1 h2
    have h1 := (mem_pair_of_row.1 h1).2
    have h2 := (mem_pair_of_row.1 h2).2
    have hcol1 := pairColumn_eq hw j
    have hcol2 := pairColumn_eq hw k
    omega

theorem mem_cellOrder (hw : w % 2 = 1) (hw' : 9 ≤ w) : (r, c) ∈ cellOrder w ↔ (r < w ∧ c < w) ∧ c ≠ 6 := by
  simp only [cellOrder, List.mem_flatMap, List.mem_range, mem_pair_of_row]
  constructor
  · rintro ⟨k, hk, t, ht, hr, hc⟩
    have hcol := pairColumn_eq hw k
    split at hr <;> omega
  · rintro ⟨⟨hr, hc⟩, h6⟩
    refine ⟨pairNumber w c, pairNumber_lt hw hw' hc, if pairNumber w c % 2 = 0 then w - 1 - r else r,
      by split <;> omega, ?_, eq_pairColumn_pairNumber hw hw' hc h6⟩
    split <;> omega

/-- When column 6 has no free cell, every free cell is on the walk. -/
theorem length_walkOrder (hw : w % 2 = 1) (hw' : 9 ≤ w) (h6 : ∀ r, isFree tag r 6 = false) :
    (walkOrder w tag).length = (freeCells w tag).card := by
  have hset : (walkOrder w tag).toFinset = freeCells w tag := by
    ext ⟨r, c⟩
    rw [List.mem_toFinset, walkOrder, List.mem_filter, mem_cellOrder hw hw', freeCells, mem_filter, mem_product, mem_range,
      mem_range]
    refine and_congr_left fun hfree => and_iff_left_of_imp fun _ hc => ?_
    subst hc
    rw [h6] at hfree
    cases hfree
  have hnodup : (walkOrder w tag).Nodup := (cellOrder_nodup hw hw').filter _
  rw [← hset, List.toFinset_card_of_nodup hnodup]

/-! ## The statement -/

theorem ready_answer_newSymbol {s : State} {lv : Level} (hf : s.eng.fault = false) (h1 : 1 ≤ v) (n : Nat) :
    (s.answer .ok n (s.eng.newSymbol v lv)).Ready := ⟨hf, (show v ≠ 0 by omega)⟩

theorem exec_plall_newSymbol {s : State} {lv : Level} (hf : s.eng.fault = false) (h1 : 1 ≤ v) (n : Nat) :
    exec .plall (s.answer .ok n (s.eng.newSymbol v lv)) =
      .next (s.answer .ok 0 (patterned s.eng s.cfg.align lv v)) :=
  exec_placement (i := .plall) (by decide) (ready_answer_newSymbol hf h1 n)

theorem patterned_version (e : Engine) (p : AlignTable) (lv : Level) (v : Nat) : (patterned e p lv v).version = v :=
  stampAll_version ..

theorem ready_answer_patterned {s : State} {lv : Level} (hf : s.eng.fault = false) (h1 : 1 ≤ v) :
    (s.answer .ok 0 (patterned s.eng p lv v)).Ready :=
  ready_answer_stampAll (ready_answer_newSymbol hf h1 0) ..

/-- Settles O37: the cells not reserved by the six patterns number as the closed form says, none lies in column 6, and
so all are on the walk. -/
theorem noneCountInvariant : Obligations.NoneCountInvariant := by
  intro s v lv hf h1 h40
  have hu := ready_answer_patterned (p := s.cfg.align) (lv := lv) hf h1
  have hsix : ∀ r, isFree (patterned s.eng s.cfg.align lv v).tag r 6 = false := fun r =>
    isFree_patterned_column_six h1 h40
  refine ⟨_, _, avail v, exec_symnew_of_range hf h1 h40 lv, exec_plall_newSymbol hf h1 _, ?count, ?closed, hsix, ?walk⟩
  case count => rw [exec_cntnone hu, answer_eng, countFree_patterned h1 h40]
  case closed => rw [exec_avail hu, answer_eng, patterned_version]
  case walk =>
    have hside := sideOf_eq v
    rw [← sideOf_eq, answer_eng, length_walkOrder (by omega) (by omega) hsix, card_freeCells (patterned_square ..),
      countFree_patterned h1 h40]

end Sys2Proof.Machine
end

section
/-! PROOFS of 45_data_walker, the commands (R232, R234 to R238, R242 e). WKBIT and WKRUN place bits and answer what that
gives (`State.afterPlacing`); where a bit goes is the search's answer, in which neither the bit nor MOD has a part, so
WKRUN is the WKBITs of its bits. -/

namespace Sys2Proof.Machine

variable {s : State} {e e' : Engine} {k : Walker} {b ok : Bool} {bs : List Byte} {w : Nat}

/-! ## The transition table (R234, R235) -/

theorem advance_stepH_up_of_pos {r : Nat} (hr : 0 < r) (w c n : Nat) :
    advance w ⟨r, c, .stepH, true, n⟩ = some ⟨r, c - 1, .stepUp, true, n⟩ := by
  have h : r ≠ 0 := by omega
  simp [advance, h]

theorem advance_stepH_down_of_lt {r : Nat} (hr : r < w - 1) (c n : Nat) :
    advance w ⟨r, c, .stepH, false, n⟩ = some ⟨r, c - 1, .stepDown, false, n⟩ := by
  have h : r ≠ w - 1 := by omega
  simp [advance, h]

theorem advance_stepH_down_last (w c n : Nat) :
    advance w ⟨w - 1, c, .stepH, false, n⟩ = some ⟨w - 1, c - 1, .revBottom, false, n⟩ := by
  simp [advance]

theorem advance_revTop_of_pos {c : Nat} (hc : 0 < c) (w r : Nat) (up : Bool) (n : Nat) :
    advance w ⟨r, c, .revTop, up, n⟩ = some ⟨r, (if c - 1 = 6 then 5 else c - 1), .stepH, false, n⟩ := by
  have h : c ≠ 0 := by omega
  simp [advance, h]

theorem advance_revBottom_of_pos {c : Nat} (hc : 0 < c) (w r : Nat) (up : Bool) (n : Nat) :
    advance w ⟨r, c, .revBottom, up, n⟩ = some ⟨r, (if c - 1 = 6 then 5 else c - 1), .stepH, true, n⟩ := by
  have h : c ≠ 0 := by omega
  simp [advance, h]

theorem exec_wkrst (hs : s.Ready) :
    exec .wkrst s = .next (s.answer .ok 0 { s.eng with walk := Walker.start s.eng.width }) := by
  obtain ⟨hf, hv⟩ := hs
  exact (gate_serving hf).trans (needSymbol_some hv)

/-- Settles O38: WKRST ends in its one assignment, and each row of the table is a branch of `advance`. -/
theorem walkerResetAndTransitions : Obligations.WalkerResetAndTransitions :=
  ⟨Laws.RoundTrip.wkrst rfl, fun _ => exec_wkrst, fun w r c up n =>
    ⟨rfl, fun hr => advance_stepH_up_of_pos hr w c n, rfl, fun hr => advance_stepH_down_of_lt hr c n,
      advance_stepH_down_last w c n, rfl, rfl, fun hc => advance_revTop_of_pos hc w r up n,
      fun hc => advance_revBottom_of_pos hc w r up n, rfl, rfl⟩⟩

/-! ## WKBIT and WKRUN as whole next states (R237, R238) -/

/-- The state in which a command ends that answers `val` when all its bits were placed, `r` being what `placebit` gave:
the fatal fault when one bit found no cell (60_exceptions R325). -/
def State.afterPlacing (s : State) (val : Nat) (r : Engine × Bool) : State :=
  if r.2 = true then s.answer .ok val r.1 else s.answer .overflow 0 { r.1 with fault := true, fcode := 8 }

theorem exec_wkbit (hs : s.Ready) (h : placeBit b s.eng = (e, ok)) :
    exec (.wkbit b) s = .next (s.afterPlacing (256 * e.walk.row + e.walk.col) (e, ok)) := by
  obtain ⟨hf, hv⟩ := hs
  refine (gate_serving hf).trans ((needSymbol_some hv).trans ?_)
  cases ok <;> simp only [h] <;> rfl

/-- Without a Symbol, or after the fatal fault, WKBIT places nothing (60_exceptions R326, R327). -/
theorem exec_wkbit_of_not_ready (h : ¬ s.Ready) (b : Bool) :
    exec (.wkbit b) s = .next (s.answer (if s.eng.fault = true then .faulted else .noSym) 0 s.eng) := by
  by_cases hf : s.eng.fault = true
  · rw [if_pos hf]
    exact gate_faulted hf
  · have hv : s.eng.version = 0 := not_not.1 fun hv => h ⟨Bool.not_eq_true _ ▸ hf, hv⟩
    rw [if_neg hf]
    exact (gate_serving (Bool.not_eq_true _ ▸ hf)).trans (needSymbol_none hv)

theorem exec_wkrun (hs : s.Ready) (hlen : s.eng.olen = bs.length) (hO : Holds s.eng .O 0 bs) :
    exec .wkrun s = .next (s.afterPlacing (8 * bs.length) (placeBits (streamBits bs) s.eng)) := by
  obtain ⟨hf, hv⟩ := hs
  refine (gate_serving hf).trans ((needSymbol_some hv).trans ?_)
  rw [hlen, readBytes_holds hO]
  obtain ⟨e, ok⟩ := placeBits (streamBits bs) s.eng
  cases ok
  · rfl
  · exact congrArg (fun n => Host.Outcome.next (s.answer .ok (8 * n) e)) hlen

/-! ## WKBIT places one bit (R236, R237) -/

theorem placeBit_of_lands (hv : e.version ≠ 0) (hk : Walker.Inv e.width e.walk) (h : Lands e.width e.tag e.walk k)
    (b : Bool) :
    placeBit b e = ({ e with mod := setCell e.mod k.row k.col b, walk := { k with cnt := k.cnt + 1 } }, true) := by
  rcases placeBit_cases b hv hk with ⟨k', hl, hp⟩ | ⟨k', hx, -⟩
  · rw [h.unique hl, hp]
  · exact (h.not_exhausts hx).elim

theorem placeBit_of_exhausts (hv : e.version ≠ 0) (hk : Walker.Inv e.width e.walk)
    (h : Exhausts e.width e.tag e.walk k) (b : Bool) : placeBit b e = ({ e with walk := k }, false) := by
  rcases placeBit_cases b hv hk with ⟨k', hl, -⟩ | ⟨k', hx, hp⟩
  · exact (hl.not_exhausts h).elim
  · rw [h.unique hx, hp]

/-- Settles O39: under the invariant the search has one of its two ends, and `placebit` is decided by that end. -/
theorem wkbitPlacesOneBit : Obligations.WkbitPlacesOneBit := by
  refine ⟨fun b => ?decodes, fun s b k hs hi hl => ?placed, fun s b k hs hi hx => ?exhausted, fun s hs hi => ?either⟩
  case decodes => cases b <;> rfl
  case placed =>
    have hk := hi.walk_inv hs.2
    obtain ⟨hodd, hside⟩ := width_odd hs.2
    obtain ⟨hk', -, hcnt, -⟩ := hl.inv hodd (by omega) hk
    obtain ⟨d, hd⟩ := cellAt_exists hi.mod_square hk'.row_lt hk'.col_lt
    refine ⟨setCell s.eng.mod k.row k.col b, setCell_square hi.mod_square .., ?cell, fun r c hne => ?frame, ?answer⟩
    case cell => rw [cellAt_setCell, if_pos ⟨rfl, rfl⟩, hd, Option.map_some]
    case frame => rw [cellAt_setCell, if_neg fun ⟨hr, hc⟩ => hne (by rw [hr, hc])]
    case answer => rw [exec_wkbit hs (placeBit_of_lands hs.2 hk hl b), ← hcnt]; rfl
  case exhausted => exact exec_wkbit hs (placeBit_of_exhausts hs.2 (hi.walk_inv hs.2) hx b)
  case either =>
    rcases placeBit_cases true hs.2 (hi.walk_inv hs.2) with ⟨k, hl, -⟩ | ⟨k, hx, -⟩
    · exact .inl ⟨k, hl⟩
    · exact .inr ⟨k, hx⟩

/-! ## The bit and the modules have no part in the search (R242 e) -/

theorem placeBit_of_other_modules {a : Bool} (h : placeBit a e = (e', ok)) (md : Grid Bool) (b : Bool) :
    ∃ md', placeBit b { e with mod := md } = ({ e' with mod := md' }, ok) := by
  have hw : ({ e with mod := md } : Engine).width = e.width := rfl
  simp only [placeBit] at h
  simp only [placeBit, hw]
  split at h
  · cases h; exact ⟨_, rfl⟩
  · cases h; exact ⟨_, rfl⟩

/-- Settles O43: on a ready state by `placeBit_of_other_modules`, on the others because nothing is placed. -/
theorem walkIgnoresTheBits : Obligations.WalkIgnoresTheBits := by
  intro s md a b t u ht hu
  have hready : State.Ready { s with eng := { s.eng with mod := md } } ↔ s.Ready := Iff.rfl
  by_cases hs : s.Ready
  · obtain ⟨e, ok, hp⟩ : ∃ e ok, placeBit a s.eng = (e, ok) := ⟨_, _, rfl⟩
    obtain ⟨md', hp'⟩ := placeBit_of_other_modules hp md b
    cases (exec_wkbit hs hp).symm.trans ht
    cases (exec_wkbit (hready.2 hs) hp').symm.trans hu
    cases ok <;> exact ⟨rfl, rfl, rfl, rfl⟩
  · cases (exec_wkbit_of_not_ready hs a).symm.trans ht
    cases (exec_wkbit_of_not_ready (mt hready.1 hs) b).symm.trans hu
    exact ⟨rfl, rfl, rfl, rfl⟩

/-! ## WKRUN is the WKBITs of its bits (R238) -/

theorem placeBit_keeps_ready (hs : s.Ready) (h : placeBit b s.eng = (e, ok)) : e.fault = false ∧ e.version ≠ 0 := by
  obtain ⟨hf, hv⟩ := hs
  rw [placeBits_eq ((placeBits_singleton b _).trans h)]
  exact ⟨hf, hv⟩

/-- The WKBITs of some bits end as `placebit` of those bits does. -/
theorem bitByBit_eq_placeBits (hs : s.Ready) (bits : List Bool) (val : Nat) :
    ∃ t, bitByBit bits s = some (t, (placeBits bits s.eng).2) ∧
      t.eng = (s.afterPlacing val (placeBits bits s.eng)).eng := by
  induction bits generalizing s with
  | nil => exact ⟨s, rfl, rfl⟩
  | cons b rest ih =>
    obtain ⟨e, ok, hp⟩ : ∃ e ok, placeBit b s.eng = (e, ok) := ⟨_, _, rfl⟩
    have hexec := exec_wkbit hs hp
    simp only [bitByBit, placeBits, hexec, hp]
    cases ok with
    | false => exact ⟨_, rfl, rfl⟩
    | true =>
      obtain ⟨hf, hv⟩ := placeBit_keeps_ready hs hp
      have hnext := ih (s := s.afterPlacing (256 * e.walk.row + e.walk.col) (e, true)) ⟨hf, hv⟩
      have hserving : ¬ (s.afterPlacing (256 * e.walk.row + e.walk.col) (e, true)).eng.fault = true := by
        rw [Bool.not_eq_true]; exact hf
      rw [if_neg hserving]
      exact hnext

/-- Settles O42: both are `placebit` of the bits of O, one after the other. -/
theorem wkrunIsTheWkbits : Obligations.WkrunIsTheWkbits := by
  refine ⟨Laws.RoundTrip.wkrun rfl, fun s bs hs _ hlen hO => ?_⟩
  obtain ⟨t, hbits, ht⟩ := bitByBit_eq_placeBits hs (streamBits bs) (8 * bs.length)
  refine ⟨t, _, hbits, ?_⟩
  rw [exec_wkrun hs hlen hO, ht]
  obtain ⟨e, ok⟩ := placeBits (streamBits bs) s.eng
  cases ok <;> rfl

end Sys2Proof.Machine
end

section
/-! PROOFS of 45_data_walker, the order of the walk (R233, R235, R239 to R242 a). The number of transitions made
(`walked`) is the walker's place in `cellOrder`: a walker that has made `n + 1` of them stands on cell `n`
(`getElem?_cellOrder_walked`), and it is exhausted exactly when it has made all W (W - 1). -/

namespace Sys2Proof.Machine

variable {k k' : Walker} {w n j t d c : Nat} {α β : Type}

/-! ## Lists put together from lists of one length -/

theorem length_flatMap_of_length {f : α → List β} {m : Nat} (hf : ∀ x, (f x).length = m) (l : List α) :
    (l.flatMap f).length = m * l.length := by
  rw [List.length_flatMap, List.map_congr_left fun x _ => hf x, List.map_const', List.sum_replicate, smul_eq_mul,
    Nat.mul_comm]

theorem getElem?_flatMap_of_length {f : α → List β} {m : Nat} (hf : ∀ x, (f x).length = m) (l : List α) (i : Nat)
    (hj : j < m) : (l.flatMap f)[m * i + j]? = l[i]?.bind fun x => (f x)[j]? := by
  induction l generalizing i with
  | nil => rfl
  | cons x l ih =>
    have hx := hf x
    rw [List.flatMap_cons]
    cases i with
    | zero => rw [Nat.mul_zero, Nat.zero_add, List.getElem?_append_left (by omega)]; rfl
    | succ i =>
      have hshift : m * (i + 1) + j - m = m * i + j := by rw [Nat.mul_succ]; omega
      rw [List.getElem?_append_right (by rw [Nat.mul_succ]; omega), hx, hshift, ih]
      rfl

/-! ## The cells of the order by index (R233, R239) -/

/-- The row of step `t` in pair `j`: the walk goes up in the even pairs and down in the odd ones. -/
def pairRow (w j t : Nat) : Nat := if j % 2 = 0 then w - 1 - t else t

/-- The two cells of step `t` in pair `j`, the right one first. -/
def stepCells (w j t : Nat) : List (Nat × Nat) := [(pairRow w j t, pairColumn w j), (pairRow w j t, pairColumn w j - 1)]

theorem cellOrder_eq (w : Nat) :
    cellOrder w = (List.range ((w - 1) / 2)).flatMap fun j => (List.range w).flatMap (stepCells w j) := rfl

theorem length_pairCells (w j : Nat) : ((List.range w).flatMap (stepCells w j)).length = 2 * w := by
  rw [length_flatMap_of_length (m := 2) fun _ => rfl, List.length_range]

theorem length_cellOrder (hw : w % 2 = 1) : (cellOrder w).length = w * (w - 1) := by
  rw [cellOrder_eq, length_flatMap_of_length (length_pairCells w), List.length_range, Nat.mul_comm 2 w, Nat.mul_assoc]
  congr 1
  omega

theorem getElem?_cellOrder (hj : j < (w - 1) / 2) (ht : t < w) (hd : d < 2) :
    (cellOrder w)[2 * w * j + (2 * t + d)]? = some (pairRow w j t, pairColumn w j - d) := by
  rw [cellOrder_eq, getElem?_flatMap_of_length (length_pairCells w) _ _ (by omega), List.getElem?_range hj,
    Option.bind_some, getElem?_flatMap_of_length (m := 2) (fun _ => rfl) _ _ hd, List.getElem?_range ht, Option.bind_some]
  obtain rfl | rfl : d = 0 ∨ d = 1 := by omega
  · rfl
  · rfl

/-! ## The walker stands on the cell its transitions count to -/

/-- How far the walker's row is from the one in which its pair was entered. -/
def pairStep (w : Nat) (k : Walker) : Nat := if k.up = true then w - 1 - k.row else k.row

/-- How far a column is to the left of the right one of its pair. -/
def pairOffset (c : Nat) : Nat := if rightColumn c = true then 0 else 1

theorem pairOffset_lt (c : Nat) : pairOffset c < 2 := by
  rw [pairOffset]
  split <;> decide

theorem pairStep_lt (hk : Walker.Inv w k) : pairStep w k < w := by
  have hrow := hk.row_lt
  rw [pairStep]
  split <;> omega

theorem pairColumn_sub_pairOffset (hw : w % 2 = 1) (hw' : 9 ≤ w) (hc : c < w) (h6 : c ≠ 6) :
    pairColumn w (pairNumber w c) - pairOffset c = c := by
  have hcol := pairColumn_eq hw (pairNumber w c)
  have hpair := eq_pairColumn_pairNumber hw hw' hc h6
  rw [pairOffset]
  split
  next hright =>
    have := rightColumn_iff.1 hright
    omega
  next hleft =>
    have := rightColumn_eq_false.1 (Bool.not_eq_true _ ▸ hleft)
    omega

/-- The row of the walker's step in its pair is its own row. -/
theorem pairRow_pairStep (hk : Walker.Inv w k) (hst : k.st ≠ .enter) :
    pairRow w (pairNumber w k.col) (pairStep w k) = k.row := by
  have hrow := hk.row_lt
  have hup := hk.climbing hst
  by_cases heven : pairNumber w k.col % 2 = 0
  · rw [pairRow, if_pos heven, pairStep, if_pos (hup.trans (decide_eq_true heven))]
    omega
  · rw [pairRow, if_neg heven, pairStep, hup, decide_eq_false heven, if_neg Bool.false_ne_true]

theorem walked_of_ne_enter (h : k.st ≠ .enter) :
    walked w k = 2 * w * pairNumber w k.col + (2 * pairStep w k + pairOffset k.col) + 1 := by
  unfold walked pairStep pairOffset
  split
  · exact absurd ‹_› h
  · split <;> split <;> omega

theorem ne_enter_of_walked_pos (h : 0 < walked w k) : k.st ≠ .enter := fun hst => by
  rw [walked, hst] at h
  cases h

theorem getElem?_cellOrder_walked (hw : w % 2 = 1) (hw' : 9 ≤ w) (hk : Walker.Inv w k) (h : walked w k = n + 1) :
    (cellOrder w)[n]? = some (k.row, k.col) := by
  have hst : k.st ≠ .enter := ne_enter_of_walked_pos (h.symm ▸ Nat.succ_pos n : 0 < walked w k)
  have hn : n = 2 * w * pairNumber w k.col + (2 * pairStep w k + pairOffset k.col) :=
    Nat.succ_injective (h.symm.trans (walked_of_ne_enter hst))
  rw [hn, getElem?_cellOrder (pairNumber_lt hw hw' hk.col_lt) (pairStep_lt hk) (pairOffset_lt _),
    pairRow_pairStep hk hst, pairColumn_sub_pairOffset hw hw' hk.col_lt (hk.not_six hst)]

/-! ## Where the grid is exhausted (R235, R241) -/

/-- The walker at the bottom left corner, where the walk of a Symbol ends. -/
def Walker.last (w n : Nat) : Walker := ⟨w - 1, 0, .revBottom, false, n⟩

/-- The number of pairs is even, so the last pair is a downward one. -/
theorem pairNumber_zero (h4 : w % 4 = 1) (hw' : 9 ≤ w) : pairNumber w 0 = (w - 3) / 2 ∧ pairNumber w 0 % 2 = 1 := by
  have h : pairNumber w 0 = (w - 3) / 2 := pairNumber_left (by decide)
  omega

theorem eq_last_of_advance_none (h4 : w % 4 = 1) (hw' : 9 ≤ w) (hk : Walker.Inv w k) (h : advance w k = none) :
    k = Walker.last w k.cnt := by
  obtain ⟨row, col, st, up, cnt⟩ := k
  cases st with
  | enter => cases h
  | stepH => cases h
  | stepUp => cases h
  | stepDown => cases h
  | revTop =>
    have hcol : col = 0 := by simpa [advance] using h
    have hup : up = true := (hk.turnsTop rfl).1
    have hpair := hk.climbing (by simp)
    simp [hcol, hup, (pairNumber_zero h4 hw').2] at hpair
  | revBottom =>
    have hcol : col = 0 := by simpa [advance] using h
    obtain ⟨hup, hrow⟩ : up = false ∧ row = w - 1 := hk.turnsDown rfl
    rw [hcol, hup, hrow]
    rfl

theorem walked_last (h4 : w % 4 = 1) (hw' : 9 ≤ w) (n : Nat) : walked w (Walker.last w n) = w * (w - 1) := by
  obtain ⟨m, rfl⟩ : ∃ m, w = 2 * m + 3 := ⟨(w - 3) / 2, by omega⟩
  have hpair : pairNumber (2 * m + 3) 0 = m := by rw [(pairNumber_zero h4 hw').1]; omega
  have hcol : rightColumn 0 = false := by decide
  have hrow : 2 * m + 3 - 1 = 2 * m + 2 := by omega
  simp only [walked, Walker.last, hpair, hcol, hrow, Bool.false_eq_true, if_false]
  ring

theorem walked_of_advance_none (h4 : w % 4 = 1) (hw' : 9 ≤ w) (hk : Walker.Inv w k) (h : advance w k = none) :
    walked w k = w * (w - 1) := by
  rw [eq_last_of_advance_none h4 hw' hk h, walked_last h4 hw']

theorem advance_none_of_walked (hw : w % 2 = 1) (hw' : 9 ≤ w) (hk : Walker.Inv w k) (h : walked w k = w * (w - 1)) :
    advance w k = none := by
  cases ha : advance w k with
  | none => rfl
  | some k' =>
    obtain ⟨hk', hstep⟩ := advance_inv hw hw' hk ha
    have := walked_le hw hw' hk'
    omega

/-! ## Transitions in a row -/

theorem transitions_of_le (h4 : w % 4 = 1) (hw' : 9 ≤ w) (hk : Walker.Inv w k) (h : walked w k + n ≤ w * (w - 1)) :
    ∃ k', transitions w n k = some k' ∧ Walker.Inv w k' ∧ walked w k' = walked w k + n ∧ k'.cnt = k.cnt := by
  induction n generalizing k with
  | zero => exact ⟨k, rfl, hk, rfl, rfl⟩
  | succ n ih =>
    cases ha : advance w k with
    | none =>
      have := walked_of_advance_none h4 hw' hk ha
      omega
    | some k1 =>
      obtain ⟨hk1, hstep⟩ := advance_inv (by omega) hw' hk ha
      obtain ⟨k', htrans, hk', hwalked, hcnt⟩ := ih hk1 (by omega)
      refine ⟨k', ?_, hk', by omega, hcnt.trans (advance_cnt ha)⟩
      rw [transitions, ha, Option.bind_some, htrans]

theorem transitions_succ (w n : Nat) (k : Walker) :
    transitions w (n + 1) k = (transitions w n k).bind (advance w) := by
  induction n generalizing k with
  | zero => exact Option.bind_fun_some _
  | succ n ih =>
    calc transitions w (n + 1 + 1) k
        = (advance w k).bind fun k1 => (transitions w n k1).bind (advance w) :=
          congrArg (advance w k).bind (funext fun k1 => ih (k := k1))
      _ = (transitions w (n + 1) k).bind (advance w) := (Option.bind_assoc ..).symm

/-- Settles O40: the order as a set is `mem_cellOrder`, and the walker after `n` transitions stands on its cell `n - 1`. -/
theorem walkVisitsEveryCellOnce : Obligations.WalkVisitsEveryCellOnce := by
  intro v h1 _
  obtain ⟨w, hw⟩ : ∃ w, w = 17 + 4 * v := ⟨_, rfl⟩
  have hpred : 16 + 4 * v = w - 1 := by omega
  rw [← hw, hpred]
  have hodd : w % 2 = 1 := by omega
  have hquad : w % 4 = 1 := by omega
  have hside : 9 ≤ w := by omega
  have hstart : Walker.Inv w (Walker.start w) := start_inv (by omega)
  have hzero : walked w (Walker.start w) = 0 := rfl
  obtain ⟨k, hall, hk, hwalked, hcnt⟩ := transitions_of_le hquad hside hstart (n := w * (w - 1)) (by omega)
  have hnone := advance_none_of_walked hodd hside hk (by omega)
  have hlast : k = Walker.last w k.cnt := eq_last_of_advance_none hquad hside hk hnone
  refine ⟨length_cellOrder hodd, cellOrder_nodup hodd hside, fun r c => ?cells, fun n hn => ?nth, ?all, ?beyond⟩
  case cells => rw [mem_cellOrder hodd hside, and_assoc]
  case nth =>
    obtain ⟨k, htrans, hk, hwalked, -⟩ := transitions_of_le hquad hside hstart (n := n + 1) (by omega)
    exact ⟨k, htrans, getElem?_cellOrder_walked hodd hside hk (by omega)⟩
  case all => rw [hall, hlast, hcnt]; rfl
  case beyond => rw [transitions_succ, hall, Option.bind_some, hnone]

end Sys2Proof.Machine
end

section
/-! PROOFS of 45_data_walker, WKRUN along the order (R238, R239, R241, 60_exceptions R325). What lies before a walker is
the rest of `walkOrder` (`cellsAhead`): the search lands on the first cell of it and exhausts the grid when it is empty,
so `placebit` of some bits writes them on its cells one by one (`placeBits_eq_writeBits`). -/

namespace Sys2Proof.Machine

variable {k k' : Walker} {w r c i : Nat} {tag : Grid Tag} {g : Grid Bool} {e : Engine} {ps : List (Nat × Nat)}
  {bits : List Bool} {p : Nat × Nat}

/-! ## Bits written on cells -/

/-- The module grid with the bits on the cells, the first bit on the first cell, until either list ends. -/
def writeBits (g : Grid Bool) (ps : List (Nat × Nat)) (bits : List Bool) : Grid Bool :=
  match ps, bits with
  | p :: ps, b :: bits => writeBits (setCell g p.1 p.2 b) ps bits
  | _, _ => g

@[simp] theorem writeBits_nil (g : Grid Bool) (ps : List (Nat × Nat)) : writeBits g ps [] = g := by
  cases ps <;> rfl

@[simp] theorem writeBits_no_cells (g : Grid Bool) (bits : List Bool) : writeBits g [] bits = g := rfl

@[simp] theorem writeBits_cons (g : Grid Bool) (p : Nat × Nat) (ps : List (Nat × Nat)) (b : Bool) (bits : List Bool) :
    writeBits g (p :: ps) (b :: bits) = writeBits (setCell g p.1 p.2 b) ps bits := rfl

theorem writeBits_square (h : Square w g) (ps : List (Nat × Nat)) (bits : List Bool) :
    Square w (writeBits g ps bits) := by
  induction ps generalizing g bits with
  | nil => exact h
  | cons p ps ih =>
    cases bits with
    | nil => exact h
    | cons b bits => exact ih (setCell_square h ..) bits

theorem cellAt_writeBits_of_not_mem (h : (r, c) ∉ ps.take bits.length) :
    cellAt (writeBits g ps bits) r c = cellAt g r c := by
  induction ps generalizing g bits with
  | nil => rfl
  | cons p ps ih =>
    cases bits with
    | nil => rfl
    | cons b bits =>
      rw [List.length_cons, List.take_succ_cons, List.mem_cons, not_or] at h
      have hp : ¬ (p.1 = r ∧ p.2 = c) := fun hp => h.1 (Prod.ext hp.1.symm hp.2.symm)
      rw [writeBits_cons, ih h.2, cellAt_setCell, if_neg hp]

/-- Each bit is read back on its cell, as no later bit goes to the same cell. -/
theorem cellAt_writeBits (hg : Square w g) (hps : ps.Nodup) (hp : ps[i]? = some p) (hi : i < bits.length)
    (hr : p.1 < w) (hc : p.2 < w) : cellAt (writeBits g ps bits) p.1 p.2 = bits[i]? := by
  induction ps generalizing g bits i with
  | nil => cases hp
  | cons q ps ih =>
    obtain ⟨hq, hps⟩ := List.nodup_cons.1 hps
    cases bits with
    | nil => cases hi
    | cons b bits =>
      rw [writeBits_cons]
      cases i with
      | zero =>
        obtain rfl : q = p := Option.some.inj hp
        obtain ⟨d, hd⟩ := cellAt_exists hg hr hc
        rw [cellAt_writeBits_of_not_mem fun hmem => hq (List.mem_of_mem_take hmem), cellAt_setCell, if_pos ⟨rfl, rfl⟩, hd]
        rfl
      | succ i => exact ih (setCell_square hg ..) hps hp (Nat.lt_of_succ_lt_succ hi)

/-! ## The bits of a stream (R238) -/

theorem length_byteBits (x : Byte) : (byteBits x).length = 8 := by simp [byteBits]

theorem length_streamBits (bs : List Byte) : (streamBits bs).length = 8 * bs.length :=
  length_flatMap_of_length length_byteBits bs

theorem getElem?_streamBits (bs : List Byte) (i : Nat) :
    (streamBits bs)[i]? = (bs[i / 8]?).map fun x => x.getLsbD (7 - i % 8) := by
  have hj : i % 8 < 8 := Nat.mod_lt _ (by decide)
  have hbit (x : Byte) : (byteBits x)[i % 8]? = some (x.getLsbD (7 - i % 8)) := by
    rw [byteBits, List.getElem?_map, List.getElem?_range hj, Option.map_some]
  have hstream := getElem?_flatMap_of_length length_byteBits bs (i / 8) hj
  rw [Nat.div_add_mod] at hstream
  rw [streamBits, hstream, funext hbit]
  cases bs[i / 8]? <;> rfl

/-! ## What lies before the walker (R239) -/

/-- The free cells the walker has not passed, in the order of the walk. -/
def cellsAhead (w : Nat) (tag : Grid Tag) (k : Walker) : List (Nat × Nat) :=
  ((cellOrder w).drop (walked w k)).filter fun p => isFree tag p.1 p.2

theorem cellsAhead_start (w : Nat) (tag : Grid Tag) : cellsAhead w tag (Walker.start w) = walkOrder w tag := rfl

/-- The next transition stands on the next cell of the order. -/
theorem cellsAhead_of_advance (hw : w % 2 = 1) (hw' : 9 ≤ w) (hk : Walker.Inv w k) (h : advance w k = some k') :
    cellsAhead w tag k =
      if isFree tag k'.row k'.col = true then (k'.row, k'.col) :: cellsAhead w tag k' else cellsAhead w tag k' := by
  obtain ⟨hk', hstep⟩ := advance_inv hw hw' hk h
  rw [cellsAhead, List.drop_eq_getElem?_toList_append, getElem?_cellOrder_walked hw hw' hk' hstep, ← hstep]
  exact List.filter_cons

theorem cellsAhead_of_lands (hw : w % 2 = 1) (hw' : 9 ≤ w) (hk : Walker.Inv w k) (h : Lands w tag k k') :
    cellsAhead w tag k = (k'.row, k'.col) :: cellsAhead w tag k' := by
  induction h with
  | here ha free => rw [cellsAhead_of_advance hw hw' hk ha, if_pos free]
  | past ha taken _ ih =>
    rw [cellsAhead_of_advance hw hw' hk ha, taken, if_neg Bool.false_ne_true, ih (advance_inv hw hw' hk ha).1]

theorem cellsAhead_of_exhausts (h4 : w % 4 = 1) (hw' : 9 ≤ w) (hk : Walker.Inv w k) (h : Exhausts w tag k k') :
    cellsAhead w tag k = [] := by
  have hw : w % 2 = 1 := by omega
  induction h with
  | here ha =>
    have hend := (length_cellOrder hw).trans (walked_of_advance_none h4 hw' hk ha).symm
    rw [cellsAhead, List.drop_of_length_le hend.le, List.filter_nil]
  | past ha taken _ ih =>
    rw [cellsAhead_of_advance hw hw' hk ha, taken, if_neg Bool.false_ne_true, ih (advance_inv hw hw' hk ha).1]

/-! ## Bits along the order -/

/-- The side of a Symbol is 1 modulo 4. -/
theorem width_mod_four (h : e.version ≠ 0) : e.width % 4 = 1 := by
  simp only [Engine.width, h, if_false, sideOf_eq]
  omega

/-- The bits go to the cells ahead as far as these reach; when the bits are more, the walk ends at its last cell. -/
theorem placeBits_eq_writeBits (hi : e.Inv) (hv : e.version ≠ 0) (bits : List Bool) :
    ∃ k, placeBits bits e = ({ e with mod := writeBits e.mod (cellsAhead e.width e.tag e.walk) bits, walk := k },
        decide (bits.length ≤ (cellsAhead e.width e.tag e.walk).length)) ∧
      k.cnt = e.walk.cnt + min bits.length (cellsAhead e.width e.tag e.walk).length ∧
      ((cellsAhead e.width e.tag e.walk).length < bits.length → k = Walker.last e.width k.cnt) := by
  induction bits generalizing e with
  | nil => exact ⟨e.walk, by simp [placeBits], by simp, nofun⟩
  | cons b bits ih =>
    have h4 := width_mod_four hv
    obtain ⟨hw, hside⟩ := width_odd hv
    have hw' : 9 ≤ e.width := by omega
    have hk := hi.walk_inv hv
    rcases placeBit_cases b hv hk with ⟨k', hl, hp⟩ | ⟨k', hx, hp⟩
    · obtain ⟨-, -, hcnt, -⟩ := hl.inv hw hw' hk
      obtain ⟨k, hplace, hcount, hlast⟩ := ih (placeBit_inv hi hv hp).1 hv
      rw [cellsAhead_of_lands hw hw' hk hl]
      refine ⟨k, ?_, ?_, fun hlt => hlast (Nat.lt_of_succ_lt_succ hlt)⟩
      · simp only [placeBits, hp, hplace, writeBits_cons, List.length_cons, Nat.add_le_add_iff_right]
        rfl
      · refine hcount.trans ?_
        rw [List.length_cons, List.length_cons, Nat.add_min_add_right, ← hcnt]
        exact (Nat.add_assoc ..).trans (congrArg _ (Nat.add_comm ..))
    · obtain ⟨hk', hcnt, hnone⟩ := hx.inv hw hw' hk
      rw [cellsAhead_of_exhausts h4 hw' hk hx]
      exact ⟨k', by simp [placeBits, hp], by simp [hcnt], fun _ => eq_last_of_advance_none h4 hw' hk' hnone⟩

/-- Settles O41: from a fresh walker the cells ahead are the whole order, and the bits are those of the stream. -/
theorem wkrunFollowsTheOrder : Obligations.WkrunFollowsTheOrder := by
  intro s bs hs hi hstart hlen hO
  obtain ⟨hodd, hside⟩ := width_odd hs.2
  obtain ⟨k, hplace, hcnt, hlast⟩ := placeBits_eq_writeBits hi hs.2 (streamBits bs)
  rw [hstart, cellsAhead_start] at hplace hcnt hlast
  rw [length_streamBits] at hplace hcnt hlast
  have hexec := exec_wkrun hs hlen hO
  rw [hplace] at hexec
  refine ⟨writeBits s.eng.mod (walkOrder s.eng.width s.eng.tag) (streamBits bs), k, writeBits_square hi.mod_square ..,
    fun i p hp hlt => ?on, fun r c hoff => ?off, ?count, fun hfits => ?fits, fun hmore => ?faults⟩
  case on =>
    obtain ⟨⟨hr, hc⟩, -⟩ := (mem_cellOrder hodd (by omega)).1 (List.mem_of_mem_filter (List.mem_of_getElem? hp))
    rw [← getElem?_streamBits]
    exact cellAt_writeBits hi.mod_square ((cellOrder_nodup hodd (by omega)).filter _) hp
      (by rwa [length_streamBits]) hr hc
  case off => exact cellAt_writeBits_of_not_mem (by rwa [length_streamBits])
  case count => rw [hcnt]; exact Nat.zero_add _
  case fits => rw [hexec, decide_eq_true hfits]; rfl
  case faults =>
    rw [hexec, decide_eq_false (by omega), hlast hmore]
    exact ⟨rfl, rfl, rfl, rfl, rfl⟩

end Sys2Proof.Machine
end

section
/-! PROOFS of 46_mask_penalty, the masks (R262 to R264). A mask inverts a free cell where its formula holds; two inversions
of one cell commute and the same one twice undoes itself, so the masks do. -/

namespace Sys2Proof.Machine

variable {s : State} {e : Engine} {k : State → Result} {r c : Nat} {dark : Bool} {tg : Tag}

/-! ## One cell of a masked grid (R262, R263) -/

theorem maskhit_eq_maskFormula (m y x : Nat) : maskhit m y x = maskFormula m y x :=
  match m with
  | 0 | 1 | 2 | 3 | 4 | 5 | 6 | 7 | _ + 8 => rfl

theorem cellAt_maskApply (h : e.cellIs r c dark tg) (m : Nat) :
    cellAt (e.maskApply m).mod r c = some (if tg = .free then xor dark (maskFormula m r c) else dark) := by
  obtain ⟨hmod, htag⟩ := h
  rw [maskApply_mod, maskRows_cellAt, hmod, htag, Nat.zero_add, maskhit_eq_maskFormula]
  by_cases htg : tg = .free <;> cases maskFormula m r c <;> simp [htg]

theorem maskApply_gridsOk (hg : e.GridsOk) (m : Nat) : (e.maskApply m).GridsOk :=
  ⟨maskRows_square m 0 e.tag hg.1, hg.2⟩

/-! ## The masks of one grid (R263) -/

theorem maskRow_comm (a b y x : Nat) (tags : List Tag) (mods : List Bool) :
    maskRow a y x tags (maskRow b y x tags mods) = maskRow b y x tags (maskRow a y x tags mods) := by
  refine List.ext_getElem? fun c => ?_
  simp only [maskRow_getElem?]
  cases mods[c]? with
  | none => rfl
  | some d => simp only [Option.map_some]; split_ifs <;> rfl

theorem maskRow_maskRow_self (m y x : Nat) (tags : List Tag) (mods : List Bool) :
    maskRow m y x tags (maskRow m y x tags mods) = mods := by
  refine List.ext_getElem? fun c => ?_
  simp only [maskRow_getElem?]
  cases mods[c]? with
  | none => rfl
  | some d => simp only [Option.map_some]; split_ifs <;> simp

theorem maskRows_comm (a b y : Nat) (tag : Grid Tag) (mod : Grid Bool) :
    maskRows a y tag (maskRows b y tag mod) = maskRows b y tag (maskRows a y tag mod) := by
  induction tag generalizing y mod with
  | nil => rfl
  | cons tags tag ih =>
    cases mod with
    | nil => rfl
    | cons mods mod => exact congrArg₂ List.cons (maskRow_comm ..) (ih ..)

theorem maskRows_maskRows_self (m y : Nat) (tag : Grid Tag) (mod : Grid Bool) :
    maskRows m y tag (maskRows m y tag mod) = mod := by
  induction tag generalizing y mod with
  | nil => rfl
  | cons tags tag ih =>
    cases mod with
    | nil => rfl
    | cons mods mod => exact congrArg₂ List.cons (maskRow_maskRow_self ..) (ih ..)

theorem maskApply_comm (e : Engine) (a b : Nat) : (e.maskApply a).maskApply b = (e.maskApply b).maskApply a :=
  congrArg (fun g => { e with mod := g }) (maskRows_comm b a 0 e.tag e.mod)

theorem maskApply_maskApply_self (e : Engine) (m : Nat) : (e.maskApply m).maskApply m = e :=
  congrArg (fun g => { e with mod := g }) (maskRows_maskRows_self m 0 e.tag e.mod)

/-! ## Responses and checks of a command that needs a Symbol -/

theorem answer_resp (s : State) (err : Err) (n : Nat) (e : Engine) :
    (s.answer err n e).resp = some { err := err, val := zext32 n } := rfl

/-- The second of two responses stands. -/
theorem answer_answer (s : State) (err err' : Err) (n n' : Nat) (e e' : Engine) :
    (s.answer err n e).answer err' n' e' = s.answer err' n' e' := rfl

theorem ready_answer (hs : s.Ready) (hf : e.fault = s.eng.fault) (hv : e.version = s.eng.version) {err : Err} {n : Nat} :
    (s.answer err n e).Ready :=
  ⟨hf.trans hs.1, hv.trans_ne hs.2⟩

theorem gate_needSymbol_of_ready (hs : s.Ready) : gate (needSymbol k) s = k s :=
  (gate_serving hs.1).trans (needSymbol_some hs.2)

/-- What turns away a command that needs a Symbol (60_exceptions R326, R327). -/
theorem gate_needSymbol_of_not_ready (hs : ¬ s.Ready) :
    gate (needSymbol k) s = .next (s.answer (if s.eng.fault = true then .faulted else .noSym) 0 s.eng) := by
  by_cases hf : s.eng.fault = true
  · rw [gate_faulted hf, if_pos hf, typedError_eq_answer]
  · have hf' : s.eng.fault = false := Bool.eq_false_iff.2 hf
    rw [gate_serving hf', needSymbol_none (not_not.1 fun hv => hs ⟨hf', hv⟩), if_neg hf, typedError_eq_answer]

/-! ## MSKAPP (R264) -/

theorem exec_mskapp (hs : s.Ready) (m : Nat) :
    exec (.mskapp m) s = .next (s.answer .ok 0 (s.eng.maskApply m)) :=
  gate_needSymbol_of_ready hs

theorem exec_mskapp_of_not_ready (hs : ¬ s.Ready) (m : Nat) :
    exec (.mskapp m) s = .next (s.answer (if s.eng.fault = true then .faulted else .noSym) 0 s.eng) :=
  gate_needSymbol_of_not_ready hs

theorem ready_answer_maskApply (hs : s.Ready) (m : Nat) : (s.answer .ok 0 (s.eng.maskApply m)).Ready :=
  ready_answer hs (maskApply_fault ..) (maskApply_version ..)

/-- Settles O44: MSKAPP is `maskApply`, read cell by cell. -/
theorem mskappInvertsFreeCells : Obligations.MskappInvertsFreeCells :=
  ⟨fun m hm => Laws.RoundTrip.mskapp m (decide_eq_true hm), fun _ m hs hg _ =>
    ⟨_, (maskApply_gridsOk hg m).1, exec_mskapp hs m, fun _ _ _ _ h => cellAt_maskApply h m⟩⟩

/-- Settles O45: both ways end in two masks of the same grid, or both commands are turned away. -/
theorem masksAreInvolutionsThatCommute : Obligations.MasksAreInvolutionsThatCommute := by
  intro s a b t u ht hu
  by_cases hs : s.Ready
  · cases (exec_mskapp hs a).symm.trans ht
    cases (exec_mskapp (ready_answer_maskApply hs _) b).symm.trans hu
    refine ⟨fun hab => ?twice, _, _, exec_mskapp hs b, exec_mskapp (ready_answer_maskApply hs _) a, ?swapped⟩
    case twice => rw [hab]; exact maskApply_maskApply_self s.eng b
    case swapped => exact maskApply_comm s.eng b a
  · cases (exec_mskapp_of_not_ready hs a).symm.trans ht
    have hs' : ¬ (s.answer (if s.eng.fault = true then .faulted else .noSym) 0 s.eng).Ready := hs
    cases (exec_mskapp_of_not_ready hs' b).symm.trans hu
    exact ⟨fun _ => rfl, _, _, exec_mskapp_of_not_ready hs b, exec_mskapp_of_not_ready hs' a, rfl⟩

end Sys2Proof.Machine
end

section
/-! PROOFS of 46_mask_penalty, the penalties (R268 to R274). Each scan of a line or of two rows is a count by index, by
induction on the line; the lines of a matrix are its rows and its columns by index. -/

namespace Sys2Proof.Machine

variable {s : State} {h k : Nat} {g : Grid Bool}

/-! ## Counts by index -/

theorem countBelow_succ (n : Nat) (p : Nat → Bool) :
    countBelow (n + 1) p = (if p 0 = true then 1 else 0) + countBelow n fun i => p (i + 1) := by
  rw [countBelow, List.range_succ_eq_map, List.countP_cons, List.countP_map, Nat.add_comm]
  rfl

theorem sum_map_range_succ (n : Nat) (f : Nat → Nat) :
    ((List.range (n + 1)).map f).sum = f 0 + ((List.range n).map fun r => f (r + 1)).sum := by
  rw [List.range_succ_eq_map, List.map_cons, List.sum_cons, List.map_map]
  rfl

/-! ## The lines of a matrix (R268) -/

theorem map_entry_row (row : List Bool) (g : Grid Bool) :
    (List.range row.length).map (fun c => entry (row :: g) 0 c) = row :=
  List.ext_getElem (by simp) fun c _ hc => by simp [entry, cellAt, hc]

/-- The `h` rows by index are the matrix. -/
theorem rows_by_index (hg : IsMatrix h k g) :
    (List.range h).map (fun r => (List.range k).map fun c => entry g r c) = g := by
  obtain ⟨rfl, hrow⟩ := hg
  induction g with
  | nil => rfl
  | cons row g ih =>
    rw [List.length_cons, List.range_succ_eq_map, List.map_cons, List.map_map]
    refine congrArg₂ List.cons ?_ (ih fun row' h => hrow row' (List.mem_cons_of_mem _ h))
    rw [← hrow row List.mem_cons_self, map_entry_row]

/-- The `k` columns by index are what the rows put together. -/
theorem columns_by_index (hrow : ∀ row ∈ g, row.length = k) :
    (List.range k).map (fun c => (List.range g.length).map fun r => entry g r c) =
      g.foldr (fun row acc => List.zipWith List.cons row acc) (List.replicate k []) := by
  induction g with
  | nil => exact (List.map_const' ..).trans (congrArg (List.replicate · []) List.length_range)
  | cons row g ih =>
    obtain ⟨hlen, hrow⟩ := List.forall_mem_cons.1 hrow
    have hcells := map_entry_row row g
    rw [hlen] at hcells
    rw [List.foldr_cons, ← ih hrow, ← congrArg (List.zipWith List.cons · _) hcells, List.zipWith_map,
      List.zipWith_self]
    refine List.map_congr_left fun c _ => ?_
    rw [List.length_cons, List.range_succ_eq_map, List.map_cons, List.map_map]
    rfl

theorem linesOf_eq (hh : 1 ≤ h) (hg : IsMatrix h k g) : linesOf g = linesByIndex h k g := by
  rw [linesByIndex, rows_by_index hg, linesOf]
  obtain ⟨rfl, hrow⟩ := hg
  rw [columns_by_index hrow]
  cases g with
  | nil => exact absurd hh (by simp)
  | cons row g => rw [columnsOf, List.headD_cons, hrow row List.mem_cons_self]

/-! ## Runs (R269) -/

theorem sum_runScore_splitBy_loop (rest : List Bool) (prev : Bool) (run : List Bool) (done : List (List Bool)) :
    ((List.splitBy.loop (fun a b => a == b) rest prev run done).map fun l => runScore l.length).sum =
      (done.map fun l => runScore l.length).sum + runsFrom prev (run.length + 1) rest := by
  induction rest generalizing prev run done with
  | nil => simp [List.splitBy.loop, runsFrom, List.sum_reverse]
  | cons b rest ih =>
    simp only [List.splitBy.loop, runsFrom]
    by_cases hb : b = prev
    · subst hb
      rw [beq_self_eq_true, if_pos rfl, ih, List.length_cons]
    · rw [beq_eq_false_iff_ne.2 (Ne.symm hb), if_neg hb, ih]
      simp [Nat.add_assoc, Nat.add_left_comm]

theorem linePen1_eq (line : List Bool) : linePen1 line = ((runLengths line).map runScore).sum := by
  rw [runLengths, List.map_map]
  cases line with
  | nil => rfl
  | cons b rest => exact ((sum_runScore_splitBy_loop rest b [] []).trans (Nat.zero_add _)).symm

/-! ## Windows of four cells (R270) -/

/-- The window of rows `r`, `r + 1` and columns `c`, `c + 1` holds four equal cells. -/
def equalWindow (g : Grid Bool) (r c : Nat) : Bool :=
  entry g r c == entry g r (c + 1) && entry g r c == entry g (r + 1) c && entry g r c == entry g (r + 1) (c + 1)

theorem blocksIn_eq (r1 r2 : List Bool) (g : Grid Bool) (hl : r2.length = r1.length) :
    blocksIn r1 r2 = countBelow (r1.length - 1) (equalWindow (r1 :: r2 :: g) 0) := by
  induction r1 generalizing r2 with
  | nil => simp [blocksIn, countBelow]
  | cons a r1 ih =>
    obtain ⟨c, r2, rfl⟩ := List.exists_cons_of_length_eq_add_one hl
    have hl : r2.length = r1.length := Nat.succ.inj hl
    cases r1 with
    | nil => cases List.length_eq_zero_iff.1 hl; rfl
    | cons b r1 =>
      obtain ⟨d, r2, rfl⟩ := List.exists_cons_of_length_eq_add_one hl
      have hfirst : equalWindow ((a :: b :: r1) :: (c :: d :: r2) :: g) 0 0 = decide (a = b ∧ a = c ∧ a = d) := by
        simp [equalWindow, entry, cellAt, Bool.beq_eq_decide_eq, Bool.and_assoc]
      refine Eq.trans ?_ (countBelow_succ r1.length _).symm
      rw [blocksIn, ih (d :: r2) hl, hfirst]
      simp only [decide_eq_true_eq]
      rfl

theorem blockCount_eq (hrow : ∀ row ∈ g, row.length = k) :
    blockCount g = ((List.range (g.length - 1)).map fun r => countBelow (k - 1) (equalWindow g r)).sum := by
  induction g with
  | nil => rfl
  | cons r1 g ih =>
    obtain ⟨h1, hrow⟩ := List.forall_mem_cons.1 hrow
    cases g with
    | nil => rfl
    | cons r2 g =>
      have h2 := hrow r2 List.mem_cons_self
      refine Eq.trans ?_ (sum_map_range_succ g.length _).symm
      rw [blockCount, ih hrow, blocksIn_eq r1 r2 g (h2.trans h1.symm), h1]
      rfl

/-! ## Windows of eleven cells (R271) -/

theorem isPrefixOf_eq_take (p l : List Bool) : p.isPrefixOf l = (l.take p.length == p) := by
  rw [Bool.eq_iff_iff, List.isPrefixOf_iff_prefix, List.prefix_iff_eq_take, beq_iff_eq, eq_comm]

/-- FPAT or its reverse stands at the start of a line. -/
def startsWithPattern (line : List Bool) : Bool := line.take 11 == finderLike || line.take 11 == finderLike.reverse

theorem patternsIn_eq (line : List Bool) :
    patternsIn line = countBelow line.length fun i => startsWithPattern (line.drop i) := by
  induction line with
  | nil => rfl
  | cons b rest ih =>
    rw [patternsIn, ih, List.length_cons, countBelow_succ, isPrefixOf_eq_take, isPrefixOf_eq_take]
    rfl

/-! ## Dark modules (R272) -/

theorem countP_dark_eq_countBelow (row : List Bool) (g : Grid Bool) :
    row.countP (fun b => b) = countBelow row.length fun c => entry (row :: g) 0 c := by
  conv_lhs => rw [← map_entry_row row g]
  rw [List.countP_map]
  rfl

theorem darkCount_eq (hrow : ∀ row ∈ g, row.length = k) :
    darkCount g = ((List.range g.length).map fun r => countBelow k fun c => entry g r c).sum := by
  induction g with
  | nil => rfl
  | cons row g ih =>
    obtain ⟨hlen, hrow⟩ := List.forall_mem_cons.1 hrow
    rw [List.length_cons, sum_map_range_succ, ← hlen, ← countP_dark_eq_countBelow, hlen]
    exact congrArg (row.countP (fun b => b) + ·) (ih hrow)

theorem cellCount_eq (hrow : ∀ row ∈ g, row.length = k) : cellCount g = g.length * k := by
  rw [cellCount, List.map_congr_left hrow, List.map_const', List.sum_replicate, smul_eq_mul]

theorem absDiff_eq_abs (a b : Nat) : (absDiff a b : Int) = |(a : Int) - b| := by
  rw [absDiff]
  rcases Nat.le_total a b with h | h
  · rw [abs_of_nonpos (by omega)]; omega
  · rw [abs_of_nonneg (by omega)]; omega

/-- Settles O46: the scans are counts by index, the lines those of `linesByIndex`. -/
theorem penaltyRulesByIndex : Obligations.PenaltyRulesByIndex := by
  intro h k g hh _ hg
  have hlines := linesOf_eq hh hg
  obtain ⟨rfl, hrow⟩ := hg
  refine ⟨?runs, ?blocks, ?patterns, ?ratio⟩
  case runs => rw [penRuns, hlines, List.map_congr_left fun line _ => linePen1_eq line]; rfl
  case blocks => rw [penBlocks, blockCount_eq hrow]; rfl
  case patterns => rw [penPatterns, hlines, List.map_congr_left fun line _ => patternsIn_eq line]; rfl
  case ratio =>
    rw [penRatio, Nat.cast_mul, absDiff_eq_abs, darkCount_eq hrow, cellCount_eq hrow]
    rfl

/-! ## PENALTY (R273, R274) -/

theorem exec_penalty (hs : s.Ready) : exec .penalty s =
    .next (s.answer .ok (scoresOf s.eng.mod).total (s.eng.setScores (scoresOf s.eng.mod))) :=
  gate_needSymbol_of_ready hs

/-- Settles O47: PENALTY sets the registers to `scoresOf` of the grid. -/
theorem penaltySetsTheRegisters : Obligations.PenaltySetsTheRegisters :=
  ⟨Laws.RoundTrip.penalty rfl, fun _ hs => ⟨_, _, _, _, rfl, rfl, rfl, rfl, exec_penalty hs⟩⟩

end Sys2Proof.Machine
end

section
/-! PROOFS of 46_mask_penalty, the selection (R275 to R277). MSKSEL leaves the engine of one candidate, so its cells are
those of MSKAPP (O44) followed by PLFMT (O32), and the candidates are a function of VERSION, ECL, MOD and TAG. -/

namespace Sys2Proof.Machine

variable {s : State} {e e' : Engine} {m r c : Nat}

/-! ## The candidates (R275) -/

/-- A candidate of the selection with its scores in the penalty registers. -/
def Engine.scoredCandidate (e : Engine) (m : Nat) : Engine := (e.candidate m).setScores (scoresOf (e.candidate m).mod)

theorem exec_plfmt_mskapp (hs : s.Ready) (m : Nat) :
    exec (.plfmt m) (s.answer .ok 0 (s.eng.maskApply m)) = .next (s.answer .ok 0 (s.eng.candidate m)) := by
  have hi : mnemonicOf (.plfmt m) ∈ placementCommands := by simp [mnemonicOf, placementCommands]
  rw [exec_placement hi (ready_answer_maskApply hs m), answer_answer, stampsOf, answer_eng, maskApply_width,
    maskApply_ecl, ← Engine.candidate]

/-- The three commands lead to the scored candidate. -/
theorem candidate_scoredCandidate (hs : s.Ready) (m : Nat) :
    Candidate m s (s.answer .ok (scoresOf (s.eng.candidate m).mod).total (s.eng.scoredCandidate m)) := by
  have hready : (s.answer .ok 0 (s.eng.candidate m)).Ready :=
    ready_answer hs (candidate_fault ..) (candidate_version ..)
  have hpenalty := exec_penalty hready
  rw [answer_eng, ← Engine.scoredCandidate, answer_answer] at hpenalty
  exact ⟨_, _, exec_mskapp hs m, exec_plfmt_mskapp hs m, hpenalty⟩

theorem commitMask_bestMask (e : Engine) :
    e.commitMask e.bestMask = { e.scoredCandidate e.bestMask.1 with mask := e.bestMask.1 } := by
  rw [Engine.commitMask, (bestMask_spec e).2.1, Engine.scoredCandidate]

/-! ## MSKSEL (R276) -/

theorem exec_msksel (hs : s.Ready) :
    exec .msksel s = .next (s.answer .ok s.eng.bestMask.1 (s.eng.commitMask s.eng.bestMask)) :=
  gate_needSymbol_of_ready hs

/-- Settles O48: MSKSEL commits the scored candidate of the id that `bestMask_spec` describes. -/
theorem mskselPicksTheFirstLowest : Obligations.MskselPicksTheFirstLowest := by
  refine ⟨Laws.RoundTrip.msksel rfl, fun s hs => ?_⟩
  obtain ⟨hlt, hscores, hbest⟩ := bestMask_spec s.eng
  rw [hscores] at hbest
  refine ⟨_, _, hlt, candidate_scoredCandidate hs _, ?commits, fun m hm =>
    ⟨_, candidate_scoredCandidate hs m, hbest m hm⟩⟩
  case commits => rw [exec_msksel hs, commitMask_bestMask, answer_eng]

/-! ## The cells of a candidate (R277 b, c) -/

/-- The candidate's format cells hold the bits of its word, its other cells are those of the masked grid. -/
theorem candidate_cells (hs : s.Ready) (hg : s.eng.GridsOk) (hm : m < 8) :
    ∃ w, (formatWords.getD s.eng.ecl.ordinal [])[m]? = some w ∧
      (∀ i r c, formatCells1[i]? = some (r, c) ∨ (formatCells2 s.eng.width)[i]? = some (r, c) →
        (s.eng.candidate m).cellIs r c (w.testBit i) .format) ∧
      ∀ r c, (r, c) ∉ formatCells1 → (r, c) ∉ formatCells2 s.eng.width →
        SameCell (s.eng.maskApply m) (s.eng.candidate m) r c := by
  obtain ⟨-, -, hplfmt, -⟩ := formatAndVersionCells
  obtain ⟨e, w, hw, -, -, hexec, hon, hoff⟩ := hplfmt (s.answer .ok 0 (s.eng.maskApply m)) m
    (ready_answer_maskApply hs m) (maskApply_gridsOk hg m) hm
  cases (exec_plfmt_mskapp hs m).symm.trans hexec
  exact ⟨w, hw, hon, hoff⟩

/-- A free cell of a candidate was free before, and its module is the old one masked. -/
theorem cellAt_candidate_of_free (hs : s.Ready) (hg : s.eng.GridsOk) (hm : m < 8)
    (hfree : cellAt (s.eng.candidate m).tag r c = some .free) : ∃ dark, s.eng.cellIs r c dark .free ∧
      cellAt (s.eng.candidate m).mod r c = some (xor dark (maskFormula m r c)) := by
  obtain ⟨w, -, hon, hoff⟩ := candidate_cells hs hg hm
  have hnot {i : Nat} : ¬ (formatCells1[i]? = some (r, c) ∨ (formatCells2 s.eng.width)[i]? = some (r, c)) := fun h =>
    nomatch (hon i r c h).2.symm.trans hfree
  have h1 : (r, c) ∉ formatCells1 := fun h => let ⟨_, hi⟩ := List.getElem?_of_mem h; hnot (.inl hi)
  have h2 : (r, c) ∉ formatCells2 s.eng.width := fun h => let ⟨_, hi⟩ := List.getElem?_of_mem h; hnot (.inr hi)
  obtain ⟨hmod, htag⟩ := hoff r c h1 h2
  rw [hfree, maskApply_tag] at htag
  have hin := cellAt_isSome hg.2 r c
  rw [← htag, Option.isSome_some, eq_comm, decide_eq_true_eq] at hin
  obtain ⟨dark, hdark⟩ := cellAt_exists hg.1 hin.1 hin.2
  have hcell : s.eng.cellIs r c dark .free := ⟨hdark, htag.symm⟩
  exact ⟨dark, hcell, hmod.trans (cellAt_maskApply hcell m)⟩

/-- Settles O49: the grid committed is the winning candidate's, and the mask applied again undoes itself on free cells. -/
theorem mskselCells : Obligations.MskselCells := by
  intro s hs hg
  obtain ⟨hlt, -, -⟩ := bestMask_spec s.eng
  obtain ⟨w, hw, hon, hoff⟩ := candidate_cells hs hg hlt
  have hs' : (s.answer .ok s.eng.bestMask.1 (s.eng.commitMask s.eng.bestMask)).Ready :=
    ready_answer hs (commitMask_fault ..) (commitMask_version ..)
  refine ⟨_, _, w, hlt, hw, exec_msksel hs, commitMask_mask .., ?format, ?cells, _, exec_mskapp hs' _, ?recovered⟩
  case format =>
    intro i r c h
    rw [Engine.cellIs, commitMask_mod, commitMask_tag]
    exact hon i r c h
  case cells =>
    intro r c dark tg h1 h2 hcell
    obtain ⟨hmod, htag⟩ := hoff r c h1 h2
    rw [Engine.cellIs, commitMask_mod, commitMask_tag]
    exact ⟨hmod.trans (cellAt_maskApply hcell _), htag.trans hcell.2⟩
  case recovered =>
    intro r c hfree
    have hfree := isFree_iff.1 hfree
    rw [commitMask_tag] at hfree
    obtain ⟨dark, hcell, hmod⟩ := cellAt_candidate_of_free hs hg hlt hfree
    have hafter : (s.eng.commitMask s.eng.bestMask).cellIs r c _ .free :=
      ⟨(commitMask_mod ..).symm ▸ hmod, (commitMask_tag ..).symm ▸ hfree⟩
    rw [answer_eng, answer_eng, cellAt_maskApply hafter, if_pos rfl, hcell.1, Bool.xor_assoc, Bool.xor_self,
      Bool.xor_false]

/-! ## What the selection depends on (R277 a) -/

/-- The same Symbol in both: VERSION, ECL, MOD and TAG. -/
structure SameSymbol (e e' : Engine) : Prop where
  version : e'.version = e.version
  ecl     : e'.ecl = e.ecl
  mod     : e'.mod = e.mod
  tag     : e'.tag = e.tag

theorem SameSymbol.width (h : SameSymbol e e') : e'.width = e.width := by
  rw [Engine.width, h.version, Engine.width]

theorem SameSymbol.maskApply (h : SameSymbol e e') (m : Nat) : SameSymbol (e.maskApply m) (e'.maskApply m) :=
  ⟨h.version, h.ecl, by rw [maskApply_mod, maskApply_mod, h.mod, h.tag], h.tag⟩

theorem SameSymbol.stampAll (h : SameSymbol e e') (ps : List Stamp) : SameSymbol (e.stampAll ps) (e'.stampAll ps) := by
  induction ps generalizing e e' with
  | nil => exact h
  | cons p ps ih =>
    refine ih ⟨h.version, h.ecl, ?_, ?_⟩
    · rw [stamp_mod, stamp_mod, h.mod]
    · rw [stamp_tag, stamp_tag, h.tag]

theorem SameSymbol.candidate (h : SameSymbol e e') (m : Nat) : SameSymbol (e.candidate m) (e'.candidate m) := by
  rw [Engine.candidate, Engine.candidate, h.width, h.ecl]
  exact (h.maskApply m).stampAll _

theorem SameSymbol.bestMask (h : SameSymbol e e') : e'.bestMask = e.bestMask := by
  simp only [Engine.bestMask, h.mod, fun m => (h.candidate m).mod]

/-- Settles O50: the same Symbol has the same candidates, so the same winner and the same grid. -/
theorem mskselDependsOnTheSymbolOnly : Obligations.MskselDependsOnTheSymbolOnly := by
  intro s u hs hu hv hl hm ht
  have h : SameSymbol s.eng u.eng := ⟨hv, hl, hm, ht⟩
  have hgrid := h.candidate s.eng.bestMask.1
  have hexec := exec_msksel hu
  rw [h.bestMask] at hexec
  refine ⟨_, _, exec_msksel hs, hexec, ?_⟩
  simp only [answer_resp, answer_eng, commitMask_mod, commitMask_tag, commitMask_mask, commitMask_pent, hgrid.mod,
    hgrid.tag, and_self]

end Sys2Proof.Machine
end

section
/-! PROOFS of 60_exceptions. Every command but NOP, RESET and RDREG begins with the fault gate, and the commands of the row
E_NOSYM go on with the Symbol check. How a command answers is said once, as a relation (`Reply`): OK, a typed error of its
row with nothing written, or the fatal fault; the rules about error codes follow from it by cases. -/

namespace Sys2Proof.Machine

variable {i : Instr} {s t : State} {row : List Err}

/-! ## The checks a command begins with (R326, R327) -/

/-- Settles O51: every command but NOP, RESET and RDREG begins with the gate. -/
theorem faultGate : Obligations.FaultGate := by
  intro i s hf hi
  cases i with
  | nop | reset | rdreg => simp [mnemonicOf] at hi
  | bwr buf idx byte => exact show execBwr buf idx byte s = _ from gate_faulted hf
  | brd buf idx => exact show execBrd buf idx s = _ from gate_faulted hf
  | blen buf n => exact show execBlen buf n s = _ from gate_faulted hf
  | _ => exact gate_faulted hf

/-- Settles O30: the commands of the row begin with the gate and the Symbol check. -/
theorem symbolCheck : Obligations.SymbolCheck := by
  intro i s hi hf hv
  have hchk (k : State → Result) : gate (needSymbol k) s = .next (s.answer .noSym 0 s.eng) := by
    rw [gate_serving hf, needSymbol_none hv, typedError_eq_answer]
  cases i with
  | mrd | plfind | pltime | plalign | plfmt | plver | pldark | plall | cntnone | avail | wkrst | wkbit | wkrun | mskapp
  | penalty | msksel => exact hchk _
  | _ => simp [mnemonicOf, symbolCommands] at hi

/-! ## How a command answers (R320 to R325) -/

/-- `Reply row s t`: from `s` to `t` a command has answered OK, or a typed error of `row` with nothing written, or, where
`row` lists it, the fatal fault with nothing but MOD, the walker, FAULT and FCODE written. -/
inductive Reply (row : List Err) (s t : State) : Prop where
  | ok {e : Engine} {v d : Nat} (h : Answered s t e v d)
  | typed {err : Err} {d : Nat} (hrow : err ∈ row) (herr : err.typed = true)
      (h : t = { s with resp := some { err := err, val := 0 }, draws := d })
  | overflow {e : Engine} {d : Nat} (hrow : .overflow ∈ row) (he : SameButWalk s.eng e) (h : Overflowed s t e d)

/-- If the command ends in a next state at all, it is by a reply of `row`. -/
def Replies (row : List Err) (s : State) (r : Result) : Prop := ∀ t, r = .next t → Reply row s t

theorem Replies.of_draws {r : Result} {d : Nat} (h : Replies row { s with draws := d } r) : Replies row s r := by
  intro t ht
  cases h t ht with
  | ok h => exact .ok h
  | typed hrow herr h => exact .typed hrow herr h
  | overflow hrow he h => exact .overflow hrow he h

theorem succeed_replies {v : Nat} {e : Engine} : Replies row s (succeed v { s with eng := e }) :=
  fun _ ht => .ok (succeed_next ht)

theorem typedError_replies {err : Err} (hrow : err ∈ row := by simp [errorRow]) (herr : err.typed = true := by rfl) :
    Replies row s (typedError err s) :=
  fun _ ht => .typed hrow herr (respond_next.1 ht)

theorem takeOverflow_replies {e : Engine} (he : SameButWalk s.eng e) (hrow : .overflow ∈ row := by simp [errorRow]) :
    Replies row s (takeOverflow { s with eng := e }) :=
  fun _ ht => .overflow hrow he (respond_next.1 ht)

section Checks

variable {k : State → Result} {c : Bool} {err : Err} (h : Replies row s (k s))
include h

theorem gate_replies (hrow : .faulted ∈ row := by simp [errorRow]) : Replies row s (gate k s) := by
  unfold gate
  split
  · exact typedError_replies hrow
  · exact h

theorem needSymbol_replies (hrow : .noSym ∈ row := by simp [errorRow]) : Replies row s (needSymbol k s) := by
  unfold needSymbol
  split
  · exact typedError_replies hrow
  · exact h

theorem require_replies (hrow : err ∈ row := by simp [errorRow]) (herr : err.typed = true := by rfl) :
    Replies row s (require c err k s) := by
  unfold require
  split
  · exact h
  · exact typedError_replies hrow herr

end Checks

theorem readBytes_replies {b : Buf} {lo n : Nat} {kb : List Byte → State → Result}
    (h : ∀ bs d, Replies row { s with draws := d } (kb bs { s with draws := d })) :
    Replies row s (readBytes b lo n kb s) := by
  intro t ht
  obtain ⟨bs, d, -, -, ht⟩ := readBytes_next ht
  exact (h bs d).of_draws t ht

/-! The commands whose definitions branch on a code or on a walk. -/

theorem execBwr_replies {buf idx : Nat} {byte : Byte} : Replies [.range, .faulted] s (execBwr buf idx byte s) := by
  refine gate_replies ?_
  split
  · exact typedError_replies
  · exact require_replies succeed_replies

theorem execBrd_replies {buf idx : Nat} : Replies [.range, .faulted] s (execBrd buf idx s) := by
  refine gate_replies ?_
  split
  · exact typedError_replies
  · exact require_replies (readBytes_replies fun _ _ => succeed_replies (e := s.eng))

theorem execBlen_replies {buf n : Nat} : Replies [.range, .faulted] s (execBlen buf n s) := by
  refine gate_replies ?_
  split
  · exact require_replies succeed_replies
  · exact require_replies succeed_replies
  · exact typedError_replies

theorem execWkbit_replies {b : Bool} : Replies [.noSym, .faulted, .overflow] s (execWkbit b s) := by
  refine gate_replies (needSymbol_replies ?_)
  split
  next => exact succeed_replies
  next e he => exact takeOverflow_replies (placeBits_eq ((placeBits_singleton b _).trans he)).symm

theorem execWkrun_replies : Replies [.noSym, .faulted, .overflow] s (execWkrun s) := by
  refine gate_replies (needSymbol_replies (readBytes_replies fun bs d => ?_))
  split
  next => exact succeed_replies
  next e he => exact takeOverflow_replies (placeBits_eq he).symm

/-- The reply of each command, from the operations its definition is made of. -/
theorem exec_replies (i : Instr) (s : State) : Replies (errorRow i) s (exec i s) := by
  cases i with
  | nop => exact succeed_replies (e := s.eng)
  | reset => exact succeed_replies
  | rdreg => exact require_replies (succeed_replies (e := s.eng))
  | bwr => exact execBwr_replies
  | brd => exact execBrd_replies
  | blen => exact execBlen_replies
  | symnew | genld => exact gate_replies (require_replies succeed_replies)
  | mrd => exact gate_replies (needSymbol_replies (require_replies (succeed_replies (e := s.eng))))
  | gfadd | gfmul | gfexp | fmtword | verword => exact gate_replies (succeed_replies (e := s.eng))
  | gfdiv | gflog => exact gate_replies (require_replies (succeed_replies (e := s.eng)))
  | pmul =>
    exact gate_replies (require_replies (require_replies (readBytes_replies fun _ _ => readBytes_replies fun _ _ =>
      succeed_replies)))
  | prem =>
    exact gate_replies (require_replies (readBytes_replies fun _ _ => require_replies (readBytes_replies fun _ _ =>
      readBytes_replies fun _ _ => succeed_replies)))
  | rscfg =>
    exact gate_replies (require_replies (require_replies (require_replies (require_replies succeed_replies))))
  | rsenc => exact gate_replies (require_replies (readBytes_replies fun _ _ => succeed_replies))
  | cntnone | avail => exact gate_replies (needSymbol_replies (succeed_replies (e := s.eng)))
  | plfind | pltime | plalign | plfmt | plver | pldark | plall | wkrst | mskapp | penalty | msksel =>
    exact gate_replies (needSymbol_replies succeed_replies)
  | wkbit => exact execWkbit_replies
  | wkrun => exact execWkrun_replies

theorem mem_walkCommands_of_overflow (h : .overflow ∈ errorRow i) : mnemonicOf i ∈ walkCommands := by
  cases i with
  | wkbit | wkrun => simp [mnemonicOf, walkCommands]
  | _ => simp [errorRow] at h

/-- Settles O55: each kind of `Reply` has its code. -/
theorem errorMatrix : Obligations.ErrorMatrix := by
  intro i s t r ht hr
  cases exec_replies i s t ht with
  | ok h => cases h; cases hr; exact .inl rfl
  | typed hrow _ h => cases h; cases hr; exact .inr hrow
  | overflow hrow _ h => cases h; cases hr; exact .inr hrow

/-- Settles O52: of the kinds of `Reply` only the one that writes nothing has a typed code. -/
theorem typedErrorsChangeNothing : Obligations.TypedErrorsChangeNothing := by
  intro i s t r ht hr herr
  cases exec_replies i s t ht with
  | ok h => cases h; cases hr; cases herr
  | typed _ _ h => cases h; cases hr; exact ⟨rfl, rfl, rfl, rfl⟩
  | overflow _ _ h => cases h; cases hr; cases herr

/-! ## The fatal fault (R325, R328 to R330) -/

theorem decode_eq_reset_iff {w : Word} : decode w = .instr .reset ↔ w = 0x01000000 :=
  ⟨fun h => (encode_of_decode h).symm, fun h => h ▸ Laws.RoundTrip.reset rfl⟩

/-- A command that raises the fault began without it: a faulted engine answers E_FAULTED to the commands that can. -/
theorem fault_eq_false_of_overflow {r : Response} (hi : mnemonicOf i ∈ walkCommands) (ht : exec i s = .next t)
    (hr : t.resp = some r) (herr : r.err = .overflow) : s.eng.fault = false := by
  by_contra hf
  have hgated : ∀ n ∈ walkCommands, n ∉ ["NOP", "RESET", "RDREG"] := by decide
  cases (faultGate i s (Bool.not_eq_false _ ▸ hf) (hgated _ hi)).symm.trans ht
  cases hr
  cases herr

/-- Settles O53: of the kinds of `Reply` only the fatal fault has its code, and only two rows list it. -/
theorem overflowLatches : Obligations.OverflowLatches := by
  intro i s t r ht hr herr
  cases exec_replies i s t ht with
  | ok h => cases h; cases hr; cases herr
  | typed _ htyped h => cases h; cases hr; cases herr; cases htyped
  | @overflow e d hrow he h =>
    have hi := mem_walkCommands_of_overflow hrow
    have hf := fault_eq_false_of_overflow hi ht hr herr
    cases h
    cases hr
    refine ⟨hi, rfl, hf, ?_⟩
    rw [← he]

theorem exec_keeps_faulted (hf : s.eng.fault = true) (hi : i ≠ .reset) : ∃ t, exec i s = .next t ∧ t.eng = s.eng := by
  cases i with
  | nop => exact ⟨_, rfl, rfl⟩
  | reset => exact absurd rfl hi
  | rdreg n =>
    by_cases hn : n ≤ lastReg
    · exact ⟨_, exec_rdreg_of_le hn s, rfl⟩
    · exact ⟨_, exec_rdreg_out_of_range hn s, rfl⟩
  | _ => exact ⟨_, faultGate _ s hf (by simp [mnemonicOf]), rfl⟩

theorem step_command_of_faulted {w : Word} {rest : List HostInput} (hf : s.eng.fault = true)
    (hs : s.input = .command w :: rest) (hw : w ≠ 0x01000000) : ∃ t, step s = .next t ∧ t.eng = s.eng := by
  cases hd : decode w with
  | instr i =>
    have hi : i ≠ .reset := fun h => hw (decode_eq_reset_iff.1 (h ▸ hd))
    rw [step_of_command hs hd]
    exact exec_keeps_faulted (s := { s with input := rest }) hf hi
  | illegal err => exact ⟨_, step_of_illegal hs hd, rfl⟩

/-- Settles O54: a reset restores the engine; no input, an illegal word and every other command leave it. -/
theorem faultLeftOnlyByReset : Obligations.FaultLeftOnlyByReset := by
  intro s hf
  cases hs : s.input with
  | nil => exact ⟨s, step_of_no_input hs, by simp, fun _ _ => rfl⟩
  | cons x rest =>
    cases x with
    | hardReset => exact ⟨_, step_of_hardReset hs, fun _ => rfl, by simp⟩
    | command w =>
      by_cases hw : w = 0x01000000
      · exact ⟨_, step_of_command hs (decode_eq_reset_iff.2 hw), fun _ => rfl, fun _ h => absurd (by rw [hw]; rfl) h⟩
      · obtain ⟨t, ht, heng⟩ := step_command_of_faulted hf hs hw
        exact ⟨t, ht, fun h => absurd h (by simpa using hw), fun _ _ => heng⟩

end Sys2Proof.Machine
end
